-- ==== Sys2Proof/Word.lean ====
section
/-! DEFINITION. The word types of the block: bytes, 32-bit words, 16-bit samples, 12-bit slot indices, and the two
integer readings of 00_scope.md R16 (`sat16`, `wrap32`). -/

namespace Sys2Proof

/-- A byte (R16): one encoded sample, one ASCII digit, one byte of the command stream. -/
abbrev Byte := BitVec 8

/-- A 32-bit word: header, response and event words (R81, R88, R90), `conf_buff` cells (R34), conference ids (R31). -/
abbrev Word := BitVec 32

/-- A signed 16-bit linear sample: entries of the decode tables (R104) and of the DTMF buffer (R37). -/
abbrev Sample := BitVec 16

/-- A channel slot index as the command header carries it, 0 to 4095 (R81). -/
abbrev ChIx := BitVec 12

/-- A conference id, 32 bits (R31, R33). -/
abbrev ConfId := BitVec 32

/-- A hardware instance id, 16 bits (R31). -/
abbrev HwId := BitVec 16

end Sys2Proof
end

