-- ==== Sys2Proof/Syntax.lean ====
section
/-! DEFINITION. The nine commands as data (30_encoding.md R80): one constructor per row of spec/opcode_table.json, with
the operands the row gives. The length of a frame is the length of its byte list (R80). -/

namespace Sys2Proof

/-- The two encodings (R14, R25): `a` is A-law, `u` is mu-law. -/
inductive Law
  | a
  | u
  deriving DecidableEq, Repr

/-- The field CH_SET writes, with the part of the value each field uses (R85). -/
inductive Setting
  /-- Selector 0, LAW. -/
  | law (l : Law)
  /-- Selector 1, ECHO. -/
  | echo (b : Bool)
  /-- Selector 2, TX_MIX. -/
  | txMix (b : Bool)
  /-- Selector 3, ACTIVE. -/
  | active (b : Bool)
  /-- Selector 4, CONF_ID. -/
  | confId (id : ConfId)
  /-- Selector 5, HW_ID. -/
  | hwId (id : HwId)
  deriving DecidableEq, Repr

/-- The formats of DTMF_DECODE (R86). -/
inductive Fmt
  | aLaw
  | uLaw
  | hfc
  deriving DecidableEq, Repr

/-- The commands (R80). -/
inductive Instr
  /-- `CH_INIT ch, law` (R160). -/
  | chInit (ch : ChIx) (law : Law)
  /-- `CH_SET ch, field, value` (R161). -/
  | chSet (ch : ChIx) (setting : Setting)
  /-- `RECONFIGURE ch` (R156). -/
  | reconfigure (ch : ChIx)
  /-- `RECEIVE ch, frame` (R170). -/
  | receive (ch : ChIx) (frame : List Byte)
  /-- `TRANSMIT ch, frame` (R220). -/
  | transmit (ch : ChIx) (frame : List Byte)
  /-- `SEND ch, len, tag` (R190). -/
  | send (ch : ChIx) (len : BitVec 16) (tag : Word)
  /-- `SEND_TONE ch, len, tag, tone` (R196); `len` is the length of `tone`. -/
  | sendTone (ch : ChIx) (tag : Word) (tone : List Byte)
  /-- `DTMF_INIT ch` (R230). -/
  | dtmfInit (ch : ChIx)
  /-- `DTMF_DECODE ch, fmt, bytes` (R231). -/
  | dtmfDecode (ch : ChIx) (fmt : Fmt) (bytes : List Byte)
  deriving DecidableEq, Repr

/-- The slot a command names (R81). -/
def Instr.ch : Instr → ChIx
  | .chInit ch _ => ch
  | .chSet ch _ => ch
  | .reconfigure ch => ch
  | .receive ch _ => ch
  | .transmit ch _ => ch
  | .send ch _ _ => ch
  | .sendTone ch _ _ => ch
  | .dtmfInit ch => ch
  | .dtmfDecode ch _ _ => ch

/-- The payload bytes that follow the header (R82). -/
def Instr.payload : Instr → List Byte
  | .chInit _ _ => []
  | .chSet _ _ => []
  | .reconfigure _ => []
  | .receive _ frame => frame
  | .transmit _ frame => frame
  | .send _ _ _ => []
  | .sendTone _ _ tone => tone
  | .dtmfInit _ => []
  | .dtmfDecode _ _ bytes => bytes

end Sys2Proof
end

