-- ==== Sys2Proof/WellFormed.lean ====
section
/-! DEFINITION. Which commands have an encoding (30_encoding.md R81, R82): a payload's length must fit the 16-bit `arg`.
Every other field fits by its type. -/

namespace Sys2Proof

/-- A command is well formed when its payload has at most 65535 bytes (R82). -/
def Instr.wellFormed : Instr → Bool
  | .chInit _ _ => true
  | .chSet _ _ => true
  | .reconfigure _ => true
  | .receive _ frame => decide (frame.length < 65536)
  | .transmit _ frame => decide (frame.length < 65536)
  | .send _ _ _ => true
  | .sendTone _ _ tone => decide (tone.length < 65536)
  | .dtmfInit _ => true
  | .dtmfDecode _ _ bytes => decide (bytes.length < 65536)

/-- The check as a proposition. -/
abbrev Instr.WellFormed (i : Instr) : Prop := i.wellFormed = true

end Sys2Proof
end

