-- ==== Sys2Proof/Decode.lean ====
section
/-! DEFINITION. From bytes to commands and back (30_encoding.md): the total decoder of R93, rejecting by name the
encodings R87 calls illegal, then the encoder written from the same tables (R81, R82, R84, R85, R86), the opcode table
(R83), the pseudo-commands (R92) and the textual spelling (R91). -/

namespace Sys2Proof

/-! ### Opcodes (R84) -/

/-- Opcode of CH_INIT. -/
abbrev opChInit : BitVec 4 := 0x1#4
/-- Opcode of CH_SET. -/
abbrev opChSet : BitVec 4 := 0x2#4
/-- Opcode of RECONFIGURE. -/
abbrev opReconfigure : BitVec 4 := 0x3#4
/-- Opcode of RECEIVE. -/
abbrev opReceive : BitVec 4 := 0x4#4
/-- Opcode of TRANSMIT. -/
abbrev opTransmit : BitVec 4 := 0x5#4
/-- Opcode of SEND. -/
abbrev opSend : BitVec 4 := 0x6#4
/-- Opcode of SEND_TONE. -/
abbrev opSendTone : BitVec 4 := 0x7#4
/-- Opcode of DTMF_INIT. -/
abbrev opDtmfInit : BitVec 4 := 0x8#4
/-- Opcode of DTMF_DECODE. -/
abbrev opDtmfDecode : BitVec 4 := 0x9#4

/-! ### Words and bytes (20_memory.md R66: little-endian) -/

/-- The word whose byte at the lowest offset is `b0` (R66). -/
def wordOfBytes (b0 b1 b2 b3 : Byte) : Word := b3 ++ b2 ++ b1 ++ b0

/-- The four bytes of a word, least significant first (R66). -/
def bytesOfWord (w : Word) : List Byte :=
  [w.extractLsb' 0 8, w.extractLsb' 8 8, w.extractLsb' 16 8, w.extractLsb' 24 8]

/-- `op`, bits 31:28 of header word 0 (R81). -/
def headerOp (w0 : Word) : BitVec 4 := w0.extractLsb' 28 4

/-- `ch`, bits 27:16 of header word 0 (R81). -/
def headerCh (w0 : Word) : ChIx := w0.extractLsb' 16 12

/-- `arg`, bits 15:0 of header word 0 (R81). -/
def headerArg (w0 : Word) : BitVec 16 := w0.extractLsb' 0 16

/-- Header word 0 from its fields (R81). -/
def headerWord (op : BitVec 4) (ch : ChIx) (arg : BitVec 16) : Word := op ++ ch ++ arg

/-- How many payload bytes follow the header (R82); none for a reserved opcode (R87). -/
def payloadLen (op : BitVec 4) (arg : BitVec 16) : Nat :=
  if op = opReceive ∨ op = opTransmit ∨ op = opSendTone ∨ op = opDtmfDecode then arg.toNat else 0

/-! ### Decoding -/

/-- Why a command is illegal (R87). -/
inductive Illegal
  /-- `op` is 0x0 or 0xA to 0xF. -/
  | reservedOpcode
  /-- A field R84, R85 or R86 requires to be zero is not zero. -/
  | nonzeroField
  /-- The CH_SET selector is 6 to 15. -/
  | reservedSelector
  /-- The DTMF_DECODE format is 3. -/
  | reservedFormat
  deriving DecidableEq, Repr

/-- The law a bit stands for: 0 A-law, 1 mu-law (R25). -/
def Law.ofBit (b : Bool) : Law := if b then .u else .a

/-- The bit of a law (R25). -/
def Law.bit : Law → Bool
  | .a => false
  | .u => true

/-- CH_INIT's operand: bit 0 of `arg` is the law, bits 15:1 are zero, `x` is zero (R84). -/
def decodeChInit (ch : ChIx) (arg : BitVec 16) (x : Word) : Except Illegal Instr :=
  if arg.extractLsb' 1 15 = 0 ∧ x = 0 then .ok (.chInit ch (Law.ofBit (arg.getLsbD 0)))
  else .error .nonzeroField

/-- A one-bit CH_SET value: bit 0 of `x`, the bits above it zero (R85). -/
def decodeBit (x : Word) (f : Bool → Setting) : Except Illegal Setting :=
  if x.extractLsb' 1 31 = 0 then .ok (f (x.getLsbD 0)) else .error .nonzeroField

/-- The CH_SET selector and value (R85). -/
def decodeSetting (sel : BitVec 4) (x : Word) : Except Illegal Setting :=
  if sel = 0 then decodeBit x (fun b => .law (Law.ofBit b))
  else if sel = 1 then decodeBit x .echo
  else if sel = 2 then decodeBit x .txMix
  else if sel = 3 then decodeBit x .active
  else if sel = 4 then .ok (.confId x)
  else if sel = 5 then
    if x.extractLsb' 16 16 = 0 then .ok (.hwId (x.extractLsb' 0 16)) else .error .nonzeroField
  else .error .reservedSelector

/-- CH_SET: selector in bits 3:0 of `arg`, bits 15:4 zero (R84). -/
def decodeChSet (ch : ChIx) (arg : BitVec 16) (x : Word) : Except Illegal Instr :=
  if arg.extractLsb' 4 12 = 0 then (decodeSetting (arg.extractLsb' 0 4) x).map (.chSet ch)
  else .error .nonzeroField

/-- A command whose `arg` and `x` are both zero (R84: RECONFIGURE, DTMF_INIT). -/
def decodePlain (arg : BitVec 16) (x : Word) (i : Instr) : Except Illegal Instr :=
  if arg = 0 ∧ x = 0 then .ok i else .error .nonzeroField

/-- A command whose `x` is zero (R84: RECEIVE, TRANSMIT). -/
def decodeFrame (x : Word) (i : Instr) : Except Illegal Instr :=
  if x = 0 then .ok i else .error .nonzeroField

/-- DTMF_DECODE's format, bits 1:0 of `x`; bits 31:2 are zero (R84, R86). -/
def decodeFmt (x : Word) : Except Illegal Fmt :=
  if x.extractLsb' 2 30 = 0 then
    if x.extractLsb' 0 2 = 0 then .ok .aLaw
    else if x.extractLsb' 0 2 = 1 then .ok .uLaw
    else if x.extractLsb' 0 2 = 2 then .ok .hfc
    else .error .reservedFormat
  else .error .nonzeroField

/-- One command from its header fields and its payload (R84, R87). -/
def decodeCommand (op : BitVec 4) (ch : ChIx) (arg : BitVec 16) (x : Word) (payload : List Byte) :
    Except Illegal Instr :=
  if op = opChInit then decodeChInit ch arg x
  else if op = opChSet then decodeChSet ch arg x
  else if op = opReconfigure then decodePlain arg x (.reconfigure ch)
  else if op = opReceive then decodeFrame x (.receive ch payload)
  else if op = opTransmit then decodeFrame x (.transmit ch payload)
  else if op = opSend then .ok (.send ch arg x)
  else if op = opSendTone then .ok (.sendTone ch x payload)
  else if op = opDtmfInit then decodePlain arg x (.dtmfInit ch)
  else if op = opDtmfDecode then (decodeFmt x).map (fun fmt => .dtmfDecode ch fmt payload)
  else .error .reservedOpcode

/-- What the decoder reads at the head of a byte stream (R93). -/
inductive Decoded
  /-- A legal command and the bytes after it. -/
  | instr (i : Instr) (rest : List Byte)
  /-- An illegal command, the `op` and `ch` its response copies (R88), and the bytes after it. -/
  | illegal (why : Illegal) (op : BitVec 4) (ch : ChIx) (rest : List Byte)
  /-- The stream ends inside a header or a payload: not a command. -/
  | incomplete
  deriving DecidableEq, Repr

/-- A command from its two header words and the bytes after them (R93). -/
def decodeWords (w0 x : Word) (bytes : List Byte) : Decoded :=
  let plen := payloadLen (headerOp w0) (headerArg w0)
  if bytes.length < plen then .incomplete
  else
    match decodeCommand (headerOp w0) (headerCh w0) (headerArg w0) x (bytes.take plen) with
    | .ok i => .instr i (bytes.drop plen)
    | .error why => .illegal why (headerOp w0) (headerCh w0) (bytes.drop plen)

/-- The decoding procedure of R93, total on any byte stream. -/
def decode : List Byte → Decoded
  | b0 :: b1 :: b2 :: b3 :: b4 :: b5 :: b6 :: b7 :: bytes =>
    decodeWords (wordOfBytes b0 b1 b2 b3) (wordOfBytes b4 b5 b6 b7) bytes
  | _ => .incomplete

/-! ### Encoding -/

/-- A bit as a field of `n` bits. -/
def bitField (n : Nat) (b : Bool) : BitVec n := if b then 1 else 0

/-- Selector of a setting (R85). -/
def Setting.selector : Setting → BitVec 4
  | .law _ => 0
  | .echo _ => 1
  | .txMix _ => 2
  | .active _ => 3
  | .confId _ => 4
  | .hwId _ => 5

/-- Header word 1 of a setting (R85). -/
def Setting.value : Setting → Word
  | .law l => bitField 32 l.bit
  | .echo b => bitField 32 b
  | .txMix b => bitField 32 b
  | .active b => bitField 32 b
  | .confId id => id
  | .hwId id => id.setWidth 32

/-- The code of a format (R86). -/
def Fmt.code : Fmt → Word
  | .aLaw => 0
  | .uLaw => 1
  | .hfc => 2

/-- The opcode of a command (R84). -/
def Instr.op : Instr → BitVec 4
  | .chInit _ _ => opChInit
  | .chSet _ _ => opChSet
  | .reconfigure _ => opReconfigure
  | .receive _ _ => opReceive
  | .transmit _ _ => opTransmit
  | .send _ _ _ => opSend
  | .sendTone _ _ _ => opSendTone
  | .dtmfInit _ => opDtmfInit
  | .dtmfDecode _ _ _ => opDtmfDecode

/-- `arg` of a command (R84). -/
def Instr.arg : Instr → BitVec 16
  | .chInit _ law => bitField 16 law.bit
  | .chSet _ st => st.selector.setWidth 16
  | .reconfigure _ => 0
  | .receive _ frame => BitVec.ofNat 16 frame.length
  | .transmit _ frame => BitVec.ofNat 16 frame.length
  | .send _ len _ => len
  | .sendTone _ _ tone => BitVec.ofNat 16 tone.length
  | .dtmfInit _ => 0
  | .dtmfDecode _ _ bytes => BitVec.ofNat 16 bytes.length

/-- Header word 1 of a command (R81, R84). -/
def Instr.x : Instr → Word
  | .chInit _ _ => 0
  | .chSet _ st => st.value
  | .reconfigure _ => 0
  | .receive _ _ => 0
  | .transmit _ _ => 0
  | .send _ _ tag => tag
  | .sendTone _ tag _ => tag
  | .dtmfInit _ => 0
  | .dtmfDecode _ fmt _ => fmt.code

/-- Header word 0 of a command (R81). -/
def Instr.word0 (i : Instr) : Word := headerWord i.op i.ch i.arg

/-- The bytes of a command: two little-endian header words, then the payload (R81, R66). -/
def encode (i : Instr) : List Byte := bytesOfWord i.word0 ++ bytesOfWord i.x ++ i.payload

/-! ### The opcode table (R83) -/

/-- One row of spec/opcode_table.json. -/
structure OpRow where
  /-- The mnemonic. -/
  mnemonic : String
  /-- Header word 0 under `mask0` equals `match0`. -/
  match0 : Word
  /-- The fixed bits of header word 0. -/
  mask0 : Word
  /-- Header word 1 under `mask1` equals `match1`. -/
  match1 : Word
  /-- The fixed bits of header word 1. -/
  mask1 : Word
  deriving DecidableEq, Repr

/-- The nine rows (spec/opcode_table.json). -/
def opcodeRows : List OpRow :=
  [⟨"CH_INIT", 0x10000000#32, 0xF000FFFE#32, 0#32, 0xFFFFFFFF#32⟩,
   ⟨"CH_SET", 0x20000000#32, 0xF000FFF0#32, 0#32, 0#32⟩,
   ⟨"RECONFIGURE", 0x30000000#32, 0xF000FFFF#32, 0#32, 0xFFFFFFFF#32⟩] ++
  [⟨"RECEIVE", 0x40000000#32, 0xF0000000#32, 0#32, 0xFFFFFFFF#32⟩,
   ⟨"TRANSMIT", 0x50000000#32, 0xF0000000#32, 0#32, 0xFFFFFFFF#32⟩,
   ⟨"SEND", 0x60000000#32, 0xF0000000#32, 0#32, 0#32⟩] ++
  [⟨"SEND_TONE", 0x70000000#32, 0xF0000000#32, 0#32, 0#32⟩,
   ⟨"DTMF_INIT", 0x80000000#32, 0xF000FFFF#32, 0#32, 0xFFFFFFFF#32⟩,
   ⟨"DTMF_DECODE", 0x90000000#32, 0xF0000000#32, 0#32, 0xFFFFFFFC#32⟩]

/-- A header matches a row (R83). -/
def OpRow.fits (r : OpRow) (w0 w1 : Word) : Bool := w0 &&& r.mask0 == r.match0 && w1 &&& r.mask1 == r.match1

/-- The mnemonic of a command (R84). -/
def Instr.mnemonic : Instr → String
  | .chInit _ _ => "CH_INIT"
  | .chSet _ _ => "CH_SET"
  | .reconfigure _ => "RECONFIGURE"
  | .receive _ _ => "RECEIVE"
  | .transmit _ _ => "TRANSMIT"
  | .send _ _ _ => "SEND"
  | .sendTone _ _ _ => "SEND_TONE"
  | .dtmfInit _ => "DTMF_INIT"
  | .dtmfDecode _ _ _ => "DTMF_DECODE"

/-! ### Pseudo-commands (R92) -/

/-- `JOIN ch, id`. -/
def pseudoJoin (ch : ChIx) (id : ConfId) : List Instr :=
  [.chSet ch (.confId id), .chSet ch (.active true), .reconfigure ch]

/-- `LEAVE ch`. -/
def pseudoLeave (ch : ChIx) : List Instr := [.chSet ch (.confId 0), .reconfigure ch]

/-- `HANGUP ch`. -/
def pseudoHangup (ch : ChIx) : List Instr := [.chSet ch (.active false), .reconfigure ch]

/-! ### Textual spelling (R91) -/

/-- A byte as two hexadecimal digits. -/
def hexByte (b : Byte) : String :=
  String.ofList [(Nat.digitChar (b.toNat / 16)).toUpper, (Nat.digitChar (b.toNat % 16)).toUpper]

/-- A byte list in square brackets (R91), written without the repetition shorthand. -/
def bytesText (bytes : List Byte) : String := "[" ++ String.intercalate " " (bytes.map hexByte) ++ "]"

/-- The name of a law (R91). -/
def Law.text : Law → String
  | .a => "A"
  | .u => "U"

/-- The name of a format (R91). -/
def Fmt.text : Fmt → String
  | .aLaw => "ALAW"
  | .uLaw => "ULAW"
  | .hfc => "HFC"

/-- The name and the value of a CH_SET field (R85, R91). -/
def Setting.text : Setting → String
  | .law l => "LAW, " ++ (if l.bit then "1" else "0")
  | .echo b => "ECHO, " ++ (if b then "1" else "0")
  | .txMix b => "TX_MIX, " ++ (if b then "1" else "0")
  | .active b => "ACTIVE, " ++ (if b then "1" else "0")
  | .confId id => "CONF_ID, " ++ toString id.toNat
  | .hwId id => "HW_ID, " ++ toString id.toNat

/-- The operands of a command after the slot index (R91). -/
def Instr.operands : Instr → String
  | .chInit _ law => ", " ++ law.text
  | .chSet _ st => ", " ++ st.text
  | .reconfigure _ => ""
  | .receive _ frame => ", " ++ bytesText frame
  | .transmit _ frame => ", " ++ bytesText frame
  | .send _ len tag => ", " ++ toString len.toNat ++ ", " ++ toString tag.toNat
  | .sendTone _ tag tone =>
    ", " ++ toString tone.length ++ ", " ++ toString tag.toNat ++ ", " ++ bytesText tone
  | .dtmfInit _ => ""
  | .dtmfDecode _ fmt bytes => ", " ++ fmt.text ++ ", " ++ bytesText bytes

/-- One line of assembler text for a command (R91). -/
def Instr.text (i : Instr) : String := i.mnemonic ++ " " ++ toString i.ch.toNat ++ i.operands

/-! ### Words of the opcode table -/

/-- Byte `k` of the number `n`, byte 0 the least significant. -/
def byteOfNat (n k : Nat) : Byte := BitVec.ofNat 8 (n >>> (8 * k))

/-- The bytes of the instruction whose bits are `w` as spec/opcode_table.json numbers them (bits at or above `nbits`
zero): the eight header bytes, then as many payload bytes as its header asks for (R82). -/
def tableBytes (nbits w : Nat) : List Byte :=
  let v := w % 2 ^ nbits
  let w0 : Word := BitVec.ofNat 32 v
  (List.range (8 + payloadLen (headerOp w0) (headerArg w0))).map (byteOfNat v)

/-- The instruction the decoder reads from a word of the opcode table. -/
def decodeTableWord (nbits w : Nat) : Option Instr :=
  match decode (tableBytes nbits w) with
  | .instr i _ => some i
  | _ => none

end Sys2Proof
end

