-- ==== Sys2Proof/Config.lean ====
section
/-! DEFINITION. The configuration parameters of 00_scope.md R7 to R13 and 93_implementation_defined.md part 2: plain
data, fixed before power-on and never written by any command (10_state.md R40). -/

namespace Sys2Proof

/-- A table of 65536 bytes as data: runs of equal entries, `(length, byte)`, in index order (R12; the run form is log 4's
companion, log 12). Every table of bytes has such a form. -/
abbrev RunTable := List (Nat × Byte)

/-- How many entries a run table describes. -/
def RunTable.size (t : RunTable) : Nat := (t.map (·.1)).sum

/-- The parameters of the block. -/
structure Config where
  /-- `BUFF_SIZE`, written S: a power of two, at least 8 (R7). -/
  buffSize : Nat
  /-- `DTMF_NPOINTS`, written N (R8). -/
  nPoints : Nat
  /-- `DTMF_THRESH` (R9). -/
  dtmfThresh : Nat
  /-- `COEF[0..7]`, each an unsigned 16-bit integer (R10). -/
  coef : Vector (BitVec 16) 8
  /-- `alaw_to_s32` (R12, R104). -/
  decA : Vector Sample 256
  /-- `ulaw_to_s32` (R12, R104). -/
  decU : Vector Sample 256
  /-- `s16_to_alaw` (R12, R105), indexed by the 16-bit pattern of the sample (D14). -/
  encA : RunTable
  /-- `s16_to_ulaw` (R12, R105). -/
  encU : RunTable
  /-- `alaw_silence` (R12, R106). -/
  silA : Byte
  /-- `ulaw_silence` (R12, R106). -/
  silU : Byte
  /-- `NCHAN` (R13). -/
  nChan : Nat
  /-- `NCONF` (R13). -/
  nConf : Nat
  /-- `MAX_MEMBERS` (R13). -/
  maxMembers : Nat
  /-- `DIGITS_CAP` (R13). -/
  digitsCap : Nat
  deriving DecidableEq, Repr

/-- The constraints of 93_implementation_defined.md part 2 (R7, R8, R9, R12, R13). `COEF`, the decode tables and the
silence bytes meet theirs by their types. -/
structure Config.Valid (c : Config) : Prop where
  /-- `BUFF_SIZE` is a power of two (R7, R293). -/
  pow : ∃ k, c.buffSize = 2 ^ k
  /-- `BUFF_SIZE ≥ 8`, so that `MAXLEN ≥ 1` (R7, R293). -/
  big : 8 ≤ c.buffSize
  /-- `N ≥ 1`. -/
  points : 1 ≤ c.nPoints
  /-- `DTMF_THRESH ≥ 1`. -/
  thresh : 1 ≤ c.dtmfThresh
  /-- The A-law encode table has 65536 entries. -/
  encA : c.encA.size = 65536
  /-- The mu-law encode table has 65536 entries. -/
  encU : c.encU.size = 65536
  /-- `1 ≤ NCHAN ≤ 4096`. -/
  chan : 1 ≤ c.nChan ∧ c.nChan ≤ 4096
  /-- `NCONF ≥ 1`. -/
  conf : 1 ≤ c.nConf
  /-- `3 ≤ MAX_MEMBERS ≤ 32767`. -/
  members : 3 ≤ c.maxMembers ∧ c.maxMembers ≤ 32767
  /-- `DIGITS_CAP ≥ 1`. -/
  digits : 1 ≤ c.digitsCap

end Sys2Proof
end

