-- ==== Sys2Proof/Machine/Tables.lean ====
section
/-! DEFINITION. The spec's default values of the parameters (93_implementation_defined.md part 2): the G.711 tables of
its item G1, the coefficients of 00_scope.md R10, the sizes. PRESUMED by the spec itself ("from general knowledge, not in
source") for the tables and the formula of the coefficients: log 6 and log 7. -/

namespace Sys2Proof

/-- A-law expansion (G1, the formula for `dec_A`). -/
def g711DecodeA (b : Nat) : Int :=
  let a := b ^^^ 0x55
  let t := (a &&& 0x0F) <<< 4
  let seg := (a &&& 0x70) >>> 4
  let m := if seg = 0 then t + 8 else if seg = 1 then t + 0x108 else (t + 0x108) <<< (seg - 1)
  if a &&& 0x80 = 0 then -(m : Int) else m

/-- Mu-law expansion (G1, the formula for `dec_U`). -/
def g711DecodeU (b : Nat) : Int :=
  let u := 255 - b
  let t := (((u &&& 0x0F) <<< 3) + 0x84) <<< ((u &&& 0x70) >>> 4)
  if u &&& 0x80 = 0 then (t : Int) - 0x84 else 0x84 - (t : Int)

/-- A 256-entry decode table from a formula. -/
def decodeTable (f : Nat → Int) : Vector Sample 256 :=
  ⟨⟨(List.range 256).map fun b => BitVec.ofInt 16 (f b)⟩, by simp⟩

/-- The A-law encode table of G1 (nearest level, ties to the larger byte), as runs over the index 0 to 65535: the
spec's definition evaluated at every index (log 6). -/
def g711EncodeA : RunTable :=
  [(17, 0xD5#8), (15, 0xD4#8), (17, 0xD7#8), (16, 0xD6#8), (16, 0xD1#8), (15, 0xD0#8), (17, 0xD3#8), (15, 0xD2#8),
   (17, 0xDD#8), (15, 0xDC#8), (17, 0xDF#8), (16, 0xDE#8), (16, 0xD9#8), (15, 0xD8#8), (17, 0xDB#8), (16, 0xDA#8)] ++
  [(16, 0xC5#8), (15, 0xC4#8), (17, 0xC7#8), (16, 0xC6#8), (16, 0xC1#8), (15, 0xC0#8), (17, 0xC3#8), (15, 0xC2#8),
   (17, 0xCD#8), (15, 0xCC#8), (17, 0xCF#8), (16, 0xCE#8), (16, 0xC9#8), (15, 0xC8#8), (17, 0xCB#8), (19, 0xCA#8)] ++
  [(29, 0xF5#8), (31, 0xF4#8), (33, 0xF7#8), (32, 0xF6#8), (32, 0xF1#8), (31, 0xF0#8), (33, 0xF3#8), (31, 0xF2#8),
   (33, 0xFD#8), (31, 0xFC#8), (33, 0xFF#8), (32, 0xFE#8), (32, 0xF9#8), (31, 0xF8#8), (33, 0xFB#8), (40, 0xFA#8)] ++
  [(56, 0xE5#8), (63, 0xE4#8), (65, 0xE7#8), (64, 0xE6#8), (64, 0xE1#8), (63, 0xE0#8), (65, 0xE3#8), (63, 0xE2#8),
   (65, 0xED#8), (63, 0xEC#8), (65, 0xEF#8), (64, 0xEE#8), (64, 0xE9#8), (63, 0xE8#8), (65, 0xEB#8), (80, 0xEA#8)] ++
  [(112, 0x95#8), (127, 0x94#8), (129, 0x97#8), (128, 0x96#8), (128, 0x91#8), (127, 0x90#8), (129, 0x93#8), (127, 0x92#8),
   (129, 0x9D#8), (127, 0x9C#8), (129, 0x9F#8), (128, 0x9E#8), (128, 0x99#8), (127, 0x98#8), (129, 0x9B#8), (160, 0x9A#8)] ++
  [(224, 0x85#8), (255, 0x84#8), (257, 0x87#8), (256, 0x86#8), (256, 0x81#8), (255, 0x80#8), (257, 0x83#8), (255, 0x82#8),
   (257, 0x8D#8), (255, 0x8C#8), (257, 0x8F#8), (256, 0x8E#8), (256, 0x89#8), (255, 0x88#8), (257, 0x8B#8), (319, 0x8A#8)] ++
  [(449, 0xB5#8), (511, 0xB4#8), (513, 0xB7#8), (512, 0xB6#8), (512, 0xB1#8), (511, 0xB0#8), (513, 0xB3#8), (511, 0xB2#8),
   (513, 0xBD#8), (511, 0xBC#8), (513, 0xBF#8), (512, 0xBE#8), (512, 0xB9#8), (511, 0xB8#8), (513, 0xBB#8), (640, 0xBA#8)] ++
  [(896, 0xA5#8), (1023, 0xA4#8), (1025, 0xA7#8), (1024, 0xA6#8), (1024, 0xA1#8), (1023, 0xA0#8), (1025, 0xA3#8), (1023, 0xA2#8),
   (1025, 0xAD#8), (1023, 0xAC#8), (1025, 0xAF#8), (1024, 0xAE#8), (1024, 0xA9#8), (1023, 0xA8#8), (1025, 0xAB#8), (1023, 0xAA#8)] ++
  [(1024, 0x2A#8), (1025, 0x2B#8), (1023, 0x28#8), (1024, 0x29#8), (1024, 0x2E#8), (1025, 0x2F#8), (1023, 0x2C#8), (1025, 0x2D#8),
   (1023, 0x22#8), (1025, 0x23#8), (1023, 0x20#8), (1024, 0x21#8), (1024, 0x26#8), (1025, 0x27#8), (1023, 0x24#8), (896, 0x25#8)] ++
  [(640, 0x3A#8), (513, 0x3B#8), (511, 0x38#8), (512, 0x39#8), (512, 0x3E#8), (513, 0x3F#8), (511, 0x3C#8), (513, 0x3D#8),
   (511, 0x32#8), (513, 0x33#8), (511, 0x30#8), (512, 0x31#8), (512, 0x36#8), (513, 0x37#8), (511, 0x34#8), (449, 0x35#8)] ++
  [(319, 0x0A#8), (257, 0x0B#8), (255, 0x08#8), (256, 0x09#8), (256, 0x0E#8), (257, 0x0F#8), (255, 0x0C#8), (257, 0x0D#8),
   (255, 0x02#8), (257, 0x03#8), (255, 0x00#8), (256, 0x01#8), (256, 0x06#8), (257, 0x07#8), (255, 0x04#8), (224, 0x05#8)] ++
  [(160, 0x1A#8), (129, 0x1B#8), (127, 0x18#8), (128, 0x19#8), (128, 0x1E#8), (129, 0x1F#8), (127, 0x1C#8), (129, 0x1D#8),
   (127, 0x12#8), (129, 0x13#8), (127, 0x10#8), (128, 0x11#8), (128, 0x16#8), (129, 0x17#8), (127, 0x14#8), (112, 0x15#8)] ++
  [(80, 0x6A#8), (65, 0x6B#8), (63, 0x68#8), (64, 0x69#8), (64, 0x6E#8), (65, 0x6F#8), (63, 0x6C#8), (65, 0x6D#8),
   (63, 0x62#8), (65, 0x63#8), (63, 0x60#8), (64, 0x61#8), (64, 0x66#8), (65, 0x67#8), (63, 0x64#8), (56, 0x65#8)] ++
  [(40, 0x7A#8), (33, 0x7B#8), (31, 0x78#8), (32, 0x79#8), (32, 0x7E#8), (33, 0x7F#8), (31, 0x7C#8), (33, 0x7D#8),
   (31, 0x72#8), (33, 0x73#8), (31, 0x70#8), (32, 0x71#8), (32, 0x76#8), (33, 0x77#8), (31, 0x74#8), (29, 0x75#8)] ++
  [(19, 0x4A#8), (17, 0x4B#8), (15, 0x48#8), (16, 0x49#8), (16, 0x4E#8), (17, 0x4F#8), (15, 0x4C#8), (17, 0x4D#8),
   (15, 0x42#8), (17, 0x43#8), (15, 0x40#8), (16, 0x41#8), (16, 0x46#8), (17, 0x47#8), (15, 0x44#8), (16, 0x45#8)] ++
  [(16, 0x5A#8), (17, 0x5B#8), (15, 0x58#8), (16, 0x59#8), (16, 0x5E#8), (17, 0x5F#8), (15, 0x5C#8), (17, 0x5D#8),
   (15, 0x52#8), (17, 0x53#8), (15, 0x50#8), (16, 0x51#8), (16, 0x56#8), (17, 0x57#8), (15, 0x54#8), (16, 0x55#8)]

/-- The mu-law encode table of G1, as runs over the index 0 to 65535 (log 6). -/
def g711EncodeU : RunTable :=
  [(5, 0xFF#8), (8, 0xFE#8), (8, 0xFD#8), (8, 0xFC#8), (8, 0xFB#8), (8, 0xFA#8), (8, 0xF9#8), (8, 0xF8#8),
   (8, 0xF7#8), (8, 0xF6#8), (8, 0xF5#8), (8, 0xF4#8), (8, 0xF3#8), (8, 0xF2#8), (8, 0xF1#8), (10, 0xF0#8)] ++
  [(14, 0xEF#8), (16, 0xEE#8), (16, 0xED#8), (16, 0xEC#8), (16, 0xEB#8), (16, 0xEA#8), (16, 0xE9#8), (16, 0xE8#8),
   (16, 0xE7#8), (16, 0xE6#8), (16, 0xE5#8), (16, 0xE4#8), (16, 0xE3#8), (16, 0xE2#8), (16, 0xE1#8), (20, 0xE0#8)] ++
  [(28, 0xDF#8), (32, 0xDE#8), (32, 0xDD#8), (32, 0xDC#8), (32, 0xDB#8), (32, 0xDA#8), (32, 0xD9#8), (32, 0xD8#8),
   (32, 0xD7#8), (32, 0xD6#8), (32, 0xD5#8), (32, 0xD4#8), (32, 0xD3#8), (32, 0xD2#8), (32, 0xD1#8), (40, 0xD0#8)] ++
  [(56, 0xCF#8), (64, 0xCE#8), (64, 0xCD#8), (64, 0xCC#8), (64, 0xCB#8), (64, 0xCA#8), (64, 0xC9#8), (64, 0xC8#8),
   (64, 0xC7#8), (64, 0xC6#8), (64, 0xC5#8), (64, 0xC4#8), (64, 0xC3#8), (64, 0xC2#8), (64, 0xC1#8), (80, 0xC0#8)] ++
  [(112, 0xBF#8), (128, 0xBE#8), (128, 0xBD#8), (128, 0xBC#8), (128, 0xBB#8), (128, 0xBA#8), (128, 0xB9#8), (128, 0xB8#8),
   (128, 0xB7#8), (128, 0xB6#8), (128, 0xB5#8), (128, 0xB4#8), (128, 0xB3#8), (128, 0xB2#8), (128, 0xB1#8), (160, 0xB0#8)] ++
  [(224, 0xAF#8), (256, 0xAE#8), (256, 0xAD#8), (256, 0xAC#8), (256, 0xAB#8), (256, 0xAA#8), (256, 0xA9#8), (256, 0xA8#8),
   (256, 0xA7#8), (256, 0xA6#8), (256, 0xA5#8), (256, 0xA4#8), (256, 0xA3#8), (256, 0xA2#8), (256, 0xA1#8), (320, 0xA0#8)] ++
  [(448, 0x9F#8), (512, 0x9E#8), (512, 0x9D#8), (512, 0x9C#8), (512, 0x9B#8), (512, 0x9A#8), (512, 0x99#8), (512, 0x98#8),
   (512, 0x97#8), (512, 0x96#8), (512, 0x95#8), (512, 0x94#8), (512, 0x93#8), (512, 0x92#8), (512, 0x91#8), (640, 0x90#8)] ++
  [(896, 0x8F#8), (1024, 0x8E#8), (1024, 0x8D#8), (1024, 0x8C#8), (1024, 0x8B#8), (1024, 0x8A#8), (1024, 0x89#8), (1024, 0x88#8),
   (1024, 0x87#8), (1024, 0x86#8), (1024, 0x85#8), (1024, 0x84#8), (1024, 0x83#8), (1024, 0x82#8), (1024, 0x81#8), (1155, 0x80#8)] ++
  [(1156, 0x00#8), (1024, 0x01#8), (1024, 0x02#8), (1024, 0x03#8), (1024, 0x04#8), (1024, 0x05#8), (1024, 0x06#8), (1024, 0x07#8),
   (1024, 0x08#8), (1024, 0x09#8), (1024, 0x0A#8), (1024, 0x0B#8), (1024, 0x0C#8), (1024, 0x0D#8), (1024, 0x0E#8), (896, 0x0F#8)] ++
  [(640, 0x10#8), (512, 0x11#8), (512, 0x12#8), (512, 0x13#8), (512, 0x14#8), (512, 0x15#8), (512, 0x16#8), (512, 0x17#8),
   (512, 0x18#8), (512, 0x19#8), (512, 0x1A#8), (512, 0x1B#8), (512, 0x1C#8), (512, 0x1D#8), (512, 0x1E#8), (448, 0x1F#8)] ++
  [(320, 0x20#8), (256, 0x21#8), (256, 0x22#8), (256, 0x23#8), (256, 0x24#8), (256, 0x25#8), (256, 0x26#8), (256, 0x27#8),
   (256, 0x28#8), (256, 0x29#8), (256, 0x2A#8), (256, 0x2B#8), (256, 0x2C#8), (256, 0x2D#8), (256, 0x2E#8), (224, 0x2F#8)] ++
  [(160, 0x30#8), (128, 0x31#8), (128, 0x32#8), (128, 0x33#8), (128, 0x34#8), (128, 0x35#8), (128, 0x36#8), (128, 0x37#8),
   (128, 0x38#8), (128, 0x39#8), (128, 0x3A#8), (128, 0x3B#8), (128, 0x3C#8), (128, 0x3D#8), (128, 0x3E#8), (112, 0x3F#8)] ++
  [(80, 0x40#8), (64, 0x41#8), (64, 0x42#8), (64, 0x43#8), (64, 0x44#8), (64, 0x45#8), (64, 0x46#8), (64, 0x47#8),
   (64, 0x48#8), (64, 0x49#8), (64, 0x4A#8), (64, 0x4B#8), (64, 0x4C#8), (64, 0x4D#8), (64, 0x4E#8), (56, 0x4F#8)] ++
  [(40, 0x50#8), (32, 0x51#8), (32, 0x52#8), (32, 0x53#8), (32, 0x54#8), (32, 0x55#8), (32, 0x56#8), (32, 0x57#8),
   (32, 0x58#8), (32, 0x59#8), (32, 0x5A#8), (32, 0x5B#8), (32, 0x5C#8), (32, 0x5D#8), (32, 0x5E#8), (28, 0x5F#8)] ++
  [(20, 0x60#8), (16, 0x61#8), (16, 0x62#8), (16, 0x63#8), (16, 0x64#8), (16, 0x65#8), (16, 0x66#8), (16, 0x67#8),
   (16, 0x68#8), (16, 0x69#8), (16, 0x6A#8), (16, 0x6B#8), (16, 0x6C#8), (16, 0x6D#8), (16, 0x6E#8), (14, 0x6F#8)] ++
  [(10, 0x70#8), (8, 0x71#8), (8, 0x72#8), (8, 0x73#8), (8, 0x74#8), (8, 0x75#8), (8, 0x76#8), (8, 0x77#8),
   (8, 0x78#8), (8, 0x79#8), (8, 0x7A#8), (8, 0x7B#8), (8, 0x7C#8), (8, 0x7D#8), (8, 0x7E#8), (4, 0xFF#8)]

/-- `COEF`, the default of R10 (D24). -/
def defaultCoef : Vector (BitVec 16) 8 :=
  #v[55959#16, 53913#16, 51403#16, 48438#16, 38145#16, 32649#16, 26169#16, 18630#16]

/-- The parameters with the default values of 93_implementation_defined.md part 2. -/
def Config.standard : Config where
  buffSize := 2048
  nPoints := 102
  dtmfThresh := 200000
  coef := defaultCoef
  decA := decodeTable g711DecodeA
  decU := decodeTable g711DecodeU
  encA := g711EncodeA
  encU := g711EncodeU
  silA := 0xD5#8
  silU := 0xFF#8
  nChan := 8
  nConf := 8
  maxMembers := 8
  digitsCap := 15

end Sys2Proof
end

