-- ==== Sys2Proof/Machine/State.lean ====
section
/-! DEFINITION. The state of the block (10_state.md R20 to R39) as plain data, its power-on value (R45), the responses
it gives (30_encoding.md R88 to R90), and the reasons a step can stop. -/

namespace Sys2Proof.Machine

/-- An array memory of the block (20_memory.md R60): the value it was last filled with (CH_INIT, add and create fill a
whole memory, R74; DTMF_INIT fills the DTMF buffer, R48), and the elements that differ from it as (index, element)
pairs, indices strictly rising. An index not listed reads as `fill`. A byte memory's `cells` is a list of `Host.Cell`.
Log 4. -/
structure Mem (α : Type) where
  /-- What an unlisted index reads as. -/
  fill : α
  /-- The elements that differ from `fill`, by index. -/
  cells : List (Nat × α)
  deriving DecidableEq, Repr

/-- The decoder state of one slot (R37, R38). `digits` is not stored (R39). -/
structure Dtmf where
  /-- `buffer[DTMF_NPOINTS]`, signed 16-bit samples. -/
  buffer : Mem Sample
  /-- `size`, the fill level. -/
  size : Nat
  /-- `last_what`, the last frame's decision, 0 for no tone. -/
  lastWhat : Byte
  /-- `last_digit`, the last emitted digit, 0 if none. -/
  lastDigit : Byte
  /-- `count`, a 2-bit counter that stops at 3. -/
  count : BitVec 2
  deriving DecidableEq, Repr

/-- A channel slot (R24 to R32). -/
structure Channel where
  /-- 1 after CH_INIT (R24). -/
  valid : Bool
  /-- Encoding (R25). -/
  law : Law
  /-- `rx_buff`, encoded domain (R26). -/
  rxBuff : Mem Byte
  /-- `tx_buff`, encoded domain (R26). -/
  txBuff : Mem Byte
  /-- `W_rx` (R27). -/
  wRx : Nat
  /-- `R_rx` (R27). -/
  rRx : Nat
  /-- `W_tx` (R28). -/
  wTx : Nat
  /-- `R_tx` (R28). -/
  rTx : Nat
  /-- `largest` (R29). -/
  largest : Nat
  /-- `echo` (R30). -/
  echo : Bool
  /-- `tx_mix` (R30). -/
  txMix : Bool
  /-- `active` (R30). -/
  active : Bool
  /-- `conf_id`, the target conference, 0 for none (R31). -/
  confId : ConfId
  /-- `hw_id`, the hardware instance, 0 for pure software (R31). -/
  hwId : HwId
  /-- `conference`, the id of the conference the channel is in, or none (R32). -/
  conference : Option ConfId
  /-- `dtmf_valid` (R32). -/
  dtmfValid : Bool
  /-- `dtmf_state` (R32, R37). -/
  dtmf : Dtmf
  deriving DecidableEq, Repr

/-- `solution` (R36). -/
inductive Solution
  /-- `Software`. -/
  | software
  /-- `HWCrossconnect`. -/
  | hwCrossconnect
  /-- `HWConference(unit)`, unit 1 to 8. -/
  | hwConference (unit : Nat)
  deriving DecidableEq, Repr

/-- A conference record (R33 to R36). -/
structure Conf where
  /-- `id`, nonzero and unique (R33). -/
  id : ConfId
  /-- `members`, in order of joining (R33). -/
  members : List ChIx
  /-- `conf_buff`, signed 32-bit cells (R34). -/
  confBuff : Mem Word
  /-- `W_min` (R35). -/
  wMin : Nat
  /-- `W_max` (R35). -/
  wMax : Nat
  /-- `largest` (R35). -/
  largest : Nat
  /-- `solution` (R36). -/
  solution : Solution
  /-- `hw_id` (R36). -/
  hwId : HwId
  deriving DecidableEq, Repr

/-- The statuses a response can carry (60_exceptions.md R270). -/
inductive Status
  | ok
  | invalidArgument
  | notFound
  | resourceExhausted
  | busy
  | internal
  deriving DecidableEq, Repr

/-- The events of a RECONFIGURE response (30_encoding.md R90). -/
inductive Event
  /-- `hw_conference(channel, unit_or_zero)`. -/
  | hwConference (ch : ChIx) (unitOrZero : Nat)
  /-- `hw_crossconnect(ch_a, ch_b, enable)`. -/
  | hwCrossconnect (a : ChIx) (b : ChIx) (enable : Bool)
  deriving DecidableEq, Repr

/-- A response (30_encoding.md R88, R89). `plen_out` and `nev` are the lengths of `payload` and `events`. -/
structure Response where
  /-- The opcode of the command, copied. -/
  op : BitVec 4
  /-- The `ch` of the command, copied. -/
  ch : ChIx
  /-- The status (R270). -/
  status : Status
  /-- Flag `DROP` (R89). -/
  drop : Bool
  /-- Flag `TRUNC` (R89). -/
  trunc : Bool
  /-- Flag `OVF_WARN` (R89). -/
  ovfWarn : Bool
  /-- Response word 1 (R88). -/
  tag : Word
  /-- The outbound frame or the digit string. -/
  payload : List Byte
  /-- The events, in order. -/
  events : List Event
  deriving DecidableEq, Repr

/-- The machine's state: the block's (`chan`, `confs`: R20), and the model's own `cfg` (log 1), `input` and
`responses` (log 3). -/
structure State where
  /-- The configuration parameters; no step changes them (R40). -/
  cfg : Config
  /-- `chan[0 .. NCHAN−1]` (R20). -/
  chan : List Channel
  /-- The conference registry, in creation order (R20). -/
  confs : List Conf
  /-- The presented and not yet consumed bytes of the command stream (R22, R93). -/
  input : List Byte
  /-- The responses given so far, oldest first (R88). -/
  responses : List Response
  deriving DecidableEq, Repr

/-- Why the machine stops. The block itself never stops (70_reset_and_hazards.md R300: a command always completes); these
three are raised only in states that break an invariant the rules lean on, which no run reaches, where a rule names a
thing that does not exist. All three are safe. Log 8. -/
inductive Fault
  /-- RECEIVE, SEND, SEND_TONE and RECONFIGURE raise it: the channel's `conference` is the id of no record of `confs`
  (against R32, R43). Safe. -/
  | danglingConference
  /-- SEND raises it: a two-member conference lists no member other than the channel (against R43, R200). Safe. -/
  | noPeer
  /-- RECONFIGURE raises it: a conference in `HWCrossconnect` had fewer than two members before the change (against
  R151). Safe. -/
  | noPair
  deriving DecidableEq, Repr

/-- Why an instruction is refused. -/
inductive Refusal
  /-- `exec` raises it for an instruction with no meaning yet. Safe. No arm of `exec` raises it. -/
  | notModelled (mnemonic : String)
  deriving DecidableEq, Repr

/-- A memory filled with one value. -/
def Mem.filled {α : Type} (v : α) : Mem α := ⟨v, []⟩

/-- A DTMF state as DTMF_INIT leaves it (R48). -/
def Dtmf.fresh : Dtmf := ⟨Mem.filled 0, 0, 0, 0, 0⟩

/-- A slot before its first CH_INIT (R45): `valid = 0` and `dtmf_valid = 0`; every other field is unspecified and
unreachable, and holds the value log 2 names (DESIGN CHOICE, unsafe). -/
def Channel.powerOn : Channel where
  valid := false
  law := .a
  rxBuff := Mem.filled 0
  txBuff := Mem.filled 0
  wRx := 0
  rRx := 0
  wTx := 0
  rTx := 0
  largest := 0
  echo := false
  txMix := false
  active := false
  confId := 0
  hwId := 0
  conference := none
  dtmfValid := false
  dtmf := Dtmf.fresh

/-- The power-on state of a block with the given parameters (R45): no conferences, every slot invalid; no command
presented, no response given. -/
def State.resetWith (c : Config) : State where
  cfg := c
  chan := List.replicate c.nChan Channel.powerOn
  confs := []
  input := []
  responses := []

/-- The machine right after reset (R45), with the spec's default parameters (93_implementation_defined.md part 2). -/
def State.reset : State := State.resetWith Config.standard

end Sys2Proof.Machine
end

