-- ==== Sys2Proof/Machine/Flags.lean ====
section
/-! DEFINITION. The result side of a command: status codes (60_exceptions.md R270), response flags (30_encoding.md R89),
event words (R90) and the layout of a response (R88). -/

namespace Sys2Proof.Machine

/-- The 4-bit code of a status (R270). -/
def Status.code : Status → BitVec 4
  | .ok => 0
  | .invalidArgument => 1
  | .notFound => 2
  | .resourceExhausted => 3
  | .busy => 4
  | .internal => 5

/-- A soft status is the block's normal overload behaviour (R270, R276). -/
def Status.soft : Status → Bool
  | .ok => false
  | .invalidArgument => false
  | .notFound => false
  | .resourceExhausted => false
  | .busy => true
  | .internal => false

/-- The `flags` field, word 0 bits 11:8: `DROP` in bit 8, `TRUNC` in bit 9, `OVF_WARN` in bit 10, bit 11 zero (R89). -/
def Response.flags (r : Response) : BitVec 4 :=
  0#1 ++ bitField 1 r.ovfWarn ++ bitField 1 r.trunc ++ bitField 1 r.drop

/-- Response word 0 (R88). -/
def Response.word0 (r : Response) : Word := r.op ++ r.ch ++ 0#4 ++ r.flags ++ 0#4 ++ r.status.code

/-- Response word 2, `plen_out` (R88). -/
def Response.word2 (r : Response) : Word := BitVec.ofNat 32 r.payload.length

/-- Response word 3, `nev` (R88). -/
def Response.word3 (r : Response) : Word := BitVec.ofNat 32 r.events.length

/-- An event word (R90). -/
def Event.word : Event → Word
  | .hwConference ch u => 1#4 ++ ch ++ 0#12 ++ BitVec.ofNat 4 u
  | .hwCrossconnect a b enable => 2#4 ++ a ++ b ++ 0#3 ++ bitField 1 enable

/-- A response as the bytes the host reads: four words, the payload, the event words, little-endian (R88, R66). -/
def Response.bytes (r : Response) : List Byte :=
  bytesOfWord r.word0 ++ bytesOfWord r.tag ++ bytesOfWord r.word2 ++ bytesOfWord r.word3 ++ r.payload ++
    r.events.flatMap (fun e => bytesOfWord e.word)

/-- The response of a command that raises `status` (60_exceptions.md R271): no frame, no digits; response word 1 is 0
(log 5). -/
def Response.raised (op : BitVec 4) (ch : ChIx) (status : Status) : Response where
  op := op
  ch := ch
  status := status
  drop := false
  trunc := false
  ovfWarn := false
  tag := 0
  payload := []
  events := []

/-- The response of a command that completes with nothing to return. -/
def Response.okay (op : BitVec 4) (ch : ChIx) : Response := Response.raised op ch .ok

/-- `Busy` with `DROP`: RECEIVE dropped the frame (R89, R171, R176). -/
def Response.dropped (ch : ChIx) : Response := { Response.raised opReceive ch .busy with drop := true }

/-- `Busy` with `TRUNC`: TRANSMIT dropped the tail of the frame (R89, R224). -/
def Response.truncated (ch : ChIx) : Response := { Response.raised opTransmit ch .busy with trunc := true }

/-- The response of SEND and SEND_TONE: the tag and the outbound frame (R88, R207). -/
def Response.frame (op : BitVec 4) (ch : ChIx) (tag : Word) (out : List Byte) : Response :=
  { Response.okay op ch with tag := tag, payload := out }

/-- The response of DTMF_DECODE: the digits and `OVF_WARN` (R88, R231). -/
def Response.digits (ch : ChIx) (digits : List Byte) (warn : Bool) : Response :=
  { Response.okay opDtmfDecode ch with payload := digits, ovfWarn := warn }

/-- The response of RECONFIGURE: the status and the events emitted (R156, R271). -/
def Response.reconfigured (ch : ChIx) (status : Status) (events : List Event) : Response :=
  { Response.raised opReconfigure ch status with events := events }

end Sys2Proof.Machine
end

