-- ==== Sys2Proof/Machine/Operands.lean ====
section
/-! DEFINITION. The primitive functions every command is written with (40_ring_companding.md): ring indices, companding
lookups, saturation. -/

namespace Sys2Proof

/-! ### Derived sizes (00_scope.md R7) -/

/-- `BUFF_HALF = BUFF_SIZE / 2`. -/
def Config.half (c : Config) : Nat := c.buffSize / 2

/-- `MAXLEN = BUFF_HALF div 4`, the largest receive frame (R171). -/
def Config.maxLen (c : Config) : Nat := c.half / 4

namespace Machine

/-! ### Ring indices (R100 to R103) -/

/-- `adv(i, n) = (i + n) mod S` (R100); `n` may be negative. -/
def adv (S : Nat) (i : Nat) (n : Int) : Nat := (((i : Int) + n) % (S : Int)).toNat

/-- `dist(a, b) = (a − b) mod S`, the forward distance from `b` to `a` (R101). -/
def ringDist (S : Nat) (a b : Nat) : Nat := (((a : Int) - (b : Int)) % (S : Int)).toNat

/-- `ahead(a, b)`: the distance from `b` to `a` is less than `BUFF_HALF` (R102). -/
def ahead (S : Nat) (a b : Nat) : Bool := ringDist S a b < S / 2

/-- `behind(a, b) = not ahead(a, b)` (R103). -/
def behind (S : Nat) (a b : Nat) : Bool := !ahead S a b

/-- `later(a, b) = a` if `ahead(a, b)`, else `b` (R103). -/
def later (S : Nat) (a b : Nat) : Nat := if ahead S a b then a else b

/-! ### Integers (00_scope.md R16) -/

/-- `sat16(v) = max(−32768, min(32767, v))`. -/
def sat16 (v : Int) : Int := max (-32768) (min 32767 v)

/-- `wrap32(v)` as a 32-bit cell: the low 32 bits of `v`. -/
def wrap32 (v : Int) : Word := BitVec.ofInt 32 v

/-! ### Companding (R104 to R109) -/

/-- `dec_L(b)`, the decompander lookup (R104). -/
def decLaw (c : Config) : Law → Byte → Int
  | .a, b => (c.decA[b.toNat]'b.isLt).toInt
  | .u, b => (c.decU[b.toNat]'b.isLt).toInt

/-- The entry of a run table at an index; 0x00 beyond its end, which no index of a valid table is. -/
def runLookup : RunTable → Nat → Byte
  | [], _ => 0
  | (n, b) :: t, i => if i < n then b else runLookup t (i - n)

/-- `zext_16(v)`: the 16-bit two's-complement pattern of `v` as an index (R105, D14). -/
def sampleIndex (v : Int) : Nat := (BitVec.ofInt 16 v).toNat

/-- `enc_L(v)`, the compander lookup (R105). -/
def encLaw (c : Config) : Law → Int → Byte
  | .a, v => runLookup c.encA (sampleIndex v)
  | .u, v => runLookup c.encU (sampleIndex v)

/-- `sil_L`, the silence byte (R106). -/
def silLaw (c : Config) : Law → Byte
  | .a => c.silA
  | .u => c.silU

/-- `norm(F, T, b) = enc_T(sat16(dec_F(b)))` (R108). -/
def normLaw (c : Config) (f t : Law) (b : Byte) : Byte := encLaw c t (sat16 (decLaw c f b))

/-- `mix_L(t_1, …, t_n) = enc_L(sat16(t_1 + … + t_n))`: the sum is formed completely, then saturated (R109, R205). -/
def mixLaw (c : Config) (l : Law) (terms : List Int) : Byte := encLaw c l (sat16 terms.sum)

end Machine

end Sys2Proof
end

