-- ==== Sys2Proof/Machine/Ops.lean ====
section
/-! DEFINITION. The named operations over the memories, the slots, the registry and the response stream. Raising a
status is this block's only exception (60_exceptions.md R271, R277): one shared operation, `State.raise`. -/

namespace Sys2Proof.Machine

/-! ### Memories (20_memory.md R60, R62) -/

/-- The element at index `i` among listed cells, `d` where unlisted. -/
def cellsRead {α : Type} (d : α) : List (Nat × α) → Nat → α
  | [], _ => d
  | (j, v) :: t, i => if i = j then v else cellsRead d t i

/-- Put `v` at index `i` among cells in rising order; an element equal to `d` is not listed. -/
def cellsWrite {α : Type} [DecidableEq α] (d : α) : List (Nat × α) → Nat → α → List (Nat × α)
  | [], i, v => if v = d then [] else [(i, v)]
  | (j, w) :: t, i, v =>
    if i < j then (if v = d then (j, w) :: t else (i, v) :: (j, w) :: t)
    else if i = j then (if v = d then t else (i, v) :: t)
    else (j, w) :: cellsWrite d t i v

/-- The element at index `i`. -/
def Mem.read {α : Type} (m : Mem α) (i : Nat) : α := cellsRead m.fill m.cells i

/-- Write one element. -/
def Mem.write {α : Type} [DecidableEq α] (m : Mem α) (i : Nat) (v : α) : Mem α :=
  { m with cells := cellsWrite m.fill m.cells i v }

/-- The canonical form of a memory of `n` elements: indices strictly rising and below `n`, no listed element equal to
what an unlisted index reads as (log 4). -/
abbrev Mem.wf {α : Type} (n : Nat) (m : Mem α) : Prop :=
  m.cells.Pairwise (fun x y => x.1 < y.1) ∧ ∀ p ∈ m.cells, p.1 < n ∧ p.2 ≠ m.fill

/-- `MemRead(buf, i, n)` (R17, R62): the `n` elements from ring index `i`, wrapping. -/
def ringRead {α : Type} (S : Nat) (m : Mem α) (i n : Nat) : List α :=
  (List.range n).map fun (k : Nat) => m.read (adv S i k)

/-- `MemWrite(buf, i, n, v)` (R17, R62): the elements of `v` from ring index `i`, wrapping. -/
def ringWrite {α : Type} [DecidableEq α] (S : Nat) (m : Mem α) (i : Nat) : List α → Mem α
  | [] => m
  | v :: vs => ringWrite S (m.write (adv S i 0) v) (adv S i 1) vs

/-! ### Channel slots (10_state.md R24) -/

/-- `chan[ch]`. An index that is no slot reads as a slot that was never initialised (log 9). -/
def State.slot (s : State) (ch : ChIx) : Channel := s.chan.getD ch.toNat Channel.powerOn

/-- Replace the slot `ch`. -/
def State.setSlot (s : State) (ch : ChIx) (k : Channel) : State := { s with chan := s.chan.set ch.toNat k }

/-- The slot check of every command but CH_INIT: `ch < NCHAN` and `valid = 1` (R24, R274). -/
def State.usable (s : State) (ch : ChIx) : Bool := decide (ch.toNat < s.cfg.nChan) && (s.slot ch).valid

/-- A slot right after CH_INIT (R46). -/
def Channel.fresh (c : Config) (law : Law) : Channel where
  valid := true
  law := law
  rxBuff := Mem.filled (silLaw c law)
  txBuff := Mem.filled (silLaw c law)
  wRx := 0
  rRx := 0
  wTx := 0
  rTx := 0
  largest := 0
  echo := false
  txMix := false
  active := false
  confId := 0
  hwId := 0
  conference := none
  dtmfValid := true
  dtmf := Dtmf.fresh

/-! ### Conference records (10_state.md R33) -/

/-- `find(id)` (41_registry_membership.md R121). -/
def State.find (s : State) (id : ConfId) : Option Conf := s.confs.find? fun k => k.id == id

/-- Replace the record that has `k`'s id. -/
def State.setConf (s : State) (k : Conf) : State :=
  { s with confs := s.confs.map fun o => if o.id = k.id then k else o }

/-- A record as create makes it (R47, R122). -/
def Conf.fresh (id : ConfId) : Conf where
  id := id
  members := []
  confBuff := Mem.filled 0
  wMin := 0
  wMax := 0
  largest := 0
  solution := .software
  hwId := 0

/-! ### Responses and raises (30_encoding.md R88, 60_exceptions.md R271) -/

/-- Give one response. -/
def State.respond (s : State) (r : Response) : State := { s with responses := s.responses ++ [r] }

/-- `raise status` (R271): the command ends, its response carries the status, the writes made so far stand. No state is
saved and control goes nowhere (R277); there is nothing to return from (R278). -/
def State.raise (s : State) (op : BitVec 4) (ch : ChIx) (status : Status) : State :=
  s.respond (Response.raised op ch status)

/-- `return OK` with nothing to return. -/
def State.okay (s : State) (op : BitVec 4) (ch : ChIx) : State := s.respond (Response.okay op ch)

/-! ### The host's side (00_scope.md R6) -/

/-- What the decoder reads at the head of the command stream (R93). -/
def State.fetched (s : State) : Decoded := decode s.input

/-- The stream after a command: the bytes that are left (R93). -/
def State.consumed (s : State) (rest : List Byte) : State := { s with input := rest }

/-- The host presents bytes at the end of the command stream (R22, R93). -/
def State.present (s : State) (bytes : List Byte) : State := { s with input := s.input ++ bytes }

end Sys2Proof.Machine
end

