-- ==== Sys2Proof/Machine/Registry.lean ====
section
/-! DEFINITION. The micro-operations of RECONFIGURE: find is in Ops; create, destroy (41_registry_membership.md R122,
R123), add (R124, R125), remove (R126), classify (42_reconfigure.md R140 to R144) and dispatch (R147 to R155). -/

namespace Sys2Proof.Machine

/-- `create(id)` (R122): the preconditions in their order, then a fresh record at the end of `confs`. -/
def create (s : State) (id : ConfId) : Except Status State :=
  if id = 0 then .error .invalidArgument
  else if (s.find id).isSome then .error .invalidArgument
  else if s.cfg.nConf ≤ s.confs.length then .error .resourceExhausted
  else .ok { s with confs := s.confs ++ [Conf.fresh id] }

/-- `destroy(conf)` (R123): refuses a record with members. -/
def destroy (s : State) (k : Conf) : Except Status State :=
  if k.members = [] then .ok { s with confs := s.confs.filter fun o => o.id ≠ k.id }
  else .error .internal

/-- The slot after a join (R124): silence in `rx_buff`, both receive indices at the leading edge; R125's last line. -/
def Channel.joined (c : Config) (k : Channel) (conf : Conf) : Channel :=
  { k with
    rxBuff := Mem.filled (silLaw c k.law)
    wRx := conf.wMax
    rRx := conf.wMax
    conference := some conf.id }

/-- The record after a join: the channel at the end of the list (R124), `conf_buff` zeroed when the list has just
reached three members (R125). -/
def Conf.joined (conf : Conf) (ch : ChIx) : Conf :=
  { conf with
    members := conf.members ++ [ch]
    confBuff := if (conf.members ++ [ch]).length = 3 then Mem.filled 0 else conf.confBuff }

/-- `add(ch, conf)` (R124, R125). -/
def addMember (s : State) (ch : ChIx) (conf : Conf) : Except Status State :=
  if (s.slot ch).conference.isSome then .error .invalidArgument
  else if s.cfg.maxMembers ≤ conf.members.length then .error .resourceExhausted
  else .ok ((s.setSlot ch (Channel.joined s.cfg (s.slot ch) conf)).setConf (conf.joined ch))

/-- The record after a leave (R126): the channel deleted, the order of the others kept. -/
def Conf.left (conf : Conf) (ch : ChIx) : Conf := { conf with members := conf.members.erase ch }

/-- `remove(ch)` (R126): `NotFound` unless the channel's conference lists it; nothing else changes (R127). Answers the
record as it is afterwards, too. -/
def removeMember (s : State) (ch : ChIx) : Except Status (State × Conf) :=
  match (s.slot ch).conference with
  | none => .error .notFound
  | some id =>
    match s.find id with
    | none => .error .notFound
    | some conf =>
      if ch ∈ conf.members then
        .ok ((s.setSlot ch { s.slot ch with conference := none }).setConf (conf.left ch), conf.left ch)
      else .error .notFound

/-- The units other conferences hold on hardware instance `h` (R143). -/
def claimed (s : State) (conf : Conf) (h : HwId) : List Nat :=
  s.confs.filterMap fun o =>
    if o.id ≠ conf.id ∧ o.hwId = h then
      match o.solution with
      | .hwConference u => some u
      | _ => none
    else none

/-- The unit of a conference of three or more members on hardware instance `h`: the current unit while it is valid,
else the lowest free one of 1 to 8, else `Software` (R143). -/
def pickUnit (s : State) (conf : Conf) (h : HwId) : Solution :=
  let taken := claimed s conf h
  let free :=
    match (List.range' 1 8).find? fun u => u ∉ taken with
    | some u => Solution.hwConference u
    | none => .software
  match conf.solution with
  | .hwConference u => if conf.hwId = h ∧ u ∉ taken then .hwConference u else free
  | _ => free

/-- `classify(conf)` (R140 to R144), the tests in the order of R144. -/
def classify (s : State) (conf : Conf) : Solution :=
  match conf.members with
  | [] => .software
  | [_] => .software
  | m0 :: rest =>
    let m := m0 :: rest
    let h := (s.slot m0).hwId
    if m.any fun x => (s.slot x).txMix then .software
    else if m.any fun x => (s.slot x).hwId == 0 then .software
    else if m.any fun x => (s.slot x).hwId != h then .software
    else if m.length = 2 then .hwCrossconnect
    else pickUnit s conf h

/-- The hardware instance stored with a solution: the first member's, 0 for `Software` (R147, R149). -/
def solutionHw (s : State) (sol : Solution) (members : List ChIx) : HwId :=
  match sol, members with
  | .software, _ => 0
  | _, m0 :: _ => (s.slot m0).hwId
  | _, [] => 0

/-- The events that leave a solution, for the members before the change (R150, R151). -/
def leaveEvents (old : Solution) (before : List ChIx) : Except Fault (List Event) :=
  match old, before with
  | .software, _ => .ok []
  | .hwConference _, _ => .ok (before.map fun x => .hwConference x 0)
  | .hwCrossconnect, a :: b :: _ => .ok [.hwCrossconnect a b false]
  | .hwCrossconnect, _ => .error .noPair

/-- The events that enter a solution, for the members after the change (R152, R153). -/
def enterEvents (new : Solution) (after : List ChIx) : List Event :=
  match new, after with
  | .software, _ => []
  | .hwConference u, _ => after.map fun x => .hwConference x u
  | .hwCrossconnect, a :: b :: _ => [.hwCrossconnect a b true]
  | .hwCrossconnect, _ => []

/-- Who joined or left in the change a dispatch follows (R147: at most one). -/
inductive Change
  | none
  | added (ch : ChIx)
  | removed (ch : ChIx)
  deriving DecidableEq, Repr

/-- The events of an unchanged pair (R154). -/
def stayEvents (new : Solution) (change : Change) : List Event :=
  match new, change with
  | .hwConference u, .added ch => [.hwConference ch u]
  | .hwConference _, .removed ch => [.hwConference ch 0]
  | _, _ => []

/-- The record with the solution a dispatch stores (R149). -/
def Conf.solved (conf : Conf) (sol : Solution) (hw : HwId) : Conf := { conf with solution := sol, hwId := hw }

/-- `dispatch(conf, before, after, added, removed)` (R147 to R155); `after` is `conf.members`. The disable events come
first, then the enable events (R155). -/
def dispatch (s : State) (conf : Conf) (before : List ChIx) (change : Change) :
    Except Fault (State × List Event) :=
  let new := classify s conf
  let newHw := solutionHw s new conf.members
  let s' := s.setConf (conf.solved new newHw)
  if new = conf.solution ∧ newHw = conf.hwId then .ok (s', stayEvents new change)
  else
    match leaveEvents conf.solution before with
    | .error f => .error f
    | .ok evs => .ok (s', evs ++ enterEvents new conf.members)

end Sys2Proof.Machine
end

