-- ==== Sys2Proof/Machine/Control.lean ====
section
/-! DEFINITION. The control commands CH_INIT (42_reconfigure.md R160), CH_SET (R161) and RECONFIGURE (R156 to R158). -/

namespace Sys2Proof.Machine

/-- `CH_INIT ch, law` (R160). -/
def execChInit (ch : ChIx) (law : Law) (s : State) : Host.Outcome State Fault Refusal :=
  if s.cfg.nChan ≤ ch.toNat then .next (s.raise opChInit ch .invalidArgument)
  else if (s.slot ch).valid ∧ (s.slot ch).conference.isSome then .next (s.raise opChInit ch .invalidArgument)
  else .next ((s.setSlot ch (Channel.fresh s.cfg law)).okay opChInit ch)

/-- The one field CH_SET writes (R161). -/
def Channel.apply (k : Channel) : Setting → Channel
  | .law l => { k with law := l }
  | .echo b => { k with echo := b }
  | .txMix b => { k with txMix := b }
  | .active b => { k with active := b }
  | .confId id => { k with confId := id }
  | .hwId id => { k with hwId := id }

/-- `CH_SET ch, field, value` (R161). -/
def execChSet (ch : ChIx) (setting : Setting) (s : State) : Host.Outcome State Fault Refusal :=
  if s.usable ch then .next ((s.setSlot ch ((s.slot ch).apply setting)).okay opChSet ch)
  else .next (s.raise opChSet ch .invalidArgument)

/-- The conference a channel asks for: `conf_id` if the channel is active and `conf_id` is not 0, else none (R156,
D45). -/
def Channel.want (k : Channel) : Option ConfId := if k.active ∧ k.confId ≠ 0 then some k.confId else none

/-- What a part of RECONFIGURE has come to: the state, the events so far, and the status if it raised one. -/
structure Progress where
  /-- The state, with every write made so far. -/
  state : State
  /-- The events emitted so far. -/
  events : List Event
  /-- The status raised, if one was. -/
  raised : Option Status
  deriving DecidableEq, Repr

/-- The leave half of RECONFIGURE (R156): remove, then destroy the emptied record or dispatch the rest. -/
def leavePart (s : State) (ch : ChIx) (conf : Conf) : Except Fault Progress :=
  match removeMember s ch with
  | .error st => .ok ⟨s, [], some st⟩
  | .ok (s1, conf1) =>
    if conf1.members = [] then
      match destroy s1 conf1 with
      | .error st => .ok ⟨s1, [], some st⟩
      | .ok s2 => .ok ⟨s2, [], none⟩
    else
      match dispatch s1 conf1 conf.members (.removed ch) with
      | .error f => .error f
      | .ok (s2, evs) => .ok ⟨s2, evs, none⟩

/-- Find the requested record or create it (R156). -/
def findOrCreate (s : State) (id : ConfId) : Except Status (State × Conf) :=
  match s.find id with
  | some conf => .ok (s, conf)
  | none =>
    match create s id with
    | .error st => .error st
    | .ok s1 => .ok (s1, Conf.fresh id)

/-- The join half of RECONFIGURE (R156): find or create, add, dispatch. -/
def joinPart (s : State) (ch : ChIx) (id : ConfId) : Except Fault Progress :=
  match findOrCreate s id with
  | .error st => .ok ⟨s, [], some st⟩
  | .ok (s1, conf) =>
    match addMember s1 ch conf with
    | .error st => .ok ⟨s1, [], some st⟩
    | .ok s2 =>
      match dispatch s2 (conf.joined ch) conf.members (.added ch) with
      | .error f => .error f
      | .ok (s3, evs) => .ok ⟨s3, evs, none⟩

/-- Re-classification with the membership unchanged (R156, R157 case 4). -/
def stayPart (s : State) (id : ConfId) : Except Fault Progress :=
  match s.find id with
  | none => .error .danglingConference
  | some conf =>
    match dispatch s conf conf.members .none with
    | .error f => .error f
    | .ok (s1, evs) => .ok ⟨s1, evs, none⟩

/-- The leave decision of RECONFIGURE: leave when the channel is in a conference it does not ask for (R156). -/
def reconfigureLeave (s : State) (ch : ChIx) (want : Option ConfId) : Except Fault Progress :=
  match (s.slot ch).conference with
  | none => .ok ⟨s, [], none⟩
  | some c =>
    if want = some c then .ok ⟨s, [], none⟩
    else
      match s.find c with
      | none => .ok ⟨s, [], some .notFound⟩
      | some conf => leavePart s ch conf

/-- The join decision of RECONFIGURE, after the leave half (R156). -/
def reconfigureJoin (s : State) (ch : ChIx) (want : Option ConfId) : Except Fault Progress :=
  match (s.slot ch).conference, want with
  | none, some id => joinPart s ch id
  | none, none => .ok ⟨s, [], none⟩
  | some c, _ => stayPart s c

/-- Both halves of RECONFIGURE in their order; a status raised in the leave half ends the command (R156, R274). -/
def reconfigure (s : State) (ch : ChIx) (want : Option ConfId) : Except Fault Progress :=
  match reconfigureLeave s ch want with
  | .error f => .error f
  | .ok p =>
    if p.raised.isSome then .ok p
    else
      match reconfigureJoin p.state ch want with
      | .error f => .error f
      | .ok q => .ok ⟨q.state, p.events ++ q.events, q.raised⟩

/-- `RECONFIGURE ch` (R156): the response carries the status raised, or OK, and the events emitted (R158, R271). -/
def execReconfigure (ch : ChIx) (s : State) : Host.Outcome State Fault Refusal :=
  if s.usable ch then
    match reconfigure s ch (s.slot ch).want with
    | .error f => .fault f
    | .ok p => .next (p.state.respond (Response.reconfigured ch (p.raised.getD .ok) p.events))
  else .next (s.raise opReconfigure ch .invalidArgument)

end Sys2Proof.Machine
end

