-- ==== Sys2Proof/Machine/DtmfUnit.lean ====
section
/-! DEFINITION. DTMF_INIT and DTMF_DECODE: the Goertzel filter bank, the frame decision and the debounce (46_dtmf.md R230
to R249). -/

namespace Sys2Proof.Machine

/-! ### Step 2: the filter (R235 to R237) -/

/-- The recurrence over the rest of a frame (R235): `s1` is the newest value, `s2` the one before it, `w` whether some
value so far exceeded 32767 in magnitude (R237). -/
def goertzelLoop (c : Int) : List Int → Int → Int → Bool → Int × Int × Bool
  | [], s1, s2, w => (s1, s2, w)
  | x :: xs, s1, s2, w =>
    let s := ((c * s1) >>> (15 : Nat)) - s2 + x
    goertzelLoop c xs s s1 (w || decide (32767 < s.natAbs))

/-- The power `s_N² + s_{N−1}² − ((c·s_N) >> 15)·s_{N−1}` (R236). -/
def goertzelPower (c s1 s2 : Int) : Int := s1 * s1 + s2 * s2 - ((c * s1) >>> (15 : Nat)) * s2

/-- One bin over one frame: its power and its overflow indicator (R235, R236, R237). -/
def goertzel (xs : List Int) (c : Int) : Int × Bool :=
  let r := goertzelLoop c xs 0 0 false
  (goertzelPower c r.1 r.2.1, r.2.2)

/-- The eight bins over one frame, in bin order (R231, R241). -/
def goertzelBank (c : Config) (xs : List Int) : List (Int × Bool) :=
  c.coef.toList.map fun k => goertzel xs k.toNat

/-! ### Steps 3 to 5: the decision (R239 to R242) -/

/-- The digit matrix, row after row: `123A`, `456B`, `789C`, `*0#D` (R11). -/
def digitCodes : List Byte :=
  [0x31#8, 0x32#8, 0x33#8, 0x41#8, 0x34#8, 0x35#8, 0x36#8, 0x42#8] ++
  [0x37#8, 0x38#8, 0x39#8, 0x43#8, 0x2A#8, 0x30#8, 0x23#8, 0x44#8]

/-- `MATRIX[lo][hi]` (R11, R241). -/
def digitAt (lo hi : Nat) : Byte := digitCodes.getD (4 * lo + hi) 0

/-- The largest of the powers that may be the peak: at or above the threshold and not negative (R239). -/
def peakPower (thresh : Nat) (p : List Int) : Option Int :=
  (p.filter fun v => decide ((thresh : Int) ≤ v ∧ 0 ≤ v)).max?

/-- The indices from `lo` to `lo + 3` whose power is at or above `tr` (R240). -/
def strongBins (p : List Int) (tr : Int) (lo : Nat) : List Nat :=
  (List.range' lo 4).filter fun k => decide (tr ≤ p.getD k 0)

/-- `decide(P)` (R242). -/
def decideDigit (thresh : Nat) (p : List Int) : Byte :=
  match peakPower thresh p with
  | none => 0
  | some peak =>
    let tr := peak / 4
    let trl := peak / 8
    if p.any fun v => decide (trl ≤ v ∧ v < tr) then 0
    else
      match strongBins p tr 0, strongBins p tr 4 with
      | [lo], [hi] => digitAt lo (hi - 4)
      | _, _ => 0

/-! ### Step 6: the debounce (R243) -/

/-- `count + 1`, stopping at 3 (R38, R243). -/
def countUp (n : BitVec 2) : BitVec 2 := BitVec.ofNat 2 (min 3 (n.toNat + 1))

/-- Append a digit if it is nonzero and space remains (R243, R246). -/
def emitDigit (cap : Nat) (digits : List Byte) (what : Byte) : List Byte :=
  if what ≠ 0 ∧ digits.length < cap then digits ++ [what] else digits

/-- `debounce(d, what, digits)` (R243). -/
def debounce (cap : Nat) (d : Dtmf) (what : Byte) (digits : List Byte) : Dtmf × List Byte :=
  let count := if what ≠ d.lastWhat then 0 else d.count
  if count = 2 ∧ what ≠ d.lastDigit then
    ({ d with count := count, lastDigit := what, lastWhat := what }, emitDigit cap digits what)
  else ({ d with count := countUp count, lastWhat := what }, digits)

/-! ### The command (R231) -/

/-- What DTMF_DECODE carries from byte to byte: the decoder state, the digits emitted, the warning. -/
structure DtmfRun where
  /-- The decoder state. -/
  d : Dtmf
  /-- The digits emitted in this command (R246). -/
  digits : List Byte
  /-- `OVF_WARN` so far (R237). -/
  warn : Bool
  deriving DecidableEq, Repr

/-- The `N` samples of a full frame (R234). -/
def frameSamples (n : Nat) (d : Dtmf) : List Int := (List.range n).map fun i => (d.buffer.read i).toInt

/-- A decision and its debounce (R242, R243). -/
def DtmfRun.decided (c : Config) (r : DtmfRun) (p : List Int) : DtmfRun :=
  let q := debounce c.digitsCap r.d (decideDigit c.dtmfThresh p) r.digits
  { r with d := q.1, digits := q.2 }

/-- A full frame: filter, `size` back to 0, decision (R234 to R243). -/
def DtmfRun.frame (c : Config) (r : DtmfRun) : DtmfRun :=
  let bank := goertzelBank c (frameSamples c.nPoints r.d)
  DtmfRun.decided c
    { r with d := { r.d with size := 0 }, warn := r.warn || bank.any (·.2) } (bank.map (·.1))

/-- One linear sample accumulated (R233), the frame processed when it is full (R234). -/
def DtmfRun.sample (c : Config) (r : DtmfRun) (v : Int) : DtmfRun :=
  let r' : DtmfRun :=
    { r with
      d := { r.d with buffer := r.d.buffer.write r.d.size (BitVec.ofInt 16 v), size := r.d.size + 1 } }
  if r.d.size + 1 = c.nPoints then r'.frame c else r'

/-- All bytes of a companded payload, in order (R233, R247). -/
def dtmfBytes (c : Config) (law : Law) : List Byte → DtmfRun → DtmfRun
  | [], r => r
  | b :: bs, r => dtmfBytes c law bs (r.sample c (decLaw c law b))

/-- A signed 32-bit little-endian integer from its bytes (R248, R66). -/
def s32le (b0 b1 b2 b3 : Byte) : Int := (wordOfBytes b0 b1 b2 b3).toInt

/-- The magnitudes of `n` bins from a chunk (R248). -/
def chunkBins : Nat → List Byte → List Int
  | n + 1, b0 :: b1 :: b2 :: b3 :: bs => s32le b0 b1 b2 b3 :: chunkBins n bs
  | _, _ => []

/-- `n` chunks of 32 bytes, one decision each; trailing bytes are ignored (R248). -/
def hfcChunks (c : Config) : Nat → List Byte → DtmfRun → DtmfRun
  | 0, _, r => r
  | n + 1, bs, r => hfcChunks c n (bs.drop 32) (r.decided c (chunkBins 8 bs))

/-- The three formats (R231, R232). -/
def dtmfPayload (c : Config) (fmt : Fmt) (bytes : List Byte) (r : DtmfRun) : DtmfRun :=
  match fmt with
  | .aLaw => dtmfBytes c .a bytes r
  | .uLaw => dtmfBytes c .u bytes r
  | .hfc => hfcChunks c (bytes.length / 32) bytes r

/-- `DTMF_INIT ch` (R230). -/
def execDtmfInit (ch : ChIx) (s : State) : Host.Outcome State Fault Refusal :=
  if s.usable ch then
    .next ((s.setSlot ch { s.slot ch with dtmfValid := true, dtmf := Dtmf.fresh }).okay opDtmfInit ch)
  else .next (s.raise opDtmfInit ch .invalidArgument)

/-- `DTMF_DECODE ch, fmt, bytes` (R231). -/
def execDtmfDecode (ch : ChIx) (fmt : Fmt) (bytes : List Byte) (s : State) : Host.Outcome State Fault Refusal :=
  if s.usable ch ∧ (s.slot ch).dtmfValid then
    let r := dtmfPayload s.cfg fmt bytes ⟨(s.slot ch).dtmf, [], false⟩
    .next ((s.setSlot ch { s.slot ch with dtmf := r.d }).respond (Response.digits ch r.digits r.warn))
  else .next (s.raise opDtmfDecode ch .invalidArgument)

end Sys2Proof.Machine
end

