-- ==== Sys2Proof/Machine/Receive.lean ====
section
/-! DEFINITION. RECEIVE, the receive path (43_receive.md R170 to R182). -/

namespace Sys2Proof.Machine

/-- Step 3 (R174): the earliest of the candidate and the other members' write indices, in member-list order. -/
def scanMin (s : State) (ch : ChIx) : List ChIx → Nat → Nat
  | [], w => w
  | o :: os, w =>
    scanMin s ch os
      (if o ≠ ch ∧ behind s.cfg.buffSize (s.slot o).wRx w then (s.slot o).wRx else w)

/-- How many of the frame's samples are added rather than assigned (R179). -/
def addCount (S : Nat) (oldMax wRx len : Nat) : Nat :=
  if ringDist S oldMax wRx < S / 2 then min (ringDist S oldMax wRx) len else 0

/-- Step 6, the mix buffer (R179, R180): from ring index `i`, the first `k` decoded samples are added to their cells,
the rest assigned. -/
def mixFrame (c : Config) (law : Law) (buf : Mem Word) (i k : Nat) : List Byte → Mem Word
  | [] => buf
  | b :: bs =>
    let j := adv c.buffSize i 0
    let v := decLaw c law b
    let cell := if 0 < k then wrap32 ((buf.read j).toInt + v) else wrap32 v
    mixFrame c law (buf.write j cell) (adv c.buffSize i 1) (k - 1) bs

/-- The slot after step 2 (R172): `largest` raised to `m`. -/
def Channel.raised (k : Channel) (m : Nat) : Channel := { k with largest := m }

/-- The slot after an accepted frame (R178, R181). -/
def Channel.received (S : Nat) (k : Channel) (m : Nat) (frame : List Byte) : Channel :=
  { k with
    largest := m
    rxBuff := ringWrite S k.rxBuff k.wRx frame
    wRx := adv S k.wRx frame.length }

/-- An accepted frame of a channel in no conference (R173). -/
def receiveSolo (s : State) (ch : ChIx) (frame : List Byte) : State :=
  let me := s.slot ch
  (s.setSlot ch (me.received s.cfg.buffSize (max me.largest (2 * frame.length)) frame)).okay opReceive ch

/-- The mix buffer after an accepted frame: written only with three or more members (R179). -/
def Conf.mixed (c : Config) (conf : Conf) (law : Law) (wRx : Nat) (frame : List Byte) : Mem Word :=
  if 3 ≤ conf.members.length then
    mixFrame c law conf.confBuff wRx (addCount c.buffSize conf.wMax wRx frame.length) frame
  else conf.confBuff

/-- Steps 2 to 6 for a channel in the conference `conf` (R172 to R181). -/
def receiveMember (s : State) (ch : ChIx) (conf : Conf) (frame : List Byte) : State :=
  let S := s.cfg.buffSize
  let me := s.slot ch
  let m := max (max me.largest (2 * frame.length)) conf.largest
  let wNew := adv S me.wRx frame.length
  let wMin := scanMin s ch conf.members wNew
  let wMax := later S wNew conf.wMax
  if m < ringDist S wMax wMin then
    ((s.setSlot ch (me.raised m)).setConf { conf with largest := m, wMin := wMin }).respond
      (Response.dropped ch)
  else
    ((s.setSlot ch (me.received S m frame)).setConf
      { conf with
        largest := m
        wMin := wMin
        confBuff := conf.mixed s.cfg me.law me.wRx frame
        wMax := wMax }).okay opReceive ch

/-- `RECEIVE ch, frame` (R170): the slot check, step 1 (R171), then the path of a channel in no conference or in one. -/
def execReceive (ch : ChIx) (frame : List Byte) (s : State) : Host.Outcome State Fault Refusal :=
  if s.usable ch then
    if frame.length = 0 then .next (s.raise opReceive ch .invalidArgument)
    else if s.cfg.maxLen < frame.length then .next (s.respond (Response.dropped ch))
    else
      match (s.slot ch).conference with
      | none => .next (receiveSolo s ch frame)
      | some c =>
        match s.find c with
        | none => .fault .danglingConference
        | some conf => .next (receiveMember s ch conf frame)
  else .next (s.raise opReceive ch .invalidArgument)

end Sys2Proof.Machine
end

