-- ==== Sys2Proof/Machine/Send.lean ====
section
/-! DEFINITION. SEND and SEND_TONE, the send path and the saturating mixer (44_send.md R190 to R209). -/

namespace Sys2Proof.Machine

/-- What the mix branches read besides the channel itself (R195): nothing for a solo channel (A), the peer's slot for a
pair (B), the mix buffer for a group (C). -/
inductive Source
  /-- `n ≤ 1` (R198, R199). -/
  | solo
  /-- `n = 2` (R200). -/
  | pair (peer : Channel)
  /-- `n ≥ 3` (R203). -/
  | group (cells : Mem Word)
  deriving DecidableEq, Repr

/-- The read index and the index stored in `R_rx` (R192): clamp to the newest `len` bytes before the limit `rr` when
reading `len` bytes from `r` would overrun it. -/
def readPointers (S : Nat) (r rr len : Nat) : Nat × Nat :=
  let e := adv S r len
  if e ≠ rr ∧ ahead S e rr then (adv S rr (-(len : Int)), rr) else (r, e)

/-- Branch A (R198, R199): `tx` is the queued byte if there is one, `rx` the channel's own received byte. -/
def soloByte (c : Config) (me : Channel) (tx : Option Byte) (rx : Byte) : Byte :=
  match me.echo, tx with
  | false, some b => b
  | false, none => silLaw c me.law
  | true, some b => mixLaw c me.law [decLaw c me.law b, decLaw c me.law rx]
  | true, none => rx

/-- The tx term of a sum: the decoded queued byte if there is one (R201, R202, R204). -/
def txTerm (c : Config) (me : Channel) : Option Byte → List Int
  | some b => [decLaw c me.law b]
  | none => []

/-- Branch B (R200 to R202): `peerRx` is the peer's received byte, decoded with the peer's law. -/
def pairByte (c : Config) (me peer : Channel) (tx : Option Byte) (rx peerRx : Byte) : Byte :=
  mixLaw c me.law
    ([decLaw c peer.law peerRx] ++ (if me.echo then [decLaw c me.law rx] else []) ++ txTerm c me tx)

/-- Branch C (R203, R204): the cell, less the channel's own sample with echo off, plus the tx term. -/
def groupByte (c : Config) (me : Channel) (tx : Option Byte) (rx : Byte) (cell : Word) : Byte :=
  mixLaw c me.law
    ([cell.toInt] ++ (if me.echo then [] else [-(decLaw c me.law rx)]) ++ txTerm c me tx)

/-- One output byte (R195): branch X while queued bytes last and `tx_mix` is 0 (R197), else the mix branch. -/
def sendByte (c : Config) (me : Channel) (src : Source) (tx : Option Byte) (ri : Nat) : Byte :=
  match me.txMix, tx with
  | false, some b => b
  | _, _ =>
    match src with
    | .solo => soloByte c me tx (me.rxBuff.read ri)
    | .pair peer => pairByte c me peer tx (me.rxBuff.read ri) (peer.rxBuff.read ri)
    | .group cells => groupByte c me tx (me.rxBuff.read ri) (cells.read ri)

/-- The queued byte at the tx index `t`, if the queue is not empty there (R190 `have`). -/
def queuedByte (me : Channel) (t : Nat) : Option Byte := if t = me.wTx then none else some (me.txBuff.read t)

/-- The tx index after one output byte (R190, R206). -/
def nextTx (c : Config) (me : Channel) (t : Nat) : Nat := if t = me.wTx then t else adv c.buffSize t 1

/-- The loop of R190: `n` output bytes from output offset `i`, read index base `r`, tx index `t`. -/
def sendBytes (c : Config) (me : Channel) (src : Source) (r : Nat) : Nat → Nat → Nat → List Byte
  | 0, _, _ => []
  | n + 1, i, t =>
    sendByte c me src (queuedByte me t) (adv c.buffSize r i) ::
      sendBytes c me src r n (i + 1) (nextTx c me t)

/-- The tx index after `n` output bytes (R206). -/
def sendTx (c : Config) (me : Channel) : Nat → Nat → Nat
  | 0, t => t
  | n + 1, t => sendTx c me n (nextTx c me t)

/-- The conference of a channel, if it is in one (R191). -/
def sendConf (s : State) (ch : ChIx) : Except Fault (Option Conf) :=
  match (s.slot ch).conference with
  | none => .ok none
  | some c =>
    match s.find c with
    | none => .error .danglingConference
    | some conf => .ok (some conf)

/-- The read limit `rr` (R191): `conf.W_min` in a conference, else the channel's own `W_rx`. -/
def readLimit (me : Channel) : Option Conf → Nat
  | none => me.wRx
  | some conf => conf.wMin

/-- The mix branch's source by the member count (R195, R200). -/
def sendSource (s : State) (ch : ChIx) : Option Conf → Except Fault Source
  | none => .ok .solo
  | some conf =>
    if conf.members.length ≤ 1 then .ok .solo
    else if conf.members.length = 2 then
      match conf.members.find? fun o => o ≠ ch with
      | some o => .ok (.pair (s.slot o))
      | none => .error .noPeer
    else .ok (.group conf.confBuff)

/-- The slot after SEND: `R_rx` and `R_tx`, nothing else (R190, R193, R206). -/
def Channel.sent (k : Channel) (rRx rTx : Nat) : Channel := { k with rRx := rRx, rTx := rTx }

/-- SEND after its checks, with the conference and the source found (R191 to R206). -/
def sendFrame (s : State) (ch : ChIx) (conf : Option Conf) (src : Source) (len : Nat) (tag : Word) : State :=
  let me := s.slot ch
  let p := readPointers s.cfg.buffSize me.rRx (readLimit me conf) len
  (s.setSlot ch (me.sent p.2 (sendTx s.cfg me len me.rTx))).respond
    (Response.frame opSend ch tag (sendBytes s.cfg me src p.1 len 0 me.rTx))

/-- `SEND ch, len, tag` (R190). -/
def execSend (ch : ChIx) (len : BitVec 16) (tag : Word) (s : State) : Host.Outcome State Fault Refusal :=
  if s.usable ch then
    if s.cfg.half ≤ len.toNat then .next (s.raise opSend ch .invalidArgument)
    else
      match sendConf s ch with
      | .error f => .fault f
      | .ok conf =>
        match sendSource s ch conf with
        | .error f => .fault f
        | .ok src => .next (sendFrame s ch conf src len.toNat tag)
  else .next (s.raise opSend ch .invalidArgument)

/-- `SEND_TONE ch, len, tag, tone` (R196): the pointer set-up of SEND, the tx queue emptied, the tone passed through. -/
def execSendTone (ch : ChIx) (tag : Word) (tone : List Byte) (s : State) : Host.Outcome State Fault Refusal :=
  if s.usable ch then
    if s.cfg.half ≤ tone.length then .next (s.raise opSendTone ch .invalidArgument)
    else
      match sendConf s ch with
      | .error f => .fault f
      | .ok conf =>
        let me := s.slot ch
        let p := readPointers s.cfg.buffSize me.rRx (readLimit me conf) tone.length
        .next ((s.setSlot ch (me.sent p.2 me.wTx)).respond (Response.frame opSendTone ch tag tone))
  else .next (s.raise opSendTone ch .invalidArgument)

end Sys2Proof.Machine
end

