-- ==== Sys2Proof/Machine/Transmit.lean ====
section
/-! DEFINITION. TRANSMIT, the playout queue (45_transmit.md R220 to R225). -/

namespace Sys2Proof.Machine

/-- Free space `(R_tx − W_tx − 1) mod S` (R222), as `dist(R_tx, adv(W_tx, 1))` (R220). -/
def txFree (S : Nat) (k : Channel) : Nat := ringDist S k.rTx (adv S k.wTx 1)

/-- The slot after the bytes that fit are appended (R223, R224). -/
def Channel.queued (S : Nat) (k : Channel) (bytes : List Byte) : Channel :=
  { k with
    txBuff := ringWrite S k.txBuff k.wTx bytes
    wTx := adv S k.wTx bytes.length }

/-- `TRANSMIT ch, frame` (R220). -/
def execTransmit (ch : ChIx) (frame : List Byte) (s : State) : Host.Outcome State Fault Refusal :=
  if s.usable ch then
    if frame.length = 0 then .next (s.raise opTransmit ch .invalidArgument)
    else
      let S := s.cfg.buffSize
      let me := s.slot ch
      let k := min frame.length (txFree S me)
      let s' := s.setSlot ch (me.queued S (frame.take k))
      if k < frame.length then .next (s'.respond (Response.truncated ch)) else .next (s'.okay opTransmit ch)
  else .next (s.raise opTransmit ch .invalidArgument)

end Sys2Proof.Machine
end

