-- ==== Sys2Proof/Machine/Dispatch.lean ====
section
/-! DEFINITION. One arm per command (30_encoding.md R84): a direct call of its meaning. -/

namespace Sys2Proof.Machine

/-- What one decoded command does. -/
def exec (i : Instr) (s : State) : Host.Outcome State Fault Refusal :=
  match i with
  | .chInit ch law => Sys2Proof.Machine.execChInit ch law s
  | .chSet ch setting => Sys2Proof.Machine.execChSet ch setting s
  | .reconfigure ch => Sys2Proof.Machine.execReconfigure ch s
  | .receive ch frame => Sys2Proof.Machine.execReceive ch frame s
  | .transmit ch frame => Sys2Proof.Machine.execTransmit ch frame s
  | .send ch len tag => Sys2Proof.Machine.execSend ch len tag s
  | .sendTone ch tag tone => Sys2Proof.Machine.execSendTone ch tag tone s
  | .dtmfInit ch => Sys2Proof.Machine.execDtmfInit ch s
  | .dtmfDecode ch fmt bytes => Sys2Proof.Machine.execDtmfDecode ch fmt bytes s

end Sys2Proof.Machine
end

