-- ==== Sys2Proof/Machine/Step.lean ====
section
/-! DEFINITION. One step: the next command of the presented stream (30_encoding.md R93), whole (00_scope.md R6). -/

namespace Sys2Proof.Machine

/-- One step. A whole legal command at the head of the stream is consumed and executed; an illegal one is consumed and
answered with `InvalidArgument`, no other state changed (R87); while the stream ends inside a command the block waits
(R93, R300). -/
def step (s : State) : Host.Outcome State Fault Refusal :=
  match s.fetched with
  | .incomplete => .next s
  | .illegal _ op ch rest => .next ((s.consumed rest).raise op ch .invalidArgument)
  | .instr i rest => exec i (s.consumed rest)

/-- The instruction of an opcode-table word placed where the next step fetches: at the head of the command stream
(log 3). -/
def State.withFetchWord (s : State) (nbits w : Nat) : State := { s with input := tableBytes nbits w ++ s.input }

end Sys2Proof.Machine
end

