-- ==== Sys2Proof/Safety.lean ====
section
/-! DEFINITION. The words claims use: the invariant of reachable states (10_state.md R41 to R44, and what the rules say of
each field), what a step answers, and what a command leaves alone. -/

namespace Sys2Proof.Machine

/-! ### The invariant -/

/-- What holds of every slot: memories in canonical form, ring indices below `BUFF_SIZE` (R41), `largest` at most
`2·MAXLEN` (R29), the DTMF fill level below `DTMF_NPOINTS` (R37), an initialised decoder on a valid slot (R32), no
conference on an invalid one. -/
structure Channel.Ok (c : Config) (k : Channel) : Prop where
  rxWf : k.rxBuff.wf c.buffSize
  txWf : k.txBuff.wf c.buffSize
  wRx : k.wRx < c.buffSize
  rRx : k.rRx < c.buffSize
  wTx : k.wTx < c.buffSize
  rTx : k.rTx < c.buffSize
  largest : k.largest ≤ 2 * c.maxLen
  dtmfWf : k.dtmf.buffer.wf c.nPoints
  size : k.dtmf.size < c.nPoints
  decoder : k.valid = true → k.dtmfValid = true
  outside : k.valid = false → k.conference = none

/-- A solution that fits its record (R36, R142, R143, R151). -/
def Conf.SolutionOk (k : Conf) : Prop :=
  match k.solution with
  | .software => k.hwId = 0
  | .hwCrossconnect => k.members.length = 2 ∧ k.hwId ≠ 0
  | .hwConference u => 1 ≤ u ∧ u ≤ 8 ∧ 3 ≤ k.members.length ∧ k.hwId ≠ 0

/-- What holds of every conference record: a nonzero id, at least one member, no repetition, at most `MAX_MEMBERS`
(R33, R43), indices below `BUFF_SIZE` (R41), a window no wider than `largest` (R44), a fitting solution. -/
structure Conf.Ok (c : Config) (k : Conf) : Prop where
  idNonzero : k.id ≠ 0
  nonempty : k.members ≠ []
  nodup : k.members.Nodup
  count : k.members.length ≤ c.maxMembers
  buffWf : k.confBuff.wf c.buffSize
  wMin : k.wMin < c.buffSize
  wMax : k.wMax < c.buffSize
  largest : k.largest ≤ 2 * c.maxLen
  window : ringDist c.buffSize k.wMax k.wMin ≤ k.largest
  solution : k.SolutionOk

/-- The invariant of reachable states: 10_state.md R41 to R44 and the bounds of R20, R29, R33, R37. -/
structure State.Inv (s : State) : Prop where
  cfg : s.cfg.Valid
  size : s.chan.length = s.cfg.nChan
  chans : ∀ k ∈ s.chan, k.Ok s.cfg
  count : s.confs.length ≤ s.cfg.nConf
  ids : (s.confs.map (·.id)).Nodup
  confs : ∀ k ∈ s.confs, k.Ok s.cfg
  /-- A listed member is a slot that names the record (R43). -/
  listed : ∀ k ∈ s.confs, ∀ ch ∈ k.members, ch.toNat < s.cfg.nChan ∧ (s.slot ch).conference = some k.id
  /-- A slot that names a conference is listed in its record (R43). -/
  named : ∀ ch : ChIx, ∀ id, ch.toNat < s.cfg.nChan → (s.slot ch).conference = some id →
    ∃ k ∈ s.confs, k.id = id ∧ ch ∈ k.members
  /-- Every member's write index lies in the window from `W_min` to `W_max` (R42). -/
  envelope : ∀ k ∈ s.confs, ∀ ch ∈ k.members,
    ringDist s.cfg.buffSize (s.slot ch).wRx k.wMin ≤ ringDist s.cfg.buffSize k.wMax k.wMin
  /-- No unit of a hardware instance is held by two conferences (R143). -/
  units : ∀ k ∈ s.confs, ∀ o ∈ s.confs, k.id ≠ o.id → k.hwId = o.hwId →
    ∀ u, k.solution = .hwConference u → o.solution ≠ .hwConference u

/-- The ring indices of a slot are below `BUFF_SIZE` (R41). -/
def Channel.InRing (S : Nat) (k : Channel) : Prop := k.wRx < S ∧ k.rRx < S ∧ k.wTx < S ∧ k.rTx < S

/-- All ring indices are below `BUFF_SIZE` (R41). -/
def State.PointersInRing (s : State) : Prop :=
  (∀ k ∈ s.chan, k.InRing s.cfg.buffSize) ∧
    ∀ k ∈ s.confs, k.wMin < s.cfg.buffSize ∧ k.wMax < s.cfg.buffSize

/-! ### What a command leaves alone -/

/-- Nothing but the response stream and the slots differs: configuration, registry and command stream are as before. -/
structure SlotsOnly (s t : State) : Prop where
  cfg : t.cfg = s.cfg
  confs : t.confs = s.confs
  input : t.input = s.input
  length : t.chan.length = s.chan.length

/-- Every slot but `ch` is as before. -/
def OtherSlotsKept (s t : State) (ch : ChIx) : Prop := ∀ o : ChIx, o ≠ ch → t.slot o = s.slot o

/-- Every record whose id is not `id` is as before, in the same order. -/
def OtherConfsKept (s t : State) (id : ConfId) : Prop :=
  t.confs.filter (fun k => k.id ≠ id) = s.confs.filter (fun k => k.id ≠ id)

/-- A command was answered with `status` and changed nothing else. -/
def Refuses (i : Instr) (s : State) (status : Status) : Prop :=
  exec i s = .next (s.respond
    { op := i.op, ch := i.ch, status := status, drop := false, trunc := false, ovfWarn := false, tag := 0,
      payload := [], events := [] })

/-- `r` is the one response a command added. -/
def Answered (s t : State) (r : Response) : Prop := t.responses = s.responses ++ [r]

/-- The response is `OK` for the command `i`, with nothing to return. -/
def PlainOk (i : Instr) : Response :=
  { op := i.op, ch := i.ch, status := .ok, drop := false, trunc := false, ovfWarn := false, tag := 0, payload := [],
    events := [] }

/-! ### What a dispatch answers (42_reconfigure.md R147 to R155) -/

/-- The pair (`sol`, `hw`) and the events `evs` are those of R147 to R155 for the record `k`, whose members are already
those after the change: `before` lists the members before it, `change` says who joined or left. -/
structure Dispatched (s : State) (k : Conf) (before : List ChIx) (change : Change) (sol : Solution) (hw : HwId)
    (evs : List Event) : Prop where
  /-- The solution is the classifier's (R147). -/
  solution : sol = classify s k
  /-- `Software` has no hardware instance (R147). -/
  software : sol = .software → hw = 0
  /-- Any other solution has the members' (R147). -/
  hardware : sol ≠ .software → ∀ x ∈ k.members, (s.slot x).hwId = hw
  /-- A member that joins a conference that stays on its unit is enabled (R154). -/
  joined : sol = k.solution → hw = k.hwId → ∀ u ch, sol = .hwConference u → change = .added ch →
    evs = [.hwConference ch u]
  /-- A member that leaves one is disabled (R154). -/
  left : sol = k.solution → hw = k.hwId → ∀ u ch, sol = .hwConference u → change = .removed ch →
    evs = [.hwConference ch 0]
  /-- Any other unchanged pair emits nothing (R154). -/
  quiet : sol = k.solution → hw = k.hwId → (∀ u, sol ≠ .hwConference u) ∨ change = .none → evs = []
  /-- A changed pair disables the old solution for the members before (R150, R151), then enables the new one for the
  members after (R152, R153, R155). -/
  moved : ¬(sol = k.solution ∧ hw = k.hwId) → ∃ off on, evs = off ++ on ∧
    (k.solution = .software → off = []) ∧
    (∀ u, k.solution = .hwConference u → off = before.map fun x => .hwConference x 0) ∧
    (k.solution = .hwCrossconnect → ∃ a b, before = [a, b] ∧ off = [.hwCrossconnect a b false]) ∧
    (sol = .software → on = []) ∧
    (∀ u, sol = .hwConference u → on = k.members.map fun x => .hwConference x u) ∧
    (sol = .hwCrossconnect → ∃ a b, k.members = [a, b] ∧ on = [.hwCrossconnect a b true])

/-! ### What SEND and SEND_TONE read (44_send.md R208) -/

/-- A slot with what SEND does not read set to one value: `largest`, `active`, `conf_id`, `hw_id`, the decoder, and, of a
conference member, `W_rx`. -/
def Channel.sendView (k : Channel) : Channel :=
  { k with
    wRx := if k.conference.isSome then 0 else k.wRx
    largest := 0, active := false, confId := 0, hwId := 0, dtmfValid := false, dtmf := Dtmf.fresh }

/-- A record with what SEND does not read set to one value: `solution`, `hw_id`, `W_max`, `largest`. -/
def Conf.sendView (k : Conf) : Conf := { k with solution := .software, hwId := 0, wMax := 0, largest := 0 }

/-- A state with what SEND does not read set to one value. The responses stay. -/
def State.sendView (s : State) : State :=
  { s with chan := s.chan.map Channel.sendView, confs := s.confs.map Conf.sendView, input := [] }

end Sys2Proof.Machine
end

