-- ==== Sys2Proof/Certificates/Slice0/Obligations.lean ====
section
/-! DEFINITION. The statements for the provers, from the numbered rules of spec/. Where a statement needs a state that
makes sense (memories in canonical form, members that are slots) it takes the invariant `State.Inv` of Safety.lean as a
premise; that the invariant holds at reset and is kept by every step are statements of their own. -/

open Sys2Proof Sys2Proof.Machine

/-! ### Encoding (30_encoding.md) -/

/-- Byte streams written out from the word tables of 95_test_vectors.md section 2.8, with the layout of R81, R84, R85,
R86, decode to the commands they stand for: one of every row of the opcode table. -/
def Obligations.WrittenWordsDecode : Prop :=
  decode [0x01, 0x00, 0x03, 0x10, 0x00, 0x00, 0x00, 0x00] = .instr (.chInit 3 .u) [] ∧
  decode [0x05, 0x00, 0x01, 0x20, 0x07, 0x00, 0x00, 0x00] = .instr (.chSet 1 (.hwId 7)) [] ∧
  decode [0x04, 0x00, 0x00, 0x20, 0xFF, 0xFF, 0xFF, 0xFF] = .instr (.chSet 0 (.confId 0xFFFFFFFF)) [] ∧
  decode [0x00, 0x00, 0x02, 0x30, 0x00, 0x00, 0x00, 0x00] = .instr (.reconfigure 2) [] ∧
  decode [0x02, 0x00, 0x00, 0x40, 0x00, 0x00, 0x00, 0x00, 0xD5, 0xD6, 0x77] = .instr (.receive 0 [0xD5, 0xD6]) [0x77] ∧
  decode [0x01, 0x00, 0x00, 0x50, 0x00, 0x00, 0x00, 0x00, 0xAB] = .instr (.transmit 0 [0xAB]) [] ∧
  decode [0xA0, 0x00, 0x02, 0x60, 0x34, 0x12, 0x00, 0x00] = .instr (.send 2 160 0x1234) [] ∧
  decode [0x01, 0x00, 0x00, 0x70, 0x09, 0x00, 0x00, 0x00, 0x2A] = .instr (.sendTone 0 9 [0x2A]) [] ∧
  decode [0x00, 0x00, 0x03, 0x80, 0x00, 0x00, 0x00, 0x00] = .instr (.dtmfInit 3) [] ∧
  decode [0x02, 0x00, 0x03, 0x90, 0x01, 0x00, 0x00, 0x00, 0xFF, 0x97] = .instr (.dtmfDecode 3 .uLaw [0xFF, 0x97]) []

/-- Decoding the encoding of a well-formed command, whatever bytes follow it, gives the command and those bytes. -/
def Obligations.DecodeEncodeRoundTrip : Prop :=
  ∀ i : Instr, i.WellFormed → ∀ rest : List Byte, decode (encode i ++ rest) = .instr i rest

/-- Bytes that decode to a command are that command's encoding and nothing else, and the command is well formed: every
bit of a legal command is either an operand or required (R84 to R87). -/
def Obligations.LegalBytesAreTheEncoding : Prop :=
  ∀ (bytes rest : List Byte) (i : Instr), decode bytes = .instr i rest → i.WellFormed ∧ bytes = encode i ++ rest

/-- R83: a header pair, with its payload present, is a command of a row exactly when it matches the row's `match`/`mask`
and `match1`/`mask1`, but for the selector restrictions of CH_SET (R85) and the reserved format 3. -/
def Obligations.OpcodeRowsGovernDecoding : Prop :=
  ∀ (w0 w1 : Word) (bytes : List Byte), payloadLen (headerOp w0) (headerArg w0) ≤ bytes.length →
    ∀ row ∈ opcodeRows,
      ((∃ i rest, decodeWords w0 w1 bytes = .instr i rest ∧ i.mnemonic = row.mnemonic) ↔
        row.fits w0 w1 = true ∧
        (row.mnemonic = "CH_SET" →
          ((headerArg w0).toNat ≤ 3 ∧ w1.toNat < 2) ∨ (headerArg w0).toNat = 4 ∨
            ((headerArg w0).toNat = 5 ∧ w1.toNat < 65536)) ∧
        (row.mnemonic = "DTMF_DECODE" → w1.toNat ≠ 3))

/-- R87, R82: the illegal headers, in the rule's words, on the fields of a header (`op`, `arg`, `x`). -/
def Obligations.IllegalHeadersAreRefused : Prop :=
  ∀ (s : State) (op : BitVec 4) (ch : ChIx) (arg : BitVec 16) (x : Word) (payload rest : List Byte),
    s.input = bytesOfWord (headerWord op ch arg) ++ bytesOfWord x ++ payload ++ rest →
    payload.length = (if op = 4 ∨ op = 5 ∨ op = 7 ∨ op = 9 then arg.toNat else 0) →
    ((op = 0 ∨ 10 ≤ op.toNat ∨
        (op = 1 ∧ (2 ≤ arg.toNat ∨ x ≠ 0)) ∨
        (op = 2 ∧ (16 ≤ arg.toNat ∨ (arg.toNat ≤ 3 ∧ 2 ≤ x.toNat) ∨ (arg.toNat = 5 ∧ 65536 ≤ x.toNat) ∨
          6 ≤ arg.toNat)) ∨
        ((op = 3 ∨ op = 8) ∧ (arg ≠ 0 ∨ x ≠ 0)) ∨
        ((op = 4 ∨ op = 5) ∧ x ≠ 0) ∨
        (op = 9 ∧ 3 ≤ x.toNat)) →
      step s = .next { s with
        input := rest
        responses := s.responses ++
          [{ op := op, ch := ch, status := .invalidArgument, drop := false, trunc := false, ovfWarn := false, tag := 0,
             payload := [], events := [] }] }) ∧
    (¬(op = 0 ∨ 10 ≤ op.toNat ∨
        (op = 1 ∧ (2 ≤ arg.toNat ∨ x ≠ 0)) ∨
        (op = 2 ∧ (16 ≤ arg.toNat ∨ (arg.toNat ≤ 3 ∧ 2 ≤ x.toNat) ∨ (arg.toNat = 5 ∧ 65536 ≤ x.toNat) ∨
          6 ≤ arg.toNat)) ∨
        ((op = 3 ∨ op = 8) ∧ (arg ≠ 0 ∨ x ≠ 0)) ∨
        ((op = 4 ∨ op = 5) ∧ x ≠ 0) ∨
        (op = 9 ∧ 3 ≤ x.toNat)) →
      ∃ i : Instr, i.op = op ∧ i.ch = ch ∧ i.payload = payload ∧ decode s.input = .instr i rest)

/-- When the bytes presented decode to a command, a step consumes exactly its bytes and is `exec` of it; so it is when they
begin with the encoding of a well-formed command (R93, R6). -/
def Obligations.StepRunsDecodedInstruction : Prop :=
  (∀ (s : State) (i : Instr) (rest : List Byte), decode s.input = .instr i rest →
    step s = exec i { s with input := rest }) ∧
  ∀ (s : State) (i : Instr) (rest : List Byte), i.WellFormed → s.input = encode i ++ rest →
    step s = exec i { s with input := rest }

/-- R93, R82, R87: a stream that ends inside a header or a payload is not a command, and the block waits, unchanged:
while fewer than 8 bytes are presented, and while fewer payload bytes follow the header than its `op` and `arg` call for,
be the command legal or not. With all of them present the stream is a command. So the block waits on every proper prefix
of a well-formed command. -/
def Obligations.StepWaitsForWholeCommand : Prop :=
  ∀ s : State,
    (s.input.length < 8 → step s = .next s) ∧
    (∀ (w0 w1 : Word) (bytes : List Byte), s.input = bytesOfWord w0 ++ bytesOfWord w1 ++ bytes →
      let op := w0.extractLsb' 28 4
      let plen := if op = 4 ∨ op = 5 ∨ op = 7 ∨ op = 9 then (w0.extractLsb' 0 16).toNat else 0
      (bytes.length < plen → step s = .next s) ∧ (plen ≤ bytes.length → decode s.input ≠ .incomplete)) ∧
    ∀ (i : Instr) (more : List Byte), i.WellFormed → more ≠ [] → encode i = s.input ++ more → step s = .next s

/-- R88, R87: every command that completes produces exactly one response, which copies the command's `op` and `ch`. Of a
legal command the response carries the tag for SEND and SEND_TONE with status OK and 0 otherwise (that a refused SEND or
SEND_TONE carries 0 is the model's reading, log 5), a payload only for SEND, SEND_TONE and DTMF_DECODE with status OK,
events only for RECONFIGURE. A step on any whole command, legal or not, answers one response with the `op` and `ch` of its
header; of an illegal one it is `InvalidArgument` with no tag, payload or event. -/
def Obligations.OneResponsePerCommand : Prop :=
  (∀ (i : Instr) (s t : State), exec i s = .next t →
    ∃ r, Answered s t r ∧ r.op = i.op ∧ r.ch = i.ch ∧
      r.tag = (if (i.op = 6 ∨ i.op = 7) ∧ r.status = .ok then i.x else 0) ∧
      (r.payload ≠ [] → (i.op = 6 ∨ i.op = 7 ∨ i.op = 9) ∧ r.status = .ok) ∧
      (r.events ≠ [] → i.op = 3)) ∧
  ∀ (s t : State) (w0 w1 : Word) (bytes : List Byte), s.input = bytesOfWord w0 ++ bytesOfWord w1 ++ bytes →
    decode s.input ≠ .incomplete → step s = .next t →
    ∃ r, Answered s t r ∧ r.op = w0.extractLsb' 28 4 ∧ r.ch = w0.extractLsb' 16 12 ∧
      ((∀ i rest, decode s.input ≠ .instr i rest) →
        r.status = .invalidArgument ∧ r.tag = 0 ∧ r.payload = [] ∧ r.events = [])

/-- R89: `DROP` is set by RECEIVE exactly when the frame was dropped (status `Busy`), `TRUNC` by TRANSMIT exactly when
the tail was dropped (status `Busy`), `OVF_WARN` only by DTMF_DECODE; and no other command is ever `Busy`. -/
def Obligations.FlagsAccompanyBusy : Prop :=
  ∀ (i : Instr) (s t : State) (r : Response), exec i s = .next t → Answered s t r →
    (r.drop = true ↔ i.op = 4 ∧ r.status = .busy) ∧
    (r.trunc = true ↔ i.op = 5 ∧ r.status = .busy) ∧
    (r.ovfWarn = true → i.op = 9 ∧ r.status = .ok) ∧
    (r.status = .busy → i.op = 4 ∨ i.op = 5)

/-- R88, R89, R90, R66: where the fields of a response and of an event stand in their words, and the bytes of a response:
word 0, the tag, `plen_out`, `nev`, then the payload bytes, then the event words, every word least significant byte
first. -/
def Obligations.ResponseAndEventLayout : Prop :=
  (∀ r : Response,
    r.word0.extractLsb' 28 4 = r.op ∧ r.word0.extractLsb' 16 12 = r.ch ∧ r.word0.extractLsb' 12 4 = 0 ∧
    r.word0.getLsbD 11 = false ∧ r.word0.getLsbD 10 = r.ovfWarn ∧ r.word0.getLsbD 9 = r.trunc ∧
    r.word0.getLsbD 8 = r.drop ∧ r.word0.extractLsb' 4 4 = 0 ∧ r.word0.extractLsb' 0 4 = r.status.code) ∧
  (∀ (ch : ChIx) (u : Nat), u ≤ 8 →
    (Event.hwConference ch u).word.extractLsb' 28 4 = 1 ∧ (Event.hwConference ch u).word.extractLsb' 16 12 = ch ∧
    (Event.hwConference ch u).word.extractLsb' 4 12 = 0 ∧
    ((Event.hwConference ch u).word.extractLsb' 0 4).toNat = u) ∧
  (∀ (a b : ChIx) (e : Bool),
    (Event.hwCrossconnect a b e).word.extractLsb' 28 4 = 2 ∧ (Event.hwCrossconnect a b e).word.extractLsb' 16 12 = a ∧
    (Event.hwCrossconnect a b e).word.extractLsb' 4 12 = b ∧
    (Event.hwCrossconnect a b e).word.extractLsb' 1 3 = 0 ∧ (Event.hwCrossconnect a b e).word.getLsbD 0 = e) ∧
  (let le : Word → List Byte := fun w =>
      [w.extractLsb' 0 8, w.extractLsb' 8 8, w.extractLsb' 16 8, w.extractLsb' 24 8]
    ∀ r : Response,
      r.bytes = le r.word0 ++ le r.tag ++ le (BitVec.ofNat 32 r.payload.length) ++
        le (BitVec.ofNat 32 r.events.length) ++ r.payload ++ (r.events.map fun e => le e.word).flatten)

/-! ### Ring arithmetic and saturation (40_ring_companding.md) -/

/-- R100: the result is a ring index; it is the sum masked by `BUFF_MASK` on two's-complement integers; the corner
cases. -/
def Obligations.AdvanceLaws : Prop :=
  ∀ S i : Nat, i < S →
    (∀ n : Int, adv S i n < S ∧ ((adv S i n : Int) - (i + n)) % S = 0) ∧
    adv S i 0 = i ∧ adv S i S = i ∧ adv S (S - 1) 1 = 0 ∧ adv S 0 (-1) = S - 1 ∧
    (∀ n m : Int, adv S (adv S i n) m = adv S i (n + m)) ∧
    (∀ (w k : Nat) (n : Int), S = 2 ^ k → k ≤ w →
      adv S i n = (BitVec.ofInt w ((i : Int) + n) &&& BitVec.ofNat w (S - 1)).toNat)

/-- R101: `ringDist` counts the steps up from `b` to `a`; the corner cases. -/
def Obligations.DistanceLaws : Prop :=
  ∀ S a b : Nat, a < S → b < S →
    ringDist S a b < S ∧ ((ringDist S a b : Int) - ((a : Int) - b)) % S = 0 ∧ ringDist S a a = 0 ∧
    (a ≠ b → ringDist S a b + ringDist S b a = S) ∧ adv S b (ringDist S a b) = a

/-- R102, R103: `ahead` holds within half a ring; exactly one direction holds off the tie; at distance `BUFF_HALF` neither
does; `behind` and `later`. -/
def Obligations.OrderingLaws : Prop :=
  ∀ S a b : Nat, 0 < S → S % 2 = 0 → a < S → b < S →
    (ahead S a b = true ↔ ringDist S a b < S / 2) ∧ ahead S a a = true ∧
    (a ≠ b → ringDist S a b ≠ S / 2 → (ahead S a b = true ↔ ahead S b a = false)) ∧
    (ringDist S a b = S / 2 → ahead S a b = false ∧ ahead S b a = false) ∧
    (behind S a b = true ↔ S / 2 ≤ ringDist S a b) ∧
    (ahead S a b = true → later S a b = a) ∧ (ahead S a b = false → later S a b = b)

/-- R109, R16: a mix is the encoding of the exact sum clamped to the signed 16-bit range; the exact sum is the signed
32-bit one when one cell of magnitude at most 2^30 and at most three samples are added. -/
def Obligations.MixSaturates : Prop :=
  (∀ (c : Config) (l : Law) (ts : List Int),
    mixLaw c l ts =
      encLaw c l (if ts.sum < -32768 then -32768 else if 32767 < ts.sum then 32767 else ts.sum)) ∧
  ∀ (cell : Int) (xs : List Int), -(2 ^ 30) ≤ cell → cell ≤ 2 ^ 30 → xs.length ≤ 3 →
    (∀ x ∈ xs, -32768 ≤ x ∧ x ≤ 32768) → (wrap32 (cell + xs.sum)).toInt = cell + xs.sum

/-! ### Reset, slots, control commands -/

/-- R45: after power-on the registry is empty and every slot is invalid; and every command but CH_INIT that names a slot
that is invalid (or no slot) raises `InvalidArgument` and changes nothing, whatever the slot's other fields hold. (That
the response to a refused SEND or SEND_TONE carries the tag 0 is the model's reading, log 5.) -/
def Obligations.PowerOnAndInvalidSlots : Prop :=
  (∀ c : Config, (State.resetWith c).confs = [] ∧ (State.resetWith c).chan.length = c.nChan ∧
    ∀ ch : ChIx, ((State.resetWith c).slot ch).valid = false) ∧
  ∀ (i : Instr) (s : State), i.op ≠ 1 → (s.cfg.nChan ≤ i.ch.toNat ∨ (s.slot i.ch).valid = false) →
    Refuses i s .invalidArgument

/-- The default parameters meet their constraints, and the invariant holds at power-on for every choice of parameters
that does. (The model's choices: the values of the fields of a slot before its first CH_INIT, which R45 leaves
unspecified, log 2; that the parameters stand in the state, log 1; the tables, coefficients and sizes at reset, logs 6
and 7.) -/
def Obligations.ResetMeetsInvariant : Prop :=
  Config.standard.Valid ∧ (∀ c : Config, c.Valid → (State.resetWith c).Inv) ∧ State.reset.Inv

/-- R160, R46: CH_INIT of an existing slot that is in no conference completes, whatever else the slot holds; every field of
the slot then has R46's value, and nothing else changes. Any other CH_INIT is refused. -/
def Obligations.ChInitResult : Prop :=
  ∀ (s : State) (ch : ChIx) (law : Law), s.chan.length = s.cfg.nChan →
    (ch.toNat < s.cfg.nChan → ((s.slot ch).valid = false ∨ (s.slot ch).conference = none) →
      ∃ t, exec (.chInit ch law) s = .next t ∧ Answered s t (PlainOk (.chInit ch law)) ∧ SlotsOnly s t ∧
        OtherSlotsKept s t ch ∧ (t.slot ch).valid = true ∧ (t.slot ch).law = law ∧
        (t.slot ch).wRx = 0 ∧ (t.slot ch).rRx = 0 ∧ (t.slot ch).wTx = 0 ∧ (t.slot ch).rTx = 0 ∧
        (t.slot ch).largest = 0 ∧ (t.slot ch).echo = false ∧ (t.slot ch).txMix = false ∧
        (t.slot ch).active = false ∧ (t.slot ch).confId = 0 ∧ (t.slot ch).hwId = 0 ∧
        (t.slot ch).conference = none ∧ (t.slot ch).dtmfValid = true ∧ (t.slot ch).dtmf.size = 0 ∧
        (t.slot ch).dtmf.lastWhat = 0 ∧ (t.slot ch).dtmf.lastDigit = 0 ∧ (t.slot ch).dtmf.count = 0 ∧
        (∀ j, (t.slot ch).dtmf.buffer.read j = 0) ∧
        ∀ j, (t.slot ch).rxBuff.read j = silLaw s.cfg law ∧ (t.slot ch).txBuff.read j = silLaw s.cfg law) ∧
    (s.cfg.nChan ≤ ch.toNat ∨ ((s.slot ch).valid = true ∧ (s.slot ch).conference ≠ none) →
      Refuses (.chInit ch law) s .invalidArgument)

/-- R161: CH_SET on a valid slot completes, writes the one field it names and nothing else. -/
def Obligations.ChSetResult : Prop :=
  ∀ (s : State) (ch : ChIx) (st : Setting), s.chan.length = s.cfg.nChan → ch.toNat < s.cfg.nChan →
    (s.slot ch).valid = true →
    ∃ t, exec (.chSet ch st) s = .next t ∧ Answered s t (PlainOk (.chSet ch st)) ∧ SlotsOnly s t ∧
      OtherSlotsKept s t ch ∧
      t.slot ch =
        match st with
        | .law l => { s.slot ch with law := l }
        | .echo b => { s.slot ch with echo := b }
        | .txMix b => { s.slot ch with txMix := b }
        | .active b => { s.slot ch with active := b }
        | .confId id => { s.slot ch with confId := id }
        | .hwId id => { s.slot ch with hwId := id }

/-! ### RECONFIGURE (42_reconfigure.md, 41_registry_membership.md) -/

/-- R156, R157, R158: in every state that meets the invariant RECONFIGURE of a valid slot completes. Either it answers OK
and the channel is then in exactly the conference it asks for (or in none), or it answers `ResourceExhausted` and the
channel is in no conference. Of the slots only this one is written, and of it only `rx_buff`, `W_rx`, `R_rx` and
`conference`. -/
def Obligations.ReconfigureCompletes : Prop :=
  ∀ (s : State) (ch : ChIx), s.Inv → ch.toNat < s.cfg.nChan → (s.slot ch).valid = true →
    ∃ t st evs, exec (.reconfigure ch) s = .next t ∧
      Answered s t { PlainOk (.reconfigure ch) with status := st, events := evs } ∧
      ((st = .ok ∧ (t.slot ch).conference =
          if (s.slot ch).active = true ∧ (s.slot ch).confId ≠ 0 then some (s.slot ch).confId else none) ∨
        (st = .resourceExhausted ∧ (t.slot ch).conference = none)) ∧
      t.cfg = s.cfg ∧ t.input = s.input ∧ OtherSlotsKept s t ch ∧
      ∃ rx w r c, t.slot ch = { s.slot ch with rxBuff := rx, wRx := w, rRx := r, conference := c }

/-- R124, R125, R127: joining a conference that exists and has room. The joiner's `rx_buff` is all silence, both receive
indices stand at `W_max`, the rest of the slot is as before; the record lists the joiner last, its `conf_buff` is all zero
if it has just reached three members and as before otherwise, its `W_min`, `W_max`, `largest` are as before; its solution,
its hardware instance and the events are those of R147 to R155 for the members before and the joiner as added; every other
slot and record is as before. -/
def Obligations.JoinExistingConference : Prop :=
  ∀ (s : State) (ch : ChIx) (k : Conf), s.Inv → ch.toNat < s.cfg.nChan → (s.slot ch).valid = true →
    (s.slot ch).conference = none → (s.slot ch).active = true → k ∈ s.confs → k.id = (s.slot ch).confId →
    k.members.length < s.cfg.maxMembers →
    ∃ t evs rx k', exec (.reconfigure ch) s = .next t ∧
      Answered s t { PlainOk (.reconfigure ch) with events := evs } ∧
      t.cfg = s.cfg ∧ t.input = s.input ∧ OtherSlotsKept s t ch ∧ OtherConfsKept s t k.id ∧
      t.slot ch = { s.slot ch with rxBuff := rx, wRx := k.wMax, rRx := k.wMax, conference := some k.id } ∧
      (∀ j, rx.read j = silLaw s.cfg (s.slot ch).law) ∧
      t.find k.id = some k' ∧ k'.members = k.members ++ [ch] ∧ k'.wMin = k.wMin ∧ k'.wMax = k.wMax ∧
      k'.largest = k.largest ∧
      Dispatched s { k with members := k.members ++ [ch] } k.members (.added ch) k'.solution k'.hwId evs ∧
      (k.members.length = 2 → ∀ j, k'.confBuff.read j = 0) ∧
      (k.members.length ≠ 2 → k'.confBuff = k.confBuff)

/-- R122, R156, R158: joining a conference that does not exist creates it, with the joiner as its one member and the
envelope at zero and `largest` 0, in `Software`, while the registry has room; with the registry full the join is refused
with `ResourceExhausted` and nothing is written. -/
def Obligations.JoinCreatesConference : Prop :=
  ∀ (s : State) (ch : ChIx), s.Inv → ch.toNat < s.cfg.nChan → (s.slot ch).valid = true →
    (s.slot ch).conference = none → (s.slot ch).active = true → (s.slot ch).confId ≠ 0 →
    s.find (s.slot ch).confId = none →
    (s.confs.length < s.cfg.nConf →
      ∃ t rx buff, exec (.reconfigure ch) s = .next t ∧ Answered s t (PlainOk (.reconfigure ch)) ∧
        t.cfg = s.cfg ∧ t.input = s.input ∧ OtherSlotsKept s t ch ∧
        t.slot ch = { s.slot ch with rxBuff := rx, wRx := 0, rRx := 0, conference := some (s.slot ch).confId } ∧
        (∀ j, rx.read j = silLaw s.cfg (s.slot ch).law) ∧ (∀ j, buff.read j = 0) ∧
        t.confs = s.confs ++ [⟨(s.slot ch).confId, [ch], buff, 0, 0, 0, .software, 0⟩]) ∧
    (s.confs.length = s.cfg.nConf → Refuses (.reconfigure ch) s .resourceExhausted)

/-- R124, R158, R275: a channel in no conference that asks for one that already has `MAX_MEMBERS` members is refused with
`ResourceExhausted`, and nothing is written. -/
def Obligations.FullConferenceRefusesJoin : Prop :=
  ∀ (s : State) (ch : ChIx) (k : Conf), s.Inv → ch.toNat < s.cfg.nChan → (s.slot ch).valid = true →
    (s.slot ch).conference = none → (s.slot ch).active = true → k ∈ s.confs → k.id = (s.slot ch).confId →
    k.members.length = s.cfg.maxMembers → Refuses (.reconfigure ch) s .resourceExhausted

/-- R126, R127, R123: a channel that asks for no conference leaves the one it is in. Only its `conference` changes in its
slot; the record keeps the others in order and its `W_min`, `W_max`, `largest` and `conf_buff`; its solution, its hardware
instance and the events are those of R147 to R155 for the members before and the channel as removed; a record left empty
is deleted, with no event; every other slot and record is as before. -/
def Obligations.LeaveConference : Prop :=
  ∀ (s : State) (ch : ChIx) (k : Conf), s.Inv → ch.toNat < s.cfg.nChan → (s.slot ch).valid = true →
    k ∈ s.confs → (s.slot ch).conference = some k.id →
    ((s.slot ch).active = false ∨ (s.slot ch).confId = 0) →
    ∃ t evs, exec (.reconfigure ch) s = .next t ∧
      Answered s t { PlainOk (.reconfigure ch) with events := evs } ∧
      t.cfg = s.cfg ∧ t.input = s.input ∧ OtherSlotsKept s t ch ∧ OtherConfsKept s t k.id ∧
      t.slot ch = { s.slot ch with conference := none } ∧
      (k.members = [ch] → t.find k.id = none ∧ evs = []) ∧
      (k.members ≠ [ch] → ∃ sol hw,
        Dispatched s { k with members := k.members.filter (fun o => o ≠ ch) } k.members (.removed ch) sol hw evs ∧
        t.find k.id =
          some { k with members := k.members.filter (fun o => o ≠ ch), solution := sol, hwId := hw })

/-- R158, R275: a channel in one conference that asks for another one which it cannot join (it has to be made and the
registry is full, or it has `MAX_MEMBERS` members) leaves all the same: the answer is `ResourceExhausted` with the leave's
events, the channel is in no conference, its old record no longer lists it (with the solution and events of R147 to R155)
or, left empty, is deleted, and its request stands. (A channel alone in its conference frees a record by leaving, so for
it the registry cannot be full.) -/
def Obligations.FailedMoveStillLeaves : Prop :=
  ∀ (s : State) (ch : ChIx) (k : Conf), s.Inv → ch.toNat < s.cfg.nChan → (s.slot ch).valid = true →
    k ∈ s.confs → (s.slot ch).conference = some k.id →
    (s.slot ch).active = true → (s.slot ch).confId ≠ 0 → (s.slot ch).confId ≠ k.id →
    ((k.members ≠ [ch] ∧ s.find (s.slot ch).confId = none ∧ s.confs.length = s.cfg.nConf) ∨
      ∃ o ∈ s.confs, o.id = (s.slot ch).confId ∧ o.members.length = s.cfg.maxMembers) →
    ∃ t evs, exec (.reconfigure ch) s = .next t ∧
      Answered s t { PlainOk (.reconfigure ch) with status := .resourceExhausted, events := evs } ∧
      t.cfg = s.cfg ∧ t.input = s.input ∧ OtherSlotsKept s t ch ∧ OtherConfsKept s t k.id ∧
      t.slot ch = { s.slot ch with conference := none } ∧
      (k.members = [ch] → t.find k.id = none ∧ evs = []) ∧
      (k.members ≠ [ch] → ∃ sol hw,
        Dispatched s { k with members := k.members.filter (fun o => o ≠ ch) } k.members (.removed ch) sol hw evs ∧
        t.find k.id =
          some { k with members := k.members.filter (fun o => o ≠ ch), solution := sol, hwId := hw })

/-- R157 case 1, R156: a move to another conference is a leave and then a join, in one command. It ends, whether the join
succeeds or not, in the state that two RECONFIGUREs end in, the first with the channel's `active` put to 0 and the second
with it put back, and answers the second one's status with the events of both, the leave's first. -/
def Obligations.MoveIsLeaveThenJoin : Prop :=
  ∀ (s : State) (ch : ChIx) (k : Conf), s.Inv → ch.toNat < s.cfg.nChan → (s.slot ch).valid = true →
    k ∈ s.confs → (s.slot ch).conference = some k.id →
    (s.slot ch).active = true → (s.slot ch).confId ≠ 0 → (s.slot ch).confId ≠ k.id →
    ∃ t₁ r₁ t₂ r₂,
      exec (.reconfigure ch) (s.setSlot ch { s.slot ch with active := false }) = .next t₁ ∧ Answered s t₁ r₁ ∧
      (t₁.slot ch).conference = none ∧
      exec (.reconfigure ch) (t₁.setSlot ch { t₁.slot ch with active := true }) = .next t₂ ∧ Answered t₁ t₂ r₂ ∧
      exec (.reconfigure ch) s =
        .next { t₂ with responses := s.responses ++ [{ r₂ with events := r₁.events ++ r₂.events }] }

/-- R157 cases 4 and 5: a RECONFIGURE that finds the channel in the conference it asks for (after a change of `tx_mix` or
`hw_id`, say) writes only the record's solution and hardware instance, and these and the events are those of R147 to R155
with nobody added or removed; one that finds a channel in no conference asking for none answers OK and writes nothing. -/
def Obligations.ReclassifyKeepsMembership : Prop :=
  ∀ (s : State) (ch : ChIx), s.Inv → ch.toNat < s.cfg.nChan → (s.slot ch).valid = true →
    (∀ k ∈ s.confs, (s.slot ch).conference = some k.id → (s.slot ch).active = true → (s.slot ch).confId = k.id →
      ∃ t sol hw evs, exec (.reconfigure ch) s = .next t ∧
        Answered s t { PlainOk (.reconfigure ch) with events := evs } ∧
        Dispatched s k k.members .none sol hw evs ∧
        t.cfg = s.cfg ∧ t.chan = s.chan ∧ t.input = s.input ∧ OtherConfsKept s t k.id ∧
        t.find k.id = some { k with solution := sol, hwId := hw }) ∧
    ((s.slot ch).conference = none → ((s.slot ch).active = false ∨ (s.slot ch).confId = 0) →
      exec (.reconfigure ch) s = .next (s.respond (PlainOk (.reconfigure ch))))

/-- R159: a second RECONFIGURE with nothing changed in between gives the same status, emits nothing and changes nothing. -/
def Obligations.ReconfigureIdempotent : Prop :=
  ∀ (s t : State) (ch : ChIx) (r : Response), s.Inv → ch.toNat < s.cfg.nChan → (s.slot ch).valid = true →
    exec (.reconfigure ch) s = .next t → Answered s t r →
    exec (.reconfigure ch) t = .next (t.respond { r with events := [] })

/-- R141, R142, R143: `Software` when there are fewer than two members, a member has `tx_mix`, a member has no hardware id
or two members differ in theirs; else `HWCrossconnect` for two members; else a unit 1 to 8 that no other conference on
that hardware holds (the current unit if the record already holds one there that is free, otherwise the lowest free one),
or `Software` if none of the eight is free. -/
def Obligations.ClassifierCases : Prop :=
  ∀ (s : State) (k : Conf) (h : HwId),
    let held : Nat → Prop := fun u => ∃ o ∈ s.confs, o.id ≠ k.id ∧ o.hwId = h ∧ o.solution = .hwConference u
    let onHardware : Prop :=
      2 ≤ k.members.length ∧ h ≠ 0 ∧ ∀ x ∈ k.members, (s.slot x).txMix = false ∧ (s.slot x).hwId = h
    ((¬∃ g, 2 ≤ k.members.length ∧ g ≠ 0 ∧ ∀ x ∈ k.members, (s.slot x).txMix = false ∧ (s.slot x).hwId = g) →
      classify s k = .software) ∧
    (onHardware → k.members.length = 2 → classify s k = .hwCrossconnect) ∧
    (onHardware → 3 ≤ k.members.length →
      (∀ u, k.solution = .hwConference u → k.hwId = h → ¬held u → classify s k = .hwConference u) ∧
      ((∀ u, k.solution = .hwConference u → k.hwId = h → held u) →
        (∀ u, 1 ≤ u → u ≤ 8 → ¬held u → (∀ v, 1 ≤ v → v < u → held v) → classify s k = .hwConference u) ∧
        ((∀ u, 1 ≤ u → u ≤ 8 → held u) → classify s k = .software)))

/-- The document's "Classifier monotonicity" (R144): a member with another hardware id demotes the conference to
`Software`. -/
def Obligations.MismatchedHardwareDemotes : Prop :=
  ∀ (s : State) (k : Conf) (x y : ChIx), x ∈ k.members → y ∈ k.members → (s.slot x).hwId ≠ (s.slot y).hwId →
    classify s k = .software

/-- R149 to R155: what a dispatch emits and stores. The pair (`new`, its hardware instance) is stored. When it changes,
the old solution is disabled for the members before, then the new one enabled for the members after; when it does not, a
member that joins or leaves a conference that stays on its unit is enabled or disabled. -/
def Obligations.DispatchEvents : Prop :=
  ∀ (s : State) (k : Conf) (before : List ChIx) (change : Change),
    (k.solution = .hwCrossconnect → before.length = 2) →
    ∃ t sol hw evs, dispatch s k before change = .ok (t, evs) ∧ Dispatched s k before change sol hw evs ∧
      t = s.setConf { k with solution := sol, hwId := hw }

/-! ### RECEIVE (43_receive.md) -/

/-- R171, on a valid slot: an empty frame raises `InvalidArgument`, a frame longer than `MAXLEN` raises `Busy` with
`DROP`; both leave every register and buffer unchanged, `largest` included. -/
def Obligations.ReceiveLengthChecks : Prop :=
  ∀ (s : State) (ch : ChIx) (frame : List Byte), ch.toNat < s.cfg.nChan → (s.slot ch).valid = true →
    (frame.length = 0 → Refuses (.receive ch frame) s .invalidArgument) ∧
    (s.cfg.buffSize / 2 / 4 < frame.length →
      exec (.receive ch frame) s =
        .next (s.respond { PlainOk (.receive ch frame) with status := .busy, drop := true }))

/-- R173, R172, R178, R181: a channel in no conference accepts every frame that passes the length checks. Its bytes stand
in `rx_buff` from the old `W_rx` on, every other byte is as before, `W_rx` advances by the length, `largest` is raised to
twice it; nothing else changes. -/
def Obligations.ReceiveSolo : Prop :=
  ∀ (s : State) (ch : ChIx) (frame : List Byte), s.Inv → ch.toNat < s.cfg.nChan → (s.slot ch).valid = true →
    (s.slot ch).conference = none → 0 < frame.length → frame.length ≤ s.cfg.maxLen →
    ∃ t rx, exec (.receive ch frame) s = .next t ∧ Answered s t (PlainOk (.receive ch frame)) ∧ SlotsOnly s t ∧
      OtherSlotsKept s t ch ∧
      t.slot ch = { s.slot ch with
        rxBuff := rx
        wRx := adv s.cfg.buffSize (s.slot ch).wRx frame.length
        largest := max (s.slot ch).largest (2 * frame.length) } ∧
      (∀ (n : Nat) b, frame[n]? = some b → rx.read (adv s.cfg.buffSize (s.slot ch).wRx n) = b) ∧
      ∀ j, j < s.cfg.buffSize → frame.length ≤ ringDist s.cfg.buffSize j (s.slot ch).wRx →
        rx.read j = (s.slot ch).rxBuff.read j

/-- R174, R175, R176: what RECEIVE computes for a member before it accepts or drops: `largest` of both raised to the
larger of the two and twice the length; the earliest of the new write index and the other members' (at or before all of
them, and one of them); the later of the new write index and the old `W_max`. Accepted when the window is at most
`largest`: the frame is stored and both leading indices move (R178, R181). Dropped otherwise, with `largest` and `W_min`
kept (R177). -/
def Obligations.ReceiveInConference : Prop :=
  ∀ (s : State) (ch : ChIx) (k : Conf) (frame : List Byte), s.Inv → ch.toNat < s.cfg.nChan →
    (s.slot ch).valid = true → k ∈ s.confs → (s.slot ch).conference = some k.id → 0 < frame.length →
    frame.length ≤ s.cfg.maxLen →
    let S := s.cfg.buffSize
    let m := max (max (s.slot ch).largest (2 * frame.length)) k.largest
    let wNew := adv S (s.slot ch).wRx frame.length
    let wMax := if ringDist S wNew k.wMax < S / 2 then wNew else k.wMax
    ∃ t wMin rx buff, wMin < S ∧ ahead S wNew wMin = true ∧
      (∀ o ∈ k.members, o ≠ ch → ahead S (s.slot o).wRx wMin = true) ∧
      (wMin = wNew ∨ ∃ o ∈ k.members, o ≠ ch ∧ wMin = (s.slot o).wRx) ∧
      exec (.receive ch frame) s = .next t ∧ t.cfg = s.cfg ∧ t.input = s.input ∧ OtherSlotsKept s t ch ∧
      OtherConfsKept s t k.id ∧
      (ringDist S wMax wMin ≤ m →
        Answered s t (PlainOk (.receive ch frame)) ∧
        t.slot ch = { s.slot ch with rxBuff := rx, wRx := wNew, largest := m } ∧
        t.find k.id = some { k with confBuff := buff, largest := m, wMin := wMin, wMax := wMax } ∧
        (∀ (n : Nat) b, frame[n]? = some b → rx.read (adv S (s.slot ch).wRx n) = b) ∧
        ∀ j, j < S → frame.length ≤ ringDist S j (s.slot ch).wRx → rx.read j = (s.slot ch).rxBuff.read j) ∧
      (m < ringDist S wMax wMin →
        Answered s t { PlainOk (.receive ch frame) with status := .busy, drop := true } ∧
        t.slot ch = { s.slot ch with largest := m } ∧
        t.find k.id = some { k with largest := m, wMin := wMin })

/-- R179, R180: the mix buffer after an accepted frame of a conference of three or more members. The cell at the index of
sample `n` is raised by the decoded sample while that index lies before the old `W_max`, and assigned from there on; every
other cell is as before; with fewer members no cell changes. -/
def Obligations.ReceiveMixBuffer : Prop :=
  ∀ (s t : State) (ch : ChIx) (k k' : Conf) (frame : List Byte), s.Inv → ch.toNat < s.cfg.nChan →
    (s.slot ch).valid = true → k ∈ s.confs → (s.slot ch).conference = some k.id → 0 < frame.length →
    frame.length ≤ s.cfg.maxLen → exec (.receive ch frame) s = .next t →
    Answered s t (PlainOk (.receive ch frame)) → t.find k.id = some k' →
    let S := s.cfg.buffSize
    let w := (s.slot ch).wRx
    (3 ≤ k.members.length →
      (∀ (n : Nat) b, frame[n]? = some b →
        (n < ringDist S k.wMax w →
          k'.confBuff.read (adv S w n) =
            wrap32 ((k.confBuff.read (adv S w n)).toInt + decLaw s.cfg (s.slot ch).law b)) ∧
        (ringDist S k.wMax w ≤ n → (k'.confBuff.read (adv S w n)).toInt = decLaw s.cfg (s.slot ch).law b)) ∧
      ∀ j, j < S → frame.length ≤ ringDist S j w → k'.confBuff.read j = k.confBuff.read j) ∧
    (k.members.length < 3 → k'.confBuff = k.confBuff)

/-! ### TRANSMIT (45_transmit.md) -/

/-- R222, R223, R224: TRANSMIT of a nonempty frame on a valid slot completes. With `free` places left, a frame that fits is
stored whole with status OK; a longer one has its first `free` bytes stored, `W_tx` ends one before `R_tx`, and the status
is `Busy` with `TRUNC`. Only `tx_buff` and `W_tx` of the slot are written. -/
def Obligations.TransmitResult : Prop :=
  ∀ (s : State) (ch : ChIx) (frame : List Byte), s.Inv → ch.toNat < s.cfg.nChan → (s.slot ch).valid = true →
    0 < frame.length →
    let S := s.cfg.buffSize
    let free := (((s.slot ch).rTx : Int) - (s.slot ch).wTx - 1) % S
    ∃ t tx, exec (.transmit ch frame) s = .next t ∧ SlotsOnly s t ∧ OtherSlotsKept s t ch ∧
      ((frame.length : Int) ≤ free →
        Answered s t (PlainOk (.transmit ch frame)) ∧
        t.slot ch = { s.slot ch with txBuff := tx, wTx := adv S (s.slot ch).wTx frame.length }) ∧
      (free < (frame.length : Int) →
        Answered s t { PlainOk (.transmit ch frame) with status := .busy, trunc := true } ∧
        t.slot ch = { s.slot ch with txBuff := tx, wTx := adv S (s.slot ch).rTx (-1) }) ∧
      (∀ n : Nat, ∀ b, frame[n]? = some b → (n : Int) < free → tx.read (adv S (s.slot ch).wTx n) = b) ∧
      ∀ j, j < S → (min (frame.length : Int) free ≤ (ringDist S j (s.slot ch).wTx : Int)) →
        tx.read j = (s.slot ch).txBuff.read j

/-- R221: an empty frame is refused. R222, R28: the number of queued bytes grows by the frame's length and never passes
`S − 1`. -/
def Obligations.TransmitQueueLength : Prop :=
  ∀ (s : State) (ch : ChIx) (frame : List Byte), s.Inv → ch.toNat < s.cfg.nChan → (s.slot ch).valid = true →
    (frame.length = 0 → Refuses (.transmit ch frame) s .invalidArgument) ∧
    (0 < frame.length → ∃ t, exec (.transmit ch frame) s = .next t ∧
      ringDist s.cfg.buffSize (t.slot ch).wTx (t.slot ch).rTx =
        min (ringDist s.cfg.buffSize (s.slot ch).wTx (s.slot ch).rTx + frame.length) (s.cfg.buffSize - 1))

/-! ### SEND and SEND_TONE (44_send.md) -/

/-- R190: on a valid slot a length of `BUFF_HALF` or more is refused, for SEND and for SEND_TONE (R196), and nothing is
written. (That the response carries no tag is the model's reading, log 5.) -/
def Obligations.SendRefusesLongRead : Prop :=
  ∀ (s : State) (ch : ChIx) (len : BitVec 16) (tag : Word) (tone : List Byte), ch.toNat < s.cfg.nChan →
    (s.slot ch).valid = true →
    (s.cfg.buffSize / 2 ≤ len.toNat → Refuses (.send ch len tag) s .invalidArgument) ∧
    (s.cfg.buffSize / 2 ≤ tone.length → Refuses (.sendTone ch tag tone) s .invalidArgument)

/-- R190, R191, R192, R193, R206, R207: SEND of fewer than `BUFF_HALF` bytes completes. It returns the tag and exactly
`len` bytes; `R_rx` becomes the unchanged limit when the read overruns it (`0 < dist(e, rr) < BUFF_HALF` for the end `e` of
the read) and the end of the read otherwise; `R_tx` advances by the queued bytes consumed; no buffer and nothing else is
written. -/
def Obligations.SendCompletes : Prop :=
  ∀ (s : State) (ch : ChIx) (len : BitVec 16) (tag : Word), s.Inv → ch.toNat < s.cfg.nChan →
    (s.slot ch).valid = true → len.toNat < s.cfg.buffSize / 2 →
    let S := s.cfg.buffSize
    let me := s.slot ch
    ∃ t out rr, exec (.send ch len tag) s = .next t ∧
      Answered s t { PlainOk (.send ch len tag) with tag := tag, payload := out } ∧ out.length = len.toNat ∧
      SlotsOnly s t ∧ OtherSlotsKept s t ch ∧
      (me.conference = none → rr = me.wRx) ∧ (∀ k ∈ s.confs, me.conference = some k.id → rr = k.wMin) ∧
      t.slot ch = { me with
        rRx := if 0 < ringDist S (adv S me.rRx len.toNat) rr ∧ ringDist S (adv S me.rRx len.toNat) rr < S / 2 then rr
          else adv S me.rRx len.toNat
        rTx := adv S me.rTx (min len.toNat (ringDist S me.wTx me.rTx)) }

/-- R195 to R204, byte by byte. Byte `n` of a completed SEND reads ring index `(rr' − len + n) mod S`, with `rr'` the
`R_rx` stored. While queued bytes last (`n` less than their number) and `tx_mix` is 0 it is the queued byte (X). Otherwise:
with at most one member it is, echo off, the queued byte or silence and, echo on, the mix of queued and own received byte
or the received byte itself (A); with two it is the mix of the peer's byte decoded with the peer's law, the own byte if
echo is on and the queued byte if there is one (B); with three or more the mix of the cell, less the own byte if echo is
off, and the queued byte if there is one (C). -/
def Obligations.SendProducesBytes : Prop :=
  ∀ (s t : State) (ch : ChIx) (len : BitVec 16) (tag : Word) (out : List Byte), s.Inv → ch.toNat < s.cfg.nChan →
    (s.slot ch).valid = true → len.toNat < s.cfg.buffSize / 2 → exec (.send ch len tag) s = .next t →
    Answered s t { PlainOk (.send ch len tag) with tag := tag, payload := out } →
    ∀ n, n < len.toNat →
      let S := s.cfg.buffSize
      let me := s.slot ch
      let ri := adv S (t.slot ch).rRx ((n : Int) - len.toNat)
      let own := decLaw s.cfg me.law (me.rxBuff.read ri)
      let queued := me.txBuff.read (adv S me.rTx n)
      let tx := decLaw s.cfg me.law queued
      let have_ := n < ringDist S me.wTx me.rTx
      (have_ → me.txMix = false → out[n]? = some queued) ∧
      (¬(have_ ∧ me.txMix = false) →
        ((me.conference = none ∨ ∃ k ∈ s.confs, me.conference = some k.id ∧ k.members.length = 1) →
          (me.echo = false → have_ → out[n]? = some queued) ∧
          (me.echo = false → ¬have_ → out[n]? = some (silLaw s.cfg me.law)) ∧
          (me.echo = true → have_ → out[n]? = some (mixLaw s.cfg me.law [tx, own])) ∧
          (me.echo = true → ¬have_ → out[n]? = some (me.rxBuff.read ri))) ∧
        (∀ k ∈ s.confs, ∀ o ∈ k.members, me.conference = some k.id → k.members.length = 2 → o ≠ ch →
          let peer := decLaw s.cfg (s.slot o).law ((s.slot o).rxBuff.read ri)
          out[n]? = some (encLaw s.cfg me.law
            (sat16 (peer + (if me.echo = true then own else 0) + (if have_ then tx else 0))))) ∧
        (∀ k ∈ s.confs, me.conference = some k.id → 3 ≤ k.members.length →
          out[n]? = some (encLaw s.cfg me.law
            (sat16 ((k.confBuff.read ri).toInt - (if me.echo = true then 0 else own) + (if have_ then tx else 0))))))

/-- The two solo properties of the document's §8 (R198): echo off with an empty tx queue gives exactly `len` silence
bytes; with enough queued it gives the queued bytes in order, verbatim. -/
def Obligations.SoloEchoOffOutput : Prop :=
  ∀ (s : State) (ch : ChIx) (len : BitVec 16) (tag : Word), s.Inv → ch.toNat < s.cfg.nChan →
    (s.slot ch).valid = true → len.toNat < s.cfg.buffSize / 2 → (s.slot ch).conference = none →
    (s.slot ch).echo = false →
    ∃ t, exec (.send ch len tag) s = .next t ∧
      ((s.slot ch).rTx = (s.slot ch).wTx →
        Answered s t { PlainOk (.send ch len tag) with
          tag := tag, payload := List.replicate len.toNat (silLaw s.cfg (s.slot ch).law) }) ∧
      (len.toNat ≤ ringDist s.cfg.buffSize (s.slot ch).wTx (s.slot ch).rTx →
        Answered s t { PlainOk (.send ch len tag) with
          tag := tag, payload := ringRead s.cfg.buffSize (s.slot ch).txBuff (s.slot ch).rTx len.toNat })

/-- R196: SEND_TONE of fewer than `BUFF_HALF` bytes completes: the tone is returned unchanged with the tag, `R_rx` moves as
SEND moves it, the tx queue is emptied by `R_tx <- W_tx`, nothing else is written. -/
def Obligations.SendToneResult : Prop :=
  ∀ (s : State) (ch : ChIx) (tag : Word) (tone : List Byte), s.Inv → ch.toNat < s.cfg.nChan →
    (s.slot ch).valid = true → tone.length < s.cfg.buffSize / 2 →
    let S := s.cfg.buffSize
    let me := s.slot ch
    ∃ t rr, exec (.sendTone ch tag tone) s = .next t ∧
      Answered s t { PlainOk (.sendTone ch tag tone) with tag := tag, payload := tone } ∧
      SlotsOnly s t ∧ OtherSlotsKept s t ch ∧
      (me.conference = none → rr = me.wRx) ∧ (∀ k ∈ s.confs, me.conference = some k.id → rr = k.wMin) ∧
      t.slot ch = { me with
        rRx := if 0 < ringDist S (adv S me.rRx tone.length) rr ∧ ringDist S (adv S me.rRx tone.length) rr < S / 2 then rr
          else adv S me.rRx tone.length
        rTx := me.wTx }

/-- R208: SEND and SEND_TONE read nothing of `solution`, `hw_id`, `W_max`, `largest` of a conference, nor of `largest`,
`active`, `conf_id`, `hw_id` or the decoder of a slot, nor of `W_rx` of a conference member. In two states that differ only in these (and in the bytes not yet
consumed) either command gives the same response, and states that again differ only in these. -/
def Obligations.SendIgnoresOffloadAndThresholds : Prop :=
  ∀ (i : Instr) (s s' t : State), (i.op = 6 ∨ i.op = 7) → s.sendView = s'.sendView → exec i s = .next t →
    ∃ t', exec i s' = .next t' ∧ t.sendView = t'.sendView

/-! ### DTMF (46_dtmf.md) -/

/-- R230, R48: DTMF_INIT on a valid slot completes: the decoder state is all zero and valid, nothing else changes. -/
def Obligations.DtmfInitResult : Prop :=
  ∀ (s : State) (ch : ChIx), s.chan.length = s.cfg.nChan → ch.toNat < s.cfg.nChan → (s.slot ch).valid = true →
    ∃ t d, exec (.dtmfInit ch) s = .next t ∧ Answered s t (PlainOk (.dtmfInit ch)) ∧ SlotsOnly s t ∧
      OtherSlotsKept s t ch ∧ t.slot ch = { s.slot ch with dtmfValid := true, dtmf := d } ∧
      d.size = 0 ∧ d.lastWhat = 0 ∧ d.lastDigit = 0 ∧ d.count = 0 ∧ ∀ j, d.buffer.read j = 0

/-- R231, R246, R248: DTMF_DECODE on a valid slot with an initialised decoder completes, whatever the format and the bytes.
It writes the slot's decoder state and nothing else; it returns at most `DIGITS_CAP` digits, each a code of the digit
matrix (R11); with hardware magnitudes `buffer` and `size` are untouched and `OVF_WARN` is not set; with no bytes nothing
changes. -/
def Obligations.DtmfDecodeCompletes : Prop :=
  ∀ (s : State) (ch : ChIx) (fmt : Fmt) (bytes : List Byte), s.chan.length = s.cfg.nChan →
    ch.toNat < s.cfg.nChan → (s.slot ch).valid = true → (s.slot ch).dtmfValid = true →
    ∃ t d digits warn, exec (.dtmfDecode ch fmt bytes) s = .next t ∧
      Answered s t { PlainOk (.dtmfDecode ch fmt bytes) with payload := digits, ovfWarn := warn } ∧
      SlotsOnly s t ∧ OtherSlotsKept s t ch ∧ t.slot ch = { s.slot ch with dtmf := d } ∧
      digits.length ≤ s.cfg.digitsCap ∧ (∀ b ∈ digits, b ∈ digitCodes ∧ b ≠ 0) ∧
      (fmt = .hfc → d.buffer = (s.slot ch).dtmf.buffer ∧ d.size = (s.slot ch).dtmf.size ∧ warn = false) ∧
      (bytes = [] → d = (s.slot ch).dtmf ∧ digits = [] ∧ warn = false)

/-- R231, R233, R234, R237: what one more byte does, A-law and μ-law. After a payload that left decoder `d`, digits and
warning, the payload with one byte `b` more stores `b` decoded at `buffer[size]`, every other element as before, and
raises `size` by one; if that fills the frame, the eight powers of `buffer[0 .. N−1]` are decided and debounced, `size`
returns to 0, and the warning is raised when any of the eight indicators is. (With no bytes nothing changes:
`DtmfDecodeCompletes`. The filter, the decision and the debounce have statements of their own.) -/
def Obligations.DtmfDecodeOneMoreByte : Prop :=
  ∀ (s t : State) (ch : ChIx) (fmt : Fmt) (law : Law) (bytes : List Byte) (b : Byte) (r : Response), s.Inv →
    ch.toNat < s.cfg.nChan → (s.slot ch).valid = true → ((fmt = .aLaw ∧ law = .a) ∨ (fmt = .uLaw ∧ law = .u)) →
    exec (.dtmfDecode ch fmt bytes) s = .next t → Answered s t r →
    let c := s.cfg
    let d := (t.slot ch).dtmf
    ∃ t' m, exec (.dtmfDecode ch fmt (bytes ++ [b])) s = .next t' ∧
      (m.read d.size).toInt = decLaw c law b ∧ (∀ j, j ≠ d.size → m.read j = d.buffer.read j) ∧
      (d.size + 1 ≠ c.nPoints →
        t'.slot ch = { s.slot ch with dtmf := { d with buffer := m, size := d.size + 1 } } ∧ Answered s t' r) ∧
      (d.size + 1 = c.nPoints →
        let bank := c.coef.toList.map fun k =>
          goertzel ((List.range c.nPoints).map fun i => (m.read i).toInt) k.toNat
        let q := debounce c.digitsCap { d with buffer := m, size := 0 }
          (decideDigit c.dtmfThresh (bank.map fun o => o.1)) r.payload
        t'.slot ch = { s.slot ch with dtmf := q.1 } ∧
        Answered s t' { PlainOk (.dtmfDecode ch fmt bytes) with
          payload := q.2, ovfWarn := r.ovfWarn || bank.any fun o => o.2 })

/-- R248: what one more chunk does, hardware magnitudes. After whole chunks that left decoder `d` and digits, 32 bytes more
are eight signed little-endian words, taken as the powers: they are decided and debounced, once; fewer than 32 bytes after
the last whole chunk change nothing. -/
def Obligations.DtmfDecodeOneMoreChunk : Prop :=
  ∀ (s t : State) (ch : ChIx) (bytes chunk extra : List Byte) (r : Response), s.Inv → ch.toNat < s.cfg.nChan →
    (s.slot ch).valid = true → bytes.length % 32 = 0 → chunk.length = 32 → extra.length < 32 →
    exec (.dtmfDecode ch .hfc bytes) s = .next t → Answered s t r →
    (∀ p : List Int, p.length = 8 →
      (∀ (k : Nat) (b0 b1 b2 b3 : Byte), k < 8 → chunk[4 * k]? = some b0 → chunk[4 * k + 1]? = some b1 →
        chunk[4 * k + 2]? = some b2 → chunk[4 * k + 3]? = some b3 →
        p[k]? = some (b3 ++ b2 ++ b1 ++ b0 : Word).toInt) →
      let q := debounce s.cfg.digitsCap (t.slot ch).dtmf (decideDigit s.cfg.dtmfThresh p) r.payload
      ∃ t', exec (.dtmfDecode ch .hfc (bytes ++ chunk ++ extra)) s = .next t' ∧
        t'.slot ch = { s.slot ch with dtmf := q.1 } ∧
        Answered s t' { PlainOk (.dtmfDecode ch .hfc bytes) with payload := q.2 }) ∧
    exec (.dtmfDecode ch .hfc (bytes ++ extra)) s = .next t

/-- R247: splitting a companded byte stream into two commands gives the same final decoder state, the same digits while
`DIGITS_CAP` does not bind, and a warning when either part warns. -/
def Obligations.DtmfSplitInvisible : Prop :=
  ∀ (c : Config) (fmt : Fmt) (one two : List Byte) (d : Dtmf), fmt ≠ .hfc →
    let a := dtmfPayload c fmt one ⟨d, [], false⟩
    let b := dtmfPayload c fmt two ⟨a.d, [], false⟩
    let whole := dtmfPayload c fmt (one ++ two) ⟨d, [], false⟩
    whole.d = b.d ∧ whole.warn = (a.warn || b.warn) ∧
      (a.digits.length + b.digits.length ≤ c.digitsCap → whole.digits = a.digits ++ b.digits)

/-- R235, R236, R237: for the sequence the rule defines (`f 0 = s_{−1} = 0`, `f 1 = s_0 = 0`, then
`s_n = floor(c·s_{n−1} / 32768) − s_{n−2} + x_n`) the filter gives the power of its last two values and the indicator that
some value exceeded 32767 in magnitude. -/
def Obligations.GoertzelFollowsRecurrence : Prop :=
  ∀ (xs : List Int) (c : Int) (f : Nat → Int), f 0 = 0 → f 1 = 0 →
    (∀ n (h : n < xs.length), f (n + 2) = (c * f (n + 1)) / 32768 - f n + xs[n]) →
    let N := xs.length
    (goertzel xs c).1 = f (N + 1) ^ 2 + f N ^ 2 - ((c * f (N + 1)) / 32768) * f N ∧
    ((goertzel xs c).2 = true ↔ ∃ n, 1 ≤ n ∧ n ≤ N ∧ 32767 < |f (n + 1)|)

/-- R239, R240, R241, R242: the decision on eight powers. With no power at or above the threshold it is 0. With `peak` the
largest of those that are: if no power lies in `[peak div 8, peak div 4)` and the powers at or above `peak div 4` are
exactly one of the low group and one of the high group, it is the matrix entry of the two; otherwise it is 0. -/
def Obligations.FrameDecision : Prop :=
  ∀ (thresh : Nat) (p : List Int), p.length = 8 →
    ((∀ v ∈ p, ¬((thresh : Int) ≤ v ∧ 0 ≤ v)) → decideDigit thresh p = 0) ∧
    ∀ peak ∈ p, (thresh : Int) ≤ peak → 0 ≤ peak → (∀ v ∈ p, (thresh : Int) ≤ v → 0 ≤ v → v ≤ peak) →
      ((∃ v ∈ p, peak / 8 ≤ v ∧ v < peak / 4) → decideDigit thresh p = 0) ∧
      (∀ lo hi, lo < 4 → 4 ≤ hi → hi < 8 → (∀ v ∈ p, ¬(peak / 8 ≤ v ∧ v < peak / 4)) →
        (∀ k v, p[k]? = some v → (peak / 4 ≤ v ↔ k = lo ∨ k = hi)) →
        decideDigit thresh p = digitAt lo (hi - 4)) ∧
      ((¬∃ lo hi, lo < 4 ∧ 4 ≤ hi ∧ hi < 8 ∧ ∀ k v, p[k]? = some v → (peak / 4 ≤ v ↔ k = lo ∨ k = hi)) →
        decideDigit thresh p = 0)

/-- R243: one debounce, field by field: `count` restarts when the decision differs from the last one; at count 2 a decision
that is not the last digit becomes it, and is appended if it is a digit and space remains; otherwise `count` grows by one,
up to 3; the decision becomes `last_what`. R244: a digit that differs from the last decision and from the last digit is
emitted on the third consecutive frame that decides it, once however long it lasts; two frames emit nothing; three
consecutive no-tone frames re-arm it. -/
def Obligations.DebounceThreeFrames : Prop :=
  (∀ (cap : Nat) (d : Dtmf) (w : Byte) (g : List Byte),
    let n := if w ≠ d.lastWhat then 0 else d.count.toNat
    let q := debounce cap d w g
    q.1.buffer = d.buffer ∧ q.1.size = d.size ∧ q.1.lastWhat = w ∧
    (n = 2 ∧ w ≠ d.lastDigit → q.1.count = 2 ∧ q.1.lastDigit = w ∧
      q.2 = if w ≠ 0 ∧ g.length < cap then g ++ [w] else g) ∧
    (¬(n = 2 ∧ w ≠ d.lastDigit) → q.1.count.toNat = min 3 (n + 1) ∧ q.1.lastDigit = d.lastDigit ∧ q.2 = g)) ∧
  ∀ (cap : Nat) (d : Dtmf) (w : Byte) (n : Nat), 0 < cap → w ≠ 0 → d.lastWhat ≠ w → d.lastDigit ≠ w →
    ((List.replicate n w).foldl (fun q what => debounce cap q.1 what q.2) (d, [])).2 =
      (if 3 ≤ n then [w] else []) ∧
    ∀ d', d'.lastWhat ≠ 0 → ((List.replicate 3 (0 : Byte)).foldl (fun q what => debounce cap q.1 what q.2)
      (d', [])).1.lastDigit = 0 ∧
      ((List.replicate 3 (0 : Byte)).foldl (fun q what => debounce cap q.1 what q.2) (d', [])).2 = []

/-! ### Whole-machine rules -/

/-- The invariant is kept by every step (R41, R42, R43, R44). -/
def Obligations.StepKeepsInvariant : Prop :=
  ∀ s t : State, s.Inv → step s = .next t → t.Inv

/-- In every state that meets the invariant a step answers a next state: the block never stops (R300, R271). -/
def Obligations.StepNeverStops : Prop :=
  ∀ s : State, s.Inv → ∃ t, step s = .next t

/-- R41, with no other premise: all ring indices stay below `BUFF_SIZE`. -/
def Obligations.StepKeepsPointersInRing : Prop :=
  ∀ s t : State, 0 < s.cfg.buffSize → s.PointersInRing → step s = .next t → t.PointersInRing

/-- R42, R44: in every state that meets the invariant `W_min` is not ahead of any member and `W_max` trails none, and any
two write indices of one conference are less than half a ring apart. -/
def Obligations.EnvelopeOrdersMembers : Prop :=
  ∀ s : State, s.Inv → ∀ k ∈ s.confs, ∀ m ∈ k.members,
    ahead s.cfg.buffSize (s.slot m).wRx k.wMin = true ∧ ahead s.cfg.buffSize k.wMax (s.slot m).wRx = true ∧
    ringDist s.cfg.buffSize (s.slot m).wRx k.wMin < s.cfg.buffSize / 2 ∧
    ∀ o ∈ k.members,
      ringDist s.cfg.buffSize (s.slot m).wRx (s.slot o).wRx < s.cfg.buffSize / 2 ∨
      ringDist s.cfg.buffSize (s.slot o).wRx (s.slot m).wRx < s.cfg.buffSize / 2

/-- R20 ("Mutation happens only via the reconfiguration entry point"), R73: in every state that meets the invariant every
command but RECONFIGURE leaves the registry's ids, member lists, solutions and hardware ids, and every slot's
`conference` but that of a slot CH_INIT resets, as they were. -/
def Obligations.OnlyReconfigureChangesMembership : Prop :=
  ∀ (i : Instr) (s t : State), s.Inv → i.op ≠ 3 → exec i s = .next t →
    t.confs.map (fun k => (k.id, k.members, k.solution, k.hwId)) =
      s.confs.map (fun k => (k.id, k.members, k.solution, k.hwId)) ∧
    ∀ ch : ChIx, (i.op = 1 → ch ≠ i.ch) → (t.slot ch).conference = (s.slot ch).conference

/-- R272: in every state that meets the invariant the statuses a command can answer with are those of the table:
`NotFound` and `Internal` never occur, `ResourceExhausted` only from RECONFIGURE, `Busy` only from RECEIVE and TRANSMIT. -/
def Obligations.StatusTable : Prop :=
  ∀ (i : Instr) (s t : State) (r : Response), s.Inv → exec i s = .next t → Answered s t r →
    r.status = .ok ∨ r.status = .invalidArgument ∨ (r.status = .resourceExhausted ∧ i.op = 3) ∨
      (r.status = .busy ∧ (i.op = 4 ∨ i.op = 5))

/-- R271, R276: a command answered with `InvalidArgument` has changed nothing: in every state that meets the invariant the
state after it is the state before plus the response. -/
def Obligations.InvalidArgumentChangesNothing : Prop :=
  ∀ (i : Instr) (s t : State) (r : Response), s.Inv → exec i s = .next t → Answered s t r →
    r.status = .invalidArgument → t = s.respond r

/-- R40: no step writes the configuration; a step only consumes the command stream, from its head; and it never takes a
response back (R88, R68). -/
def Obligations.StepFrame : Prop :=
  ∀ s t : State, step s = .next t →
    t.cfg = s.cfg ∧ t.chan.length = s.chan.length ∧ (∃ n, t.input = s.input.drop n) ∧
      (decode s.input = .incomplete → t = s) ∧
      (decode s.input ≠ .incomplete → ∃ r, Answered s t r)

/-- Commands touch only their own slot (R61): every command leaves every slot but the one it names as it was. -/
def Obligations.OtherSlotsUntouched : Prop :=
  ∀ (i : Instr) (s t : State), exec i s = .next t → OtherSlotsKept s t i.ch
end

