-- ==== Sys2Proof/Laws/Ring.lean ====
section
/-! SUPPORT. Ring arithmetic in a form linear arithmetic can use: `adv` and `ringDist` without `mod` for indices below
`BUFF_SIZE`. -/

namespace Sys2Proof.Machine

theorem adv_lt {S : Nat} (hS : 0 < S) (i : Nat) (n : Int) : adv S i n < S := by
  have h1 := Int.emod_nonneg ((i : Int) + n) (b := (S : Int)) (by omega)
  have h2 := Int.emod_lt_of_pos ((i : Int) + n) (b := (S : Int)) (by omega)
  unfold adv; omega

theorem dist_lt {S : Nat} (hS : 0 < S) (a b : Nat) : ringDist S a b < S := by
  have h1 := Int.emod_nonneg ((a : Int) - b) (b := (S : Int)) (by omega)
  have h2 := Int.emod_lt_of_pos ((a : Int) - b) (b := (S : Int)) (by omega)
  unfold ringDist; omega

/-- `adv` as an exact integer: the index plus `n`, reduced. -/
theorem adv_cast {S : Nat} (hS : 0 < S) (i : Nat) (n : Int) : (adv S i n : Int) = ((i : Int) + n) % (S : Int) :=
  Int.toNat_of_nonneg (Int.emod_nonneg _ (by omega))

/-- `ringDist` as an exact integer. -/
theorem dist_cast {S : Nat} (hS : 0 < S) (a b : Nat) : (ringDist S a b : Int) = ((a : Int) - b) % (S : Int) :=
  Int.toNat_of_nonneg (Int.emod_nonneg _ (by omega))

/-- Advancing by at most one lap. -/
theorem adv_nat {S i n : Nat} (hi : i < S) (hn : n ≤ S) : adv S i n = if i + n < S then i + n else i + n - S := by
  have hS : 0 < S := by omega
  have h := adv_cast hS i n
  split
  · rw [Int.emod_eq_of_lt (by omega) (by omega)] at h; omega
  · have e : ((i : Int) + n) % (S : Int) = (i + n - S : Int) := by
      rw [← Int.sub_emod_right, Int.emod_eq_of_lt (by omega) (by omega)]
    omega

/-- Going back by at most one lap. -/
theorem adv_neg {S i n : Nat} (hi : i < S) (hn : n ≤ S) :
    adv S i (-(n : Int)) = if n ≤ i then i - n else i + S - n := by
  have hS : 0 < S := by omega
  have h := adv_cast hS i (-(n : Int))
  split
  · rw [Int.emod_eq_of_lt (by omega) (by omega)] at h; omega
  · have e : ((i : Int) + -(n : Int)) % (S : Int) = (i + S - n : Int) := by
      rw [← Int.add_emod_right, Int.emod_eq_of_lt (by omega) (by omega)]; omega
    omega

/-- The distance between two ring indices. -/
theorem dist_nat {S a b : Nat} (ha : a < S) (hb : b < S) : ringDist S a b = if b ≤ a then a - b else a + S - b := by
  have hS : 0 < S := by omega
  have h := dist_cast hS a b
  split
  · rw [Int.emod_eq_of_lt (by omega) (by omega)] at h; omega
  · have e : ((a : Int) - b) % (S : Int) = (a + S - b : Int) := by
      rw [← Int.add_emod_right, Int.emod_eq_of_lt (by omega) (by omega)]; omega
    omega

/-- Successive advances add up. -/
theorem adv_adv {S : Nat} (hS : 0 < S) (i : Nat) (n m : Int) : adv S (adv S i n) m = adv S i (n + m) := by
  have h1 := adv_cast hS (adv S i n) m
  have h2 := adv_cast hS i (n + m)
  rw [adv_cast hS i n, Int.emod_add_emod, Int.add_assoc] at h1
  omega

theorem adv_zero {S i : Nat} (hi : i < S) : adv S i 0 = i := by
  have := adv_nat hi (Nat.zero_le S); simp at this; rw [this]; simp [hi]

theorem later_lt {S a b : Nat} (ha : a < S) (hb : b < S) : later S a b < S := by
  unfold later; split <;> assumption

end Sys2Proof.Machine
end

