-- ==== Sys2Proof/Laws/Memory.lean ====
section
/-! SUPPORT. The memories: a read after a write, every operation keeps the canonical form, and equal contents are equal
data. -/

namespace Sys2Proof.Machine

/-- Cells strictly above an index do not list it. -/
theorem cellsRead_above {α : Type} {d : α} {l : List (Nat × α)} {i : Nat} (h : ∀ p ∈ l, i < p.1) : cellsRead d l i = d := by
  induction l with
  | nil => rfl
  | cons p t ih =>
    have hp := h p (by simp)
    have : i ≠ p.1 := by omega
    simp only [cellsRead, this, if_false]
    exact ih fun q hq => h q (by simp [hq])

variable {α : Type} [DecidableEq α]

theorem cellsRead_write {d : α} {l : List (Nat × α)} (h : l.Pairwise fun x y => x.1 < y.1) (i j : Nat) (v : α) :
    cellsRead d (cellsWrite d l i v) j = if j = i then v else cellsRead d l j := by
  induction l with
  | nil =>
    by_cases hv : v = d <;> by_cases hj : j = i <;> simp [cellsWrite, cellsRead, hv, hj]
  | cons p t ih =>
    obtain ⟨k, w⟩ := p
    rw [List.pairwise_cons] at h
    have above : cellsRead d t k = d := cellsRead_above h.1
    simp only [cellsWrite]
    split
    · rename_i hik
      have top : cellsRead d ((k, w) :: t) i = d :=
        cellsRead_above (by
          intro q hq
          rcases List.mem_cons.mp hq with rfl | hq
          · exact hik
          · exact hik.trans (h.1 q hq))
      by_cases hv : v = d
      · by_cases hj : j = i
        · subst hj; simp [hv, top]
        · simp [hv, hj]
      · by_cases hj : j = i <;> simp [hv, hj, cellsRead]
    · split
      · rename_i hik; subst hik
        by_cases hv : v = d
        · by_cases hj : j = i
          · subst hj; simp [hv, above]
          · simp [hv, hj, cellsRead]
        · by_cases hj : j = i <;> simp [hv, hj, cellsRead]
      · rename_i h1 h2
        simp only [cellsRead]
        by_cases hj : j = k
        · subst hj; simp [Ne.symm h2]
        · simp [hj, ih h.2]

theorem cellsWrite_mem {d : α} {l : List (Nat × α)} {i : Nat} {v : α} {p : Nat × α} (hp : p ∈ cellsWrite d l i v) :
    p ∈ l ∨ (p = (i, v) ∧ v ≠ d) := by
  induction l with
  | nil => simp only [cellsWrite] at hp; split at hp <;> simp_all
  | cons q t ih =>
    obtain ⟨k, w⟩ := q
    simp only [cellsWrite] at hp
    split at hp
    · split at hp
      · exact .inl hp
      · rcases List.mem_cons.mp hp with h | h
        · exact .inr ⟨h, ‹_›⟩
        · exact .inl h
    · split at hp
      · split at hp
        · exact .inl (List.mem_cons_of_mem _ hp)
        · rcases List.mem_cons.mp hp with h | h
          · exact .inr ⟨h, ‹_›⟩
          · exact .inl (List.mem_cons_of_mem _ h)
      · rcases List.mem_cons.mp hp with h | h
        · exact .inl (by simp [h])
        · rcases ih h with h | h
          · exact .inl (List.mem_cons_of_mem _ h)
          · exact .inr h

theorem cellsWrite_sorted {d : α} {l : List (Nat × α)} (h : l.Pairwise fun x y => x.1 < y.1) (i : Nat) (v : α) :
    (cellsWrite d l i v).Pairwise fun x y => x.1 < y.1 := by
  induction l with
  | nil => simp only [cellsWrite]; split <;> simp
  | cons q t ih =>
    obtain ⟨k, w⟩ := q
    have h' := List.pairwise_cons.mp h
    simp only [cellsWrite]
    split
    · rename_i hik
      split
      · exact h
      · refine List.pairwise_cons.mpr ⟨fun p hp => ?_, h⟩
        rcases List.mem_cons.mp hp with rfl | hp
        · exact hik
        · exact hik.trans (h'.1 p hp)
    · split
      · rename_i hik; subst hik
        split
        · exact h'.2
        · exact List.pairwise_cons.mpr ⟨h'.1, h'.2⟩
      · refine List.pairwise_cons.mpr ⟨fun p hp => ?_, ih h'.2⟩
        rcases cellsWrite_mem hp with h | ⟨rfl, -⟩
        · exact h'.1 p h
        · simp; omega

@[simp] theorem Mem.fill_write (m : Mem α) (i : Nat) (v : α) : (m.write i v).fill = m.fill := rfl

omit [DecidableEq α] in
@[simp] theorem Mem.read_filled (v : α) (i : Nat) : (Mem.filled v).read i = v := rfl

/-- A read after a write of one element. -/
theorem Mem.read_write {n : Nat} {m : Mem α} (h : m.wf n) (i j : Nat) (v : α) :
    (m.write i v).read j = if j = i then v else m.read j := cellsRead_write h.1 i j v

omit [DecidableEq α] in
/-- A filled memory is in canonical form. -/
theorem Mem.wf_filled (n : Nat) (v : α) : (Mem.filled v).wf n := ⟨List.Pairwise.nil, fun _ hp => absurd hp List.not_mem_nil⟩

/-- A write keeps the canonical form. -/
theorem Mem.wf_write {n : Nat} {m : Mem α} (h : m.wf n) {i : Nat} (hi : i < n) (v : α) : (m.write i v).wf n := by
  refine ⟨cellsWrite_sorted h.1 i v, fun p hp => ?_⟩
  rcases cellsWrite_mem hp with h' | ⟨rfl, hv⟩
  · exact h.2 p h'
  · exact ⟨hi, hv⟩

omit [DecidableEq α] in
/-- Two memories in canonical form with the same fill value and the same elements are the same data. -/
theorem Mem.eq_of_read {n : Nat} {m m' : Mem α} (h : m.wf n) (h' : m'.wf n) (hf : m.fill = m'.fill)
    (hr : ∀ i, m.read i = m'.read i) : m = m' := by
  obtain ⟨f, l⟩ := m
  obtain ⟨f', l'⟩ := m'
  obtain rfl : f = f' := hf
  suffices l = l' by rw [this]
  simp only [Mem.read, Mem.wf] at *
  replace h := And.intro h.1 fun p hp => (h.2 p hp).2
  replace h' := And.intro h'.1 fun p hp => (h'.2 p hp).2
  induction l generalizing l' with
  | nil =>
    cases l' with
    | nil => rfl
    | cons p t =>
      have := hr p.1
      simp [cellsRead] at this
      exact absurd this.symm (h'.2 p (by simp))
  | cons q t ih =>
    have hq := List.pairwise_cons.mp h.1
    cases l' with
    | nil =>
      have := hr q.1
      simp [cellsRead] at this
      exact absurd this (h.2 q (by simp))
    | cons p t' =>
      have hp := List.pairwise_cons.mp h'.1
      have key : q.1 = p.1 := by
        rcases Nat.lt_trichotomy q.1 p.1 with hlt | heq | hlt
        · have e := hr q.1
          rw [cellsRead_above (l := p :: t')
            (by intro r hr'; rcases List.mem_cons.mp hr' with rfl | hr'
                · exact hlt
                · exact hlt.trans (hp.1 r hr'))] at e
          simp [cellsRead] at e
          exact absurd e (h.2 q (by simp))
        · exact heq
        · have e := hr p.1
          rw [cellsRead_above (l := q :: t)
            (by intro r hr'; rcases List.mem_cons.mp hr' with rfl | hr'
                · exact hlt
                · exact hlt.trans (hq.1 r hr'))] at e
          simp [cellsRead] at e
          exact absurd e.symm (h'.2 p (by simp))
      have val : q.2 = p.2 := by
        have e := hr q.1
        simpa [cellsRead, key] using e
      have tails : t = t' := by
        refine ih t' (fun i => ?_) ⟨hq.2, fun r hr' => h.2 r (by simp [hr'])⟩
          ⟨hp.2, fun r hr' => h'.2 r (by simp [hr'])⟩
        have e := hr i
        by_cases hi : i = q.1
        · rw [cellsRead_above (l := t) (by rw [hi]; exact hq.1),
            cellsRead_above (l := t') (by rw [hi, key]; exact hp.1)]
        · have hi' : i ≠ p.1 := by rw [← key]; exact hi
          simpa [cellsRead, hi, hi'] using e
      rw [tails, Prod.ext key val]

/-- A ring write keeps the canonical form. -/
theorem ringWrite_wf {S : Nat} (hS : 0 < S) (vs : List α) {m : Mem α} (h : m.wf S) (i : Nat) :
    (ringWrite S m i vs).wf S := by
  induction vs generalizing m i with
  | nil => exact h
  | cons v vs ih => exact ih (Mem.wf_write h (adv_lt hS _ _) v) _

/-- What a ring write of at most one lap leaves at each index: the written element where the index is reached, the old
element elsewhere. -/
theorem ringWrite_read {S : Nat} (vs : List α) {m : Mem α} (h : m.wf S) {i j : Nat} (hi : i < S) (hj : j < S)
    (hl : vs.length ≤ S) :
    (ringWrite S m i vs).read j = (vs[ringDist S j i]?).getD (m.read j) := by
  have hS : 0 < S := by omega
  induction vs generalizing m i with
  | nil => simp [ringWrite]
  | cons v vs ih =>
    have hl' : vs.length + 1 ≤ S := by simpa using hl
    have ha := adv_zero hi
    rw [ringWrite, ih (Mem.wf_write h (adv_lt hS _ _) v) (adv_lt hS _ _) (by omega), ha, Mem.read_write h]
    have e1 : adv S i 1 = if i + 1 < S then i + 1 else i + 1 - S := adv_nat (n := 1) hi (by omega)
    have hlt := adv_lt hS i 1
    have d1 := dist_nat hj hi
    have d2 := dist_nat hj hlt
    by_cases hji : j = i
    · subst hji
      have d0 : ringDist S j j = 0 := by rw [d1]; simp
      have : vs.length ≤ ringDist S j (adv S j 1) := by
        rw [d2, e1]; split_ifs <;> omega
      simp [d0, List.getElem?_eq_none this]
    · have : ringDist S j i = ringDist S j (adv S i 1) + 1 := by
        rw [d1, d2, e1]; split_ifs <;> omega
      simp [hji, this]

end Sys2Proof.Machine
end

