-- ==== Sys2Proof/Laws/Dtmf.lean ====
section
/-! SUPPORT. The DTMF decoder: what a decision and a sample leave alone, the fill level stays below a frame, digits come
from the matrix and stay within the capacity, and bytes can be split. -/

namespace Sys2Proof.Machine

variable {c : Config}

/-! ### Debounce and decision -/

/-- The debounce writes only its three fields. -/
theorem debounce_frame (cap : Nat) (d : Dtmf) (w : Byte) (g : List Byte) :
    (debounce cap d w g).1.buffer = d.buffer ∧ (debounce cap d w g).1.size = d.size := by
  unfold debounce
  simp only
  generalize (if w ≠ d.lastWhat then 0 else d.count) = n
  split <;> exact ⟨rfl, rfl⟩

/-- The debounce appends at most the digit decided. -/
theorem debounce_digits (cap : Nat) (d : Dtmf) (w : Byte) (g : List Byte) :
    (debounce cap d w g).2 = g ∨ (w ≠ 0 ∧ g.length < cap ∧ (debounce cap d w g).2 = g ++ [w]) := by
  unfold debounce
  simp only
  generalize (if w ≠ d.lastWhat then 0 else d.count) = n
  split
  · unfold emitDigit
    split
    · exact .inr ⟨(‹_ ∧ _›).1, (‹_ ∧ _›).2, rfl⟩
    · exact .inl rfl
  · exact .inl rfl

/-- A decision is no tone or a code of the matrix (R11, R242). -/
theorem decideDigit_mem (thresh : Nat) (p : List Int) : decideDigit thresh p = 0 ∨ decideDigit thresh p ∈ digitCodes := by
  unfold decideDigit
  split
  · exact .inl rfl
  · simp only
    split
    · exact .inl rfl
    · split
      · rename_i lo hi _ _
        unfold digitAt
        rw [List.getD_eq_getElem?_getD]
        cases h : digitCodes[4 * lo + (hi - 4)]? with
        | none => exact .inl rfl
        | some b => exact .inr (List.mem_of_getElem? h)
      · exact .inl rfl

/-- What holds of the digits of one command (R246). -/
def DigitsOk (c : Config) (g : List Byte) : Prop := g.length ≤ c.digitsCap ∧ ∀ b ∈ g, b ∈ digitCodes ∧ b ≠ 0

theorem DtmfRun.decided_ok (c : Config) (r : DtmfRun) (p : List Int) (h : DigitsOk c r.digits) :
    DigitsOk c (r.decided c p).digits ∧ (r.decided c p).d.buffer = r.d.buffer ∧ (r.decided c p).d.size = r.d.size ∧
      (r.decided c p).warn = r.warn := by
  refine ⟨?_, (debounce_frame _ _ _ _).1, (debounce_frame _ _ _ _).2, rfl⟩
  have : (r.decided c p).digits = (debounce c.digitsCap r.d (decideDigit c.dtmfThresh p) r.digits).2 := rfl
  rw [this]
  rcases debounce_digits c.digitsCap r.d (decideDigit c.dtmfThresh p) r.digits with h' | ⟨h1, h2, h3⟩
  · rw [h']; exact h
  · rw [h3]
    refine ⟨by simpa using h2, fun b hb => ?_⟩
    rcases List.mem_append.mp hb with hb | hb
    · exact h.2 b hb
    · rw [List.mem_singleton.mp hb]
      rcases decideDigit_mem c.dtmfThresh p with h' | h'
      · exact absurd h' h1
      · exact ⟨h', h1⟩

/-! ### Samples and bytes -/

/-- What holds of a decoder state between bytes (R37): canonical buffer, fill level below a frame. -/
def Dtmf.Ok (c : Config) (d : Dtmf) : Prop := d.buffer.wf c.nPoints ∧ d.size < c.nPoints

/-- One sample keeps the decoder and its digits in order. -/
theorem DtmfRun.sample_ok (r : DtmfRun) (v : Int) (h : DigitsOk c r.digits) :
    DigitsOk c (r.sample c v).digits ∧ (r.d.Ok c → (r.sample c v).d.Ok c) := by
  unfold DtmfRun.sample
  simp only
  split
  · rename_i hf
    unfold DtmfRun.frame
    simp only
    refine ⟨(DtmfRun.decided_ok c _ _ (by exact h)).1, fun ok => ?_⟩
    have hd := DtmfRun.decided_ok c
      ({ d := { r.d with buffer := r.d.buffer.write r.d.size (BitVec.ofInt 16 v), size := 0 }
         digits := r.digits
         warn := r.warn || (goertzelBank c (frameSamples c.nPoints
           { r.d with buffer := r.d.buffer.write r.d.size (BitVec.ofInt 16 v), size := r.d.size + 1 })).any (·.2) } : DtmfRun)
      ((goertzelBank c (frameSamples c.nPoints
           { r.d with buffer := r.d.buffer.write r.d.size (BitVec.ofInt 16 v), size := r.d.size + 1 })).map (·.1)) h
    unfold Dtmf.Ok
    rw [hd.2.1, hd.2.2.1]
    exact ⟨Mem.wf_write ok.1 ok.2 _, by simp; omega⟩
  · rename_i hf
    refine ⟨h, fun ok => ⟨Mem.wf_write ok.1 ok.2 _, ?_⟩⟩
    have := ok.2
    simp only; omega

theorem dtmfBytes_ok (law : Law) (bs : List Byte) (r : DtmfRun) (h : DigitsOk c r.digits) :
    DigitsOk c (dtmfBytes c law bs r).digits ∧ (r.d.Ok c → (dtmfBytes c law bs r).d.Ok c) := by
  induction bs generalizing r with
  | nil => exact ⟨h, id⟩
  | cons b bs ih =>
    have h1 := DtmfRun.sample_ok r (decLaw c law b) h
    have h2 := ih _ h1.1
    exact ⟨h2.1, fun ok => h2.2 (h1.2 ok)⟩

/-- Hardware magnitudes leave the sample buffer and its fill level alone and set no warning (R248). -/
theorem hfcChunks_ok (n : Nat) (bs : List Byte) (r : DtmfRun) (h : DigitsOk c r.digits) :
    DigitsOk c (hfcChunks c n bs r).digits ∧ (hfcChunks c n bs r).d.buffer = r.d.buffer ∧
      (hfcChunks c n bs r).d.size = r.d.size ∧ (hfcChunks c n bs r).warn = r.warn := by
  induction n generalizing bs r with
  | zero => exact ⟨h, rfl, rfl, rfl⟩
  | succ n ih =>
    obtain ⟨h1, h2, h3, h4⟩ := DtmfRun.decided_ok c r (chunkBins 8 bs) h
    obtain ⟨g1, g2, g3, g4⟩ := ih (bs.drop 32) _ h1
    exact ⟨g1, g2.trans h2, g3.trans h3, g4.trans h4⟩

/-- A payload keeps the decoder and its digits in order, in every format. -/
theorem dtmfPayload_ok (fmt : Fmt) (bs : List Byte) (r : DtmfRun) (h : DigitsOk c r.digits) :
    DigitsOk c (dtmfPayload c fmt bs r).digits ∧ (r.d.Ok c → (dtmfPayload c fmt bs r).d.Ok c) := by
  cases fmt with
  | aLaw => exact dtmfBytes_ok _ _ _ h
  | uLaw => exact dtmfBytes_ok _ _ _ h
  | hfc =>
    obtain ⟨h1, h2, h3, -⟩ := hfcChunks_ok (c := c) (bs.length / 32) bs r h
    exact ⟨h1, fun ok => by unfold Dtmf.Ok at *; simp only [dtmfPayload]; rw [h2, h3]; exact ok⟩

/-- A byte stream is decoded part by part (R247). -/
theorem dtmfBytes_append (law : Law) (a b : List Byte) (r : DtmfRun) :
    dtmfBytes c law (a ++ b) r = dtmfBytes c law b (dtmfBytes c law a r) := by
  induction a generalizing r with
  | nil => rfl
  | cons x a ih => exact ih _

/-- The filter loop from two known values of the recurrence (R235): it ends at the last two, with the indicator that some
new value exceeded 32767 in magnitude (R237). -/
theorem goertzelLoop_eq (c : Int) (xs : List Int) (f : Nat → Int) (k : Nat) (w : Bool)
    (h : ∀ n (h : n < xs.length), f (k + n + 2) = (c * f (k + n + 1)) / 32768 - f (k + n) + xs[n]) :
    goertzelLoop c xs (f (k + 1)) (f k) w =
      (f (k + xs.length + 1), f (k + xs.length),
        w || decide (∃ n, n < xs.length ∧ 32767 < |f (k + n + 2)|)) := by
  induction xs generalizing k w with
  | nil => simp [goertzelLoop]
  | cons x xs ih =>
    have h0 := h 0 (by simp)
    simp only [Nat.add_zero, List.getElem_cons_zero] at h0
    have shift : (c * f (k + 1)) >>> (15 : Nat) = c * f (k + 1) / 32768 := by rw [Int.shiftRight_eq_div_pow]; rfl
    simp only [goertzelLoop, shift]
    rw [← h0]
    have tail := ih (k + 1) (w || decide (32767 < (f (k + 2)).natAbs)) (by
      intro n hn
      have := h (n + 1) (by simpa using hn)
      simp only [List.getElem_cons_succ] at this
      rw [show k + 1 + n + 2 = k + (n + 1) + 2 by ring, show k + 1 + n + 1 = k + (n + 1) + 1 by ring,
        show k + 1 + n = k + (n + 1) by ring]
      exact this)
    rw [show k + 2 = k + 1 + 1 by ring] at tail ⊢
    rw [tail, List.length_cons, show k + 1 + xs.length + 1 = k + (xs.length + 1) + 1 by ring,
      show k + 1 + xs.length = k + (xs.length + 1) by ring]
    congr 2
    rw [Bool.or_assoc]
    congr 1
    rw [Bool.eq_iff_iff]
    simp only [Bool.or_eq_true, decide_eq_true_eq]
    constructor
    · rintro (h | ⟨n, hn, h⟩)
      · refine ⟨0, by omega, ?_⟩
        rw [Int.abs_eq_natAbs]
        simp only [Nat.add_zero] at h ⊢
        exact_mod_cast h
      · exact ⟨n + 1, by omega, by rw [show k + (n + 1) + 2 = k + 1 + n + 2 by ring]; exact h⟩
    · rintro ⟨n, hn, h⟩
      rcases n with _ | n
      · left
        rw [Int.abs_eq_natAbs] at h
        simp only [Nat.add_zero] at h ⊢
        exact_mod_cast h
      · exact .inr ⟨n, by omega, by rw [show k + 1 + n + 2 = k + (n + 1) + 2 by ring]; exact h⟩

/-- Exactly one of four indices passes a test. -/
theorem filter_range4 (lo k : Nat) (q : Nat → Bool) :
    (List.range' lo 4).filter q = [k] ↔
      lo ≤ k ∧ k < lo + 4 ∧ ∀ j, lo ≤ j → j < lo + 4 → (q j = true ↔ j = k) := by
  constructor
  · intro h
    have hk : k ∈ (List.range' lo 4).filter q := by rw [h]; simp
    simp only [List.mem_filter, List.mem_range'] at hk
    obtain ⟨⟨i, hi, rfl⟩, hq⟩ := hk
    refine ⟨by omega, by omega, fun j h1 h2 => ⟨fun hj => ?_, fun e => e ▸ hq⟩⟩
    have hm : j ∈ (List.range' lo 4).filter q := by
      simp only [List.mem_filter, List.mem_range', hj, and_true]
      exact ⟨j - lo, by omega, by omega⟩
    rw [h] at hm
    simpa using hm
  · rintro ⟨h1, h2, h⟩
    have at_ : ∀ j, lo ≤ j → j < lo + 4 → q j = decide (j = k) := by
      intro j a b
      rw [Bool.eq_iff_iff, h j a b]
      simp
    have e : List.range' lo 4 = [lo, lo + 1, lo + 2, lo + 3] := rfl
    have which : k = lo ∨ k = lo + 1 ∨ k = lo + 2 ∨ k = lo + 3 := by omega
    simp only [e, List.filter, at_ lo (by omega) (by omega), at_ (lo + 1) (by omega) (by omega),
      at_ (lo + 2) (by omega) (by omega), at_ (lo + 3) (by omega) (by omega)]
    rcases which with rfl | rfl | rfl | rfl <;> simp

end Sys2Proof.Machine
end

