-- ==== Sys2Proof/Laws/Encoding.lean ====
section
/-! SUPPORT. Words and their bytes, header fields and the header word, and the decoder on two whole header words. -/

namespace Sys2Proof

/-- Four bytes of a word put together again. -/
theorem wordOfBytes_bytes (w : Word) :
    wordOfBytes (w.extractLsb' 0 8) (w.extractLsb' 8 8) (w.extractLsb' 16 8) (w.extractLsb' 24 8) = w := by
  apply BitVec.eq_of_getLsbD_eq
  intro i hi
  simp only [wordOfBytes, BitVec.getLsbD_append, BitVec.getLsbD_extractLsb']
  interval_cases i <;> simp

/-- The bytes of a word made of four bytes. -/
theorem bytesOfWord_wordOfBytes (b0 b1 b2 b3 : Byte) : bytesOfWord (wordOfBytes b0 b1 b2 b3) = [b0, b1, b2, b3] := by
  simp only [bytesOfWord, List.cons.injEq, and_true]
  refine ⟨?_, ?_, ?_, ?_⟩ <;>
  · apply BitVec.eq_of_getLsbD_eq
    intro i hi
    simp only [wordOfBytes, BitVec.getLsbD_append, BitVec.getLsbD_extractLsb']
    interval_cases i <;> simp

theorem headerOp_headerWord (op : BitVec 4) (ch : ChIx) (arg : BitVec 16) : headerOp (headerWord op ch arg) = op := by
  apply BitVec.eq_of_getLsbD_eq
  intro i hi
  simp only [headerOp, headerWord, BitVec.getLsbD_append, BitVec.getLsbD_extractLsb']
  interval_cases i <;> simp

theorem headerCh_headerWord (op : BitVec 4) (ch : ChIx) (arg : BitVec 16) : headerCh (headerWord op ch arg) = ch := by
  apply BitVec.eq_of_getLsbD_eq
  intro i hi
  simp only [headerCh, headerWord, BitVec.getLsbD_append, BitVec.getLsbD_extractLsb']
  interval_cases i <;> simp

theorem headerArg_headerWord (op : BitVec 4) (ch : ChIx) (arg : BitVec 16) :
    headerArg (headerWord op ch arg) = arg := by
  apply BitVec.eq_of_getLsbD_eq
  intro i hi
  simp only [headerArg, headerWord, BitVec.getLsbD_append, BitVec.getLsbD_extractLsb']
  interval_cases i <;> simp

/-- A header word is made of its three fields. -/
theorem headerWord_fields (w : Word) : headerWord (headerOp w) (headerCh w) (headerArg w) = w := by
  apply BitVec.eq_of_getLsbD_eq
  intro i hi
  simp only [headerOp, headerCh, headerArg, headerWord, BitVec.getLsbD_append, BitVec.getLsbD_extractLsb']
  interval_cases i <;> simp

/-- The decoder on the bytes of two header words. -/
theorem decode_words (w0 w1 : Word) (l : List Byte) :
    decode (bytesOfWord w0 ++ bytesOfWord w1 ++ l) = decodeWords w0 w1 l := by
  simp [bytesOfWord, decode, wordOfBytes_bytes]

/-- A stream is incomplete, or it is two header words and the bytes after them. -/
theorem decode_cases (bytes : List Byte) :
    bytes.length < 8 ∧ decode bytes = .incomplete ∨
      ∃ w0 w1 l, bytes = bytesOfWord w0 ++ bytesOfWord w1 ++ l ∧ decode bytes = decodeWords w0 w1 l := by
  match bytes with
  | b0 :: b1 :: b2 :: b3 :: b4 :: b5 :: b6 :: b7 :: l =>
    exact .inr ⟨wordOfBytes b0 b1 b2 b3, wordOfBytes b4 b5 b6 b7, l, by simp [bytesOfWord_wordOfBytes], rfl⟩
  | [] | [_] | [_, _] | [_, _, _] | [_, _, _, _] | [_, _, _, _, _] | [_, _, _, _, _, _] | [_, _, _, _, _, _, _] =>
    exact .inl ⟨by simp, rfl⟩

/-- The fields of the header of a command. -/
theorem Instr.headerOp_word0 (i : Instr) : headerOp i.word0 = i.op := headerOp_headerWord _ _ _
theorem Instr.headerCh_word0 (i : Instr) : headerCh i.word0 = i.ch := headerCh_headerWord _ _ _
theorem Instr.headerArg_word0 (i : Instr) : headerArg i.word0 = i.arg := headerArg_headerWord _ _ _

/-- The header of a well-formed command announces exactly its payload (R82). -/
theorem Instr.payloadLen_eq (i : Instr) (h : i.WellFormed) : payloadLen i.op i.arg = i.payload.length := by
  unfold Instr.WellFormed at h
  cases i <;>
    simp_all [payloadLen, Instr.op, Instr.arg, Instr.payload, Instr.wellFormed, opChInit, opChSet, opReceive, opTransmit,
      opSend, opSendTone, opDtmfDecode]

/-- A one-bit field has nothing above bit 0. -/
theorem bitField32_high (b : Bool) : (bitField 32 b).extractLsb' 1 31 = 0 := by cases b <;> rfl
theorem bitField32_low (b : Bool) : (bitField 32 b).getLsbD 0 = b := by cases b <;> rfl

/-- A word with nothing above bit 0 is a one-bit field. -/
theorem eq_bitField32 (x : Word) (h : x.extractLsb' 1 31 = 0) : x = bitField 32 (x.getLsbD 0) := by
  apply BitVec.eq_of_getLsbD_eq
  intro i hi
  rcases Nat.eq_zero_or_pos i with rfl | hp
  · rw [bitField32_low]
  · have h1 := congrArg (·.getLsbD (i - 1)) h
    have h2 := congrArg (·.getLsbD (i - 1)) (bitField32_high (x.getLsbD 0))
    simp only [BitVec.getLsbD_extractLsb', show 1 + (i - 1) = i by omega, show i - 1 < 31 by omega] at h1 h2
    simp_all

/-- A one-bit field of `arg` has nothing above bit 0. -/
theorem bitField16_high (b : Bool) : (bitField 16 b).extractLsb' 1 15 = 0 := by cases b <;> rfl
theorem bitField16_low (b : Bool) : (bitField 16 b).getLsbD 0 = b := by cases b <;> rfl

/-- An `arg` with nothing above bit 0 is a one-bit field. -/
theorem eq_bitField16 (x : BitVec 16) (h : x.extractLsb' 1 15 = 0) : x = bitField 16 (x.getLsbD 0) := by
  apply BitVec.eq_of_getLsbD_eq
  intro i hi
  rcases Nat.eq_zero_or_pos i with rfl | hp
  · rw [bitField16_low]
  · have h1 := congrArg (·.getLsbD (i - 1)) h
    have h2 := congrArg (·.getLsbD (i - 1)) (bitField16_high (x.getLsbD 0))
    simp only [BitVec.getLsbD_extractLsb', show 1 + (i - 1) = i by omega, show i - 1 < 15 by omega] at h1 h2
    simp_all

/-- A word with nothing above bit 15 is its low half. -/
theorem setWidth32_low (x : Word) (h : x.extractLsb' 16 16 = 0#16) : (x.extractLsb' 0 16).setWidth 32 = x := by
  apply BitVec.eq_of_getLsbD_eq
  intro i hi
  simp only [BitVec.getLsbD_setWidth, BitVec.getLsbD_extractLsb', hi, Nat.zero_add, decide_true, Bool.true_and]
  by_cases h1 : i < 16
  · simp [h1]
  · have h2 := congrArg (·.getLsbD (i - 16)) h
    simp only [BitVec.getLsbD_extractLsb', show 16 + (i - 16) = i by omega, show i - 16 < 16 by omega] at h2
    simp_all

/-- An `arg` with nothing above bit 3 is its selector field. -/
theorem setWidth16_low (x : BitVec 16) (h : x.extractLsb' 4 12 = 0#12) : (x.extractLsb' 0 4).setWidth 16 = x := by
  apply BitVec.eq_of_getLsbD_eq
  intro i hi
  simp only [BitVec.getLsbD_setWidth, BitVec.getLsbD_extractLsb', hi, Nat.zero_add, decide_true, Bool.true_and]
  by_cases h1 : i < 4
  · simp [h1]
  · have h2 := congrArg (·.getLsbD (i - 4)) h
    simp only [BitVec.getLsbD_extractLsb', show 4 + (i - 4) = i by omega, show i - 4 < 12 by omega] at h2
    simp_all

@[simp] theorem Law.bit_ofBit (b : Bool) : (Law.ofBit b).bit = b := by cases b <;> rfl
@[simp] theorem Law.ofBit_bit (l : Law) : Law.ofBit l.bit = l := by cases l <;> rfl

/-- A decoded setting has the selector and the value it was decoded from (R85). -/
theorem decodeSetting_ok {sel : BitVec 4} {x : Word} {st : Setting} (h : decodeSetting sel x = .ok st) :
    st.selector = sel ∧ st.value = x := by
  unfold decodeSetting decodeBit at h
  repeat' split at h
  all_goals (try cases h)
  all_goals subst_vars
  all_goals refine ⟨rfl, ?_⟩
  all_goals (try simp only [Setting.value, Law.bit_ofBit])
  all_goals (try exact (eq_bitField32 x ‹_›).symm)
  exact setWidth32_low x ‹_›

/-- A setting decodes from its selector and value (R85). -/
theorem decodeSetting_self (st : Setting) : decodeSetting st.selector st.value = .ok st := by
  have high : ∀ id : BitVec 16, (id.setWidth 32).extractLsb' 16 16 = 0#16 := by
    intro id; apply BitVec.eq_of_getLsbD_eq; intro i hi; simp [BitVec.getLsbD_extractLsb']
  have low : ∀ id : BitVec 16, (id.setWidth 32).extractLsb' 0 16 = id := by
    intro id; apply BitVec.eq_of_getLsbD_eq; intro i hi; simp [hi]; omega
  cases st with
  | law l => cases l <;> rfl
  | echo b => cases b <;> rfl
  | txMix b => cases b <;> rfl
  | active b => cases b <;> rfl
  | confId id => simp [Setting.selector, Setting.value, decodeSetting]
  | hwId id => simp [Setting.selector, Setting.value, decodeSetting, high, low]

/-- A decoded format has the code it was decoded from (R86). -/
theorem decodeFmt_ok {x : Word} {f : Fmt} (h : decodeFmt x = .ok f) : f.code = x := by
  have key : ∀ f : Fmt, x.extractLsb' 2 30 = 0 → x.extractLsb' 0 2 = f.code.extractLsb' 0 2 → f.code = x := by
    intro f h1 h2
    apply BitVec.eq_of_getLsbD_eq
    intro i hi
    by_cases h3 : i < 2
    · have h2 := congrArg (·.getLsbD i) h2
      simp only [BitVec.getLsbD_extractLsb', h3, decide_true, Bool.true_and, Nat.zero_add] at h2
      exact h2.symm
    · have h1 := congrArg (·.getLsbD (i - 2)) h1
      have h4 : f.code.extractLsb' 2 30 = 0 := by cases f <;> rfl
      have h4 := congrArg (·.getLsbD (i - 2)) h4
      simp only [BitVec.getLsbD_extractLsb', show 2 + (i - 2) = i by omega, show i - 2 < 30 by omega] at h1 h4
      simp_all
  unfold decodeFmt at h
  repeat' split at h
  all_goals cases h
  all_goals exact key _ ‹_› ‹_›

/-- A format decodes from its code (R86). -/
theorem decodeFmt_self (f : Fmt) : decodeFmt f.code = .ok f := by cases f <;> rfl

/-- A command decodes from its own fields (R84). -/
theorem decodeCommand_self (i : Instr) : decodeCommand i.op i.ch i.arg i.x i.payload = .ok i := by
  cases i with
  | chInit ch law =>
    cases law <;>
      simp [Instr.op, Instr.ch, Instr.arg, Instr.x, decodeCommand, opChInit, decodeChInit, Law.bit, Law.ofBit, bitField]
  | chSet ch st =>
    have arg : decodeChSet ch (st.selector.setWidth 16) st.value = .ok (.chSet ch st) := by
      have low : (st.selector.setWidth 16).extractLsb' 0 4 = st.selector := by cases st <;> simp [Setting.selector]
      have high : (st.selector.setWidth 16).extractLsb' 4 12 = 0 := by cases st <;> simp [Setting.selector]
      simp [decodeChSet, low, high, decodeSetting_self, Except.map]
    simpa [Instr.op, Instr.ch, Instr.arg, Instr.x, decodeCommand, opChInit, opChSet] using arg
  | dtmfDecode ch fmt bytes =>
    simp [Instr.op, Instr.ch, Instr.x, Instr.payload, decodeCommand, decodeFmt_self, Except.map, opChInit, opChSet,
      opReconfigure, opReceive, opTransmit, opSend, opSendTone, opDtmfInit, opDtmfDecode]
  | _ =>
    simp [Instr.op, Instr.ch, Instr.arg, Instr.x, Instr.payload, decodeCommand, decodePlain, decodeFrame, opChInit,
      opChSet, opReconfigure, opReceive, opTransmit, opSend, opSendTone, opDtmfInit]

/-- A decoded CH_INIT is the encoding of its law (R84). -/
theorem decodeChInit_ok {ch : ChIx} {arg : BitVec 16} {x : Word} {i : Instr} (h : decodeChInit ch arg x = .ok i) :
    ∃ law, i = .chInit ch law ∧ bitField 16 law.bit = arg ∧ x = 0 := by
  unfold decodeChInit at h
  split at h
  · cases h
    exact ⟨_, rfl, by simpa using (eq_bitField16 _ (by tauto)).symm, by tauto⟩
  · cases h

/-- A decoded CH_SET has the selector and the value it was decoded from (R84, R85). -/
theorem decodeChSet_ok {ch : ChIx} {arg : BitVec 16} {x : Word} {i : Instr} (h : decodeChSet ch arg x = .ok i) :
    ∃ st, i = .chSet ch st ∧ st.selector.setWidth 16 = arg ∧ st.value = x := by
  unfold decodeChSet at h
  split at h
  · cases hs : decodeSetting (arg.extractLsb' 0 4) x with
    | error e => rw [hs] at h; cases h
    | ok st =>
      rw [hs] at h
      cases h
      have := decodeSetting_ok hs
      exact ⟨st, rfl, by rw [this.1]; exact setWidth16_low _ ‹_›, this.2⟩
  · cases h

/-- A decoded command has the fields it was decoded from and is well formed (R82, R84). -/
theorem decodeCommand_ok {op : BitVec 4} {ch : ChIx} {arg : BitVec 16} {x : Word} {p : List Byte} {i : Instr}
    (hp : p.length = payloadLen op arg) (h : decodeCommand op ch arg x p = .ok i) :
    i.op = op ∧ i.ch = ch ∧ i.arg = arg ∧ i.x = x ∧ i.payload = p ∧ i.WellFormed := by
  have wf : p.length < 65536 := by rw [hp]; unfold payloadLen; split <;> omega
  have len : (op = opReceive ∨ op = opTransmit ∨ op = opSendTone ∨ op = opDtmfDecode) →
      BitVec.ofNat 16 p.length = arg := by
    intro ho; rw [hp, payloadLen, if_pos ho]; simp
  have nil : ¬(op = opReceive ∨ op = opTransmit ∨ op = opSendTone ∨ op = opDtmfDecode) → p = [] := by
    intro ho; rw [payloadLen, if_neg ho] at hp; simpa using hp
  unfold decodeCommand at h
  split at h
  · subst_vars
    obtain ⟨law, rfl, rfl, rfl⟩ := decodeChInit_ok h
    exact ⟨rfl, rfl, rfl, rfl, (nil (by decide)).symm, rfl⟩
  split at h
  · subst_vars
    obtain ⟨st, rfl, rfl, rfl⟩ := decodeChSet_ok h
    exact ⟨rfl, rfl, rfl, rfl, (nil (by decide)).symm, rfl⟩
  split at h
  · subst_vars
    unfold decodePlain at h
    split at h
    · cases h; rename_i h'; exact ⟨rfl, rfl, h'.1.symm, h'.2.symm, (nil (by decide)).symm, rfl⟩
    · cases h
  split at h
  · subst_vars
    unfold decodeFrame at h
    split at h
    · cases h
      exact ⟨rfl, rfl, len (by simp), (‹x = _›).symm, rfl, by simpa [Instr.WellFormed, Instr.wellFormed] using wf⟩
    · cases h
  split at h
  · subst_vars
    unfold decodeFrame at h
    split at h
    · cases h
      exact ⟨rfl, rfl, len (by simp), (‹x = _›).symm, rfl, by simpa [Instr.WellFormed, Instr.wellFormed] using wf⟩
    · cases h
  split at h
  · subst_vars
    cases h; exact ⟨rfl, rfl, rfl, rfl, (nil (by decide)).symm, rfl⟩
  split at h
  · subst_vars
    cases h
    exact ⟨rfl, rfl, len (by simp), rfl, rfl, by simpa [Instr.WellFormed, Instr.wellFormed] using wf⟩
  split at h
  · subst_vars
    unfold decodePlain at h
    split at h
    · cases h; rename_i h'; exact ⟨rfl, rfl, h'.1.symm, h'.2.symm, (nil (by decide)).symm, rfl⟩
    · cases h
  split at h
  · subst_vars
    cases hf : decodeFmt x with
    | error e => rw [hf] at h; cases h
    | ok f =>
      rw [hf] at h
      cases h
      exact ⟨rfl, rfl, len (by simp), decodeFmt_ok hf, rfl, by
        simpa [Instr.WellFormed, Instr.wellFormed] using wf⟩
  · cases h

end Sys2Proof
end

