-- ==== Sys2Proof/Laws/State.lean ====
section
/-! SUPPORT. One lemma per field per update of the state, and what `slot` and `find` read after an update. -/

namespace Sys2Proof.Machine

variable (s : State) (ch : ChIx) (k : Channel) (q : Conf) (r : Response) (op : BitVec 4) (st : Status)
  (bytes : List Byte)

/-! ### `setSlot` -/

@[simp] theorem State.setSlot_cfg : (s.setSlot ch k).cfg = s.cfg := rfl
@[simp] theorem State.setSlot_chan : (s.setSlot ch k).chan = s.chan.set ch.toNat k := rfl
@[simp] theorem State.setSlot_confs : (s.setSlot ch k).confs = s.confs := rfl
@[simp] theorem State.setSlot_input : (s.setSlot ch k).input = s.input := rfl
@[simp] theorem State.setSlot_responses : (s.setSlot ch k).responses = s.responses := rfl
@[simp] theorem State.setSlot_find (id : ConfId) : (s.setSlot ch k).find id = s.find id := rfl

/-! ### `setConf` -/

@[simp] theorem State.setConf_cfg : (s.setConf q).cfg = s.cfg := rfl
@[simp] theorem State.setConf_chan : (s.setConf q).chan = s.chan := rfl
@[simp] theorem State.setConf_confs :
    (s.setConf q).confs = s.confs.map fun o => if o.id = q.id then q else o := rfl
@[simp] theorem State.setConf_input : (s.setConf q).input = s.input := rfl
@[simp] theorem State.setConf_responses : (s.setConf q).responses = s.responses := rfl
@[simp] theorem State.setConf_slot (o : ChIx) : (s.setConf q).slot o = s.slot o := rfl

/-! ### `respond`, `raise`, `okay` -/

@[simp] theorem State.respond_cfg : (s.respond r).cfg = s.cfg := rfl
@[simp] theorem State.respond_chan : (s.respond r).chan = s.chan := rfl
@[simp] theorem State.respond_confs : (s.respond r).confs = s.confs := rfl
@[simp] theorem State.respond_input : (s.respond r).input = s.input := rfl
@[simp] theorem State.respond_responses : (s.respond r).responses = s.responses ++ [r] := rfl
@[simp] theorem State.respond_slot (o : ChIx) : (s.respond r).slot o = s.slot o := rfl
@[simp] theorem State.respond_find (id : ConfId) : (s.respond r).find id = s.find id := rfl
theorem State.raise_eq : s.raise op ch st = s.respond (Response.raised op ch st) := rfl
theorem State.okay_eq : s.okay op ch = s.respond (Response.okay op ch) := rfl

/-! ### `consumed`, `present` -/

@[simp] theorem State.consumed_cfg : (s.consumed bytes).cfg = s.cfg := rfl
@[simp] theorem State.consumed_chan : (s.consumed bytes).chan = s.chan := rfl
@[simp] theorem State.consumed_confs : (s.consumed bytes).confs = s.confs := rfl
@[simp] theorem State.consumed_input : (s.consumed bytes).input = bytes := rfl
@[simp] theorem State.consumed_responses : (s.consumed bytes).responses = s.responses := rfl
@[simp] theorem State.consumed_slot (o : ChIx) : (s.consumed bytes).slot o = s.slot o := rfl
@[simp] theorem State.consumed_find (id : ConfId) : (s.consumed bytes).find id = s.find id := rfl
@[simp] theorem State.present_cfg : (s.present bytes).cfg = s.cfg := rfl
@[simp] theorem State.present_chan : (s.present bytes).chan = s.chan := rfl
@[simp] theorem State.present_confs : (s.present bytes).confs = s.confs := rfl
@[simp] theorem State.present_input : (s.present bytes).input = s.input ++ bytes := rfl
@[simp] theorem State.present_responses : (s.present bytes).responses = s.responses := rfl

/-! ### Reading a slot -/

variable {s ch k q}

theorem State.slot_eq_getElem (h : ch.toNat < s.chan.length) : s.slot ch = s.chan[ch.toNat] := by
  simp [State.slot, h]

theorem State.slot_mem (h : ch.toNat < s.chan.length) : s.slot ch ∈ s.chan := by
  rw [State.slot_eq_getElem h]; exact List.getElem_mem h

@[simp] theorem State.slot_setSlot_same (h : ch.toNat < s.chan.length) : (s.setSlot ch k).slot ch = k := by
  simp [State.slot, State.setSlot, h]

theorem State.slot_setSlot_ne {o : ChIx} (h : o ≠ ch) : (s.setSlot ch k).slot o = s.slot o := by
  have : ch.toNat ≠ o.toNat := fun e => h (BitVec.eq_of_toNat_eq e.symm)
  simp [State.slot, State.setSlot, List.getD_eq_getElem?_getD, List.getElem?_set_ne this]

/-- A slot after an update: the new value at the slot written, the old one elsewhere. -/
theorem State.slot_setSlot (h : ch.toNat < s.chan.length) (o : ChIx) :
    (s.setSlot ch k).slot o = if o = ch then k else s.slot o := by
  split
  · subst_vars; exact State.slot_setSlot_same h
  · exact State.slot_setSlot_ne ‹_›

/-- Writing back what a slot holds changes nothing. -/
theorem State.setSlot_self (h : ch.toNat < s.chan.length) : s.setSlot ch (s.slot ch) = s := by
  simp [State.setSlot, State.slot_eq_getElem h]

theorem State.usable_iff : s.usable ch = true ↔ ch.toNat < s.cfg.nChan ∧ (s.slot ch).valid = true := by
  simp [State.usable]

/-! ### Reading the registry -/

theorem State.find_some {id : ConfId} (h : s.find id = some q) : q ∈ s.confs ∧ q.id = id := by
  refine ⟨List.mem_of_find?_eq_some h, ?_⟩
  simpa using List.find?_some h

theorem State.find_none {id : ConfId} (h : s.find id = none) : ∀ o ∈ s.confs, o.id ≠ id := by
  simpa [State.find] using h

/-- With distinct ids, `find` gives the one record with an id. -/
theorem find_of_mem {l : List Conf} (hn : (l.map (·.id)).Nodup) (h : q ∈ l) :
    l.find? (fun o => o.id == q.id) = some q := by
  induction l with
  | nil => cases h
  | cons o t ih =>
    simp only [List.map_cons, List.nodup_cons] at hn
    rcases List.mem_cons.mp h with rfl | h
    · simp
    · have : o.id ≠ q.id := fun e => hn.1 (e ▸ List.mem_map_of_mem h)
      simp [this, ih hn.2 h]

theorem State.find_mem (hn : (s.confs.map (·.id)).Nodup) (h : q ∈ s.confs) : s.find q.id = some q :=
  find_of_mem hn h

/-- Replacing a record keeps the ids. -/
theorem State.setConf_ids : (s.setConf q).confs.map (·.id) = s.confs.map (·.id) := by
  simp only [State.setConf_confs, List.map_map]
  refine List.map_congr_left fun o _ => ?_
  by_cases h : o.id = q.id <;> simp [h]

/-- `find` after replacing a record: the new record under its id when there was one, the old one elsewhere. -/
theorem State.find_setConf (id : ConfId) :
    (s.setConf q).find id = if id = q.id then (s.find id).map (fun _ => q) else s.find id := by
  simp only [State.find, State.setConf_confs]
  induction s.confs with
  | nil => simp
  | cons o t ih =>
    by_cases ho : o.id = q.id
    · by_cases hi : id = q.id
      · simp [ho, hi]
      · have h1 : q.id ≠ id := Ne.symm hi
        have h2 : o.id ≠ id := ho ▸ h1
        simp [ho, hi, h1] at ih ⊢
        exact ih
    · by_cases hi : o.id = id
      · have : id ≠ q.id := hi ▸ ho
        simp [hi, this]
      · simp only [List.map_cons, ho, if_false, List.find?_cons] at ih ⊢
        have hb : (o.id == id) = false := by simpa using hi
        simp only [hb]
        exact ih

/-- The members of the registry after replacing a record. -/
theorem State.mem_setConf {o : Conf} (h : o ∈ (s.setConf q).confs) : o = q ∨ (o ∈ s.confs ∧ o.id ≠ q.id) := by
  simp only [State.setConf_confs, List.mem_map] at h
  obtain ⟨p, hp, rfl⟩ := h
  split
  · exact .inl rfl
  · exact .inr ⟨hp, ‹_›⟩

end Sys2Proof.Machine
end

