-- ==== Sys2Proof/Laws/Frame.lean ====
section
/-! SUPPORT. What RECONFIGURE's micro-operations leave alone in any state, whether or not it meets the invariant: the
configuration, both streams, every slot but the one named; which statuses they raise; ring indices stay in the ring. -/

namespace Sys2Proof.Machine

variable {s t u : State} {ch : ChIx} {k : Conf}

/-- Configuration, streams, the number of slots and every slot but `ch` are as before, and ring indices in the ring stay
there. -/
structure Kept (s t : State) (ch : ChIx) : Prop where
  cfg : t.cfg = s.cfg
  input : t.input = s.input
  responses : t.responses = s.responses
  length : t.chan.length = s.chan.length
  slots : OtherSlotsKept s t ch
  ring : 0 < s.cfg.buffSize → s.PointersInRing → t.PointersInRing

theorem Kept.refl : Kept s s ch := ⟨rfl, rfl, rfl, rfl, fun _ _ => rfl, fun _ h => h⟩

theorem Kept.trans (h : Kept s t ch) (g : Kept t u ch) : Kept s u ch :=
  ⟨g.cfg.trans h.cfg, g.input.trans h.input, g.responses.trans h.responses, g.length.trans h.length,
    fun o ho => (g.slots o ho).trans (h.slots o ho), fun hS hp => g.ring (h.cfg ▸ hS) (h.ring hS hp)⟩

/-- A slot of a state whose ring indices are in the ring; a slot that does not exist has them at 0. -/
theorem State.PointersInRing.slot (h : s.PointersInRing) (hS : 0 < s.cfg.buffSize) (o : ChIx) :
    (s.slot o).InRing s.cfg.buffSize := by
  by_cases ho : o.toNat < s.chan.length
  · exact h.1 _ (State.slot_mem ho)
  · have e : s.slot o = Channel.powerOn := by
      rw [State.slot, List.getD_eq_getElem?_getD, List.getElem?_eq_none (by omega)]
      rfl
    rw [e]
    exact ⟨hS, hS, hS, hS⟩

/-- Ring indices after a slot is replaced by one whose indices are in the ring. -/
theorem State.PointersInRing.setSlot (h : s.PointersInRing) {q : Channel} (hq : q.InRing s.cfg.buffSize) :
    (s.setSlot ch q).PointersInRing := by
  refine ⟨fun o ho => ?_, h.2⟩
  rcases List.mem_or_eq_of_mem_set ho with h' | rfl
  · exact h.1 _ h'
  · exact hq

/-- Ring indices after a record is replaced by one whose indices are in the ring. -/
theorem State.PointersInRing.setConf (h : s.PointersInRing)
    (hk : k.wMin < s.cfg.buffSize ∧ k.wMax < s.cfg.buffSize) : (s.setConf k).PointersInRing := by
  refine ⟨h.1, fun o ho => ?_⟩
  rcases State.mem_setConf ho with rfl | ⟨h', -⟩
  · exact hk
  · exact h.2 _ h'

/-- Replacing the named slot, after other writes, by one whose indices are in the ring. -/
theorem Kept.setSlot (h : Kept s t ch) {q : Channel}
    (hq : 0 < t.cfg.buffSize → s.PointersInRing → t.PointersInRing → q.InRing t.cfg.buffSize) :
    Kept s (t.setSlot ch q) ch :=
  ⟨h.cfg, h.input, h.responses, by simpa using h.length,
    fun o ho => (State.slot_setSlot_ne ho).trans (h.slots o ho),
    fun hS hp => (h.ring hS hp).setSlot (hq (h.cfg ▸ hS) hp (h.ring hS hp))⟩

/-- Replacing a record, after other writes, by one whose indices are in the ring if the first state's are. -/
theorem Kept.setConf (h : Kept s t ch)
    (hk : 0 < s.cfg.buffSize → s.PointersInRing → k.wMin < s.cfg.buffSize ∧ k.wMax < s.cfg.buffSize) :
    Kept s (t.setConf k) ch :=
  ⟨h.cfg, h.input, h.responses, h.length, h.slots, fun hS hp => (h.ring hS hp).setConf (h.cfg ▸ hk hS hp)⟩

/-- A dispatch writes the record's solution and nothing else (R149). -/
theorem dispatch_kept {before : List ChIx} {change : Change} {evs : List Event} (h : Kept s t ch)
    (hk : 0 < s.cfg.buffSize → s.PointersInRing → k.wMin < s.cfg.buffSize ∧ k.wMax < s.cfg.buffSize)
    (hd : dispatch t k before change = .ok (u, evs)) : Kept s u ch := by
  unfold dispatch at hd
  simp only at hd
  split at hd
  · cases hd
    exact h.setConf hk
  · split at hd <;> cases hd
    exact h.setConf hk

/-- A remove writes one slot's `conference` and one record's member list (R126, R127). -/
theorem removeMember_kept {q : Conf} (h : removeMember s ch = .ok (t, q)) :
    Kept s t ch ∧ ∃ k ∈ s.confs, q = k.left ch := by
  unfold removeMember at h
  split at h
  · cases h
  · split at h
    · cases h
    · rename_i k hf
      have hk := (State.find_some hf).1
      split at h
      · cases h
        refine ⟨Kept.setConf (k := k.left ch) (Kept.setSlot Kept.refl ?_) fun _ hp => hp.2 k hk, k, hk, rfl⟩
        intro hS hp _
        exact hp.slot hS ch
      · cases h

theorem removeMember_error {st : Status} (h : removeMember s ch = .error st) : st = .notFound := by
  unfold removeMember at h
  split at h
  · cases h; rfl
  · split at h
    · cases h; rfl
    · split at h <;> cases h
      rfl

/-- The statuses a part of RECONFIGURE can raise. -/
def Raisable (r : Option Status) : Prop :=
  r = none ∨ r = some .notFound ∨ r = some .internal ∨ r = some .invalidArgument ∨ r = some .resourceExhausted

/-- The leave half of RECONFIGURE. -/
theorem leavePart_kept {p : Progress} (h : leavePart s ch k = .ok p) : Kept s p.state ch ∧ Raisable p.raised := by
  unfold leavePart at h
  split at h
  · rename_i st hr
    cases h
    exact ⟨Kept.refl, by rw [removeMember_error hr]; simp [Raisable]⟩
  · rename_i s1 q hr
    obtain ⟨h1, o, ho, rfl⟩ := removeMember_kept hr
    split at h
    · rename_i he
      simp only [destroy, if_pos he] at h
      cases h
      exact ⟨⟨h1.cfg, h1.input, h1.responses, h1.length, h1.slots, fun hS hp =>
        ⟨(h1.ring hS hp).1, fun x hx => (h1.ring hS hp).2 x (List.mem_filter.mp hx).1⟩⟩, .inl rfl⟩
    · split at h
      · cases h
      · rename_i hd
        cases h
        exact ⟨dispatch_kept (k := o.left ch) h1 (fun _ hp => hp.2 o ho) hd, .inl rfl⟩

/-- Finding or creating the requested record. -/
theorem findOrCreate_kept {id : ConfId} (h : findOrCreate s id = .ok (t, k)) :
    Kept s t ch ∧ (0 < s.cfg.buffSize → s.PointersInRing → k.wMin < s.cfg.buffSize ∧ k.wMax < s.cfg.buffSize) := by
  unfold findOrCreate at h
  split at h
  · rename_i hf
    cases h
    exact ⟨Kept.refl, fun _ hp => hp.2 _ (State.find_some hf).1⟩
  · unfold create at h
    split_ifs at h
    cases h
    refine ⟨⟨rfl, rfl, rfl, rfl, fun _ _ => rfl, fun hS hp => ⟨hp.1, fun x hx => ?_⟩⟩, fun hS _ => ⟨hS, hS⟩⟩
    rcases List.mem_append.mp hx with hx | hx
    · exact hp.2 x hx
    · rw [List.mem_singleton] at hx
      subst hx
      exact ⟨hS, hS⟩

theorem findOrCreate_error {id : ConfId} {st : Status} (h : findOrCreate s id = .error st) :
    Raisable (some st) := by
  unfold findOrCreate create at h
  split at h
  · cases h
  · split_ifs at h <;> cases h <;> simp [Raisable]

/-- The join half of RECONFIGURE. -/
theorem joinPart_kept {id : ConfId} {p : Progress} (h : joinPart s ch id = .ok p) :
    Kept s p.state ch ∧ Raisable p.raised := by
  unfold joinPart at h
  split at h
  · rename_i hf
    cases h
    exact ⟨Kept.refl, findOrCreate_error hf⟩
  · rename_i s1 q hf
    obtain ⟨h1, hq⟩ := findOrCreate_kept (ch := ch) hf
    split at h
    · rename_i st ha
      cases h
      refine ⟨h1, ?_⟩
      unfold addMember at ha
      split_ifs at ha <;> cases ha <;> simp [Raisable]
    · rename_i s2 ha
      have h2 : Kept s s2 ch := by
        unfold addMember at ha
        split_ifs at ha
        cases ha
        refine Kept.setConf (k := q.joined ch) (Kept.setSlot h1 fun hS hp ht => ?_) hq
        have hw := (hq (h1.cfg ▸ hS) hp).2
        rw [← h1.cfg] at hw
        exact ⟨hw, hw, (ht.slot hS ch).2.2⟩
      split at h
      · cases h
      · rename_i hd
        cases h
        exact ⟨dispatch_kept (k := q.joined ch) h2 hq hd, .inl rfl⟩

/-- Re-classification with the membership unchanged. -/
theorem stayPart_kept {id : ConfId} {p : Progress} (h : stayPart s id = .ok p) :
    Kept s p.state ch ∧ Raisable p.raised := by
  unfold stayPart at h
  split at h
  · cases h
  · rename_i q hf
    split at h
    · cases h
    · rename_i hd
      cases h
      exact ⟨dispatch_kept Kept.refl (fun _ hp => hp.2 q (State.find_some hf).1) hd, .inl rfl⟩

/-- RECONFIGURE in any state: only its own slot and the registry change, ring indices stay in the ring, and the statuses
it raises are never `Busy`. -/
theorem reconfigure_kept {want : Option ConfId} {p : Progress} (h : reconfigure s ch want = .ok p) :
    Kept s p.state ch ∧ Raisable p.raised := by
  unfold reconfigure at h
  split at h
  · cases h
  · rename_i p1 hl
    have h1 : Kept s p1.state ch ∧ Raisable p1.raised := by
      unfold reconfigureLeave at hl
      split at hl
      · cases hl; exact ⟨Kept.refl, .inl rfl⟩
      · split_ifs at hl
        · cases hl; exact ⟨Kept.refl, .inl rfl⟩
        · split at hl
          · cases hl; exact ⟨Kept.refl, by simp [Raisable]⟩
          · exact leavePart_kept hl
    split_ifs at h
    · cases h; exact h1
    · split at h
      · cases h
      · rename_i q hj
        cases h
        have h2 : Kept p1.state q.state ch ∧ Raisable q.raised := by
          unfold reconfigureJoin at hj
          split at hj
          · exact joinPart_kept hj
          · cases hj; exact ⟨Kept.refl, .inl rfl⟩
          · exact stayPart_kept hj
        exact ⟨h1.1.trans h2.1, h2.2⟩

end Sys2Proof.Machine
end

