-- ==== Sys2Proof/Laws/Reconfigure.lean ====
section
/-! SUPPORT. The micro-operations of RECONFIGURE, each said once: what the classifier answers, what a dispatch, a leave, a
join and a re-classification do in a state that meets the invariant, and that they keep it. -/

namespace Sys2Proof.Machine

/-! ### The classifier -/

/-- A member's slot can be on hardware instance `h` (R141). -/
def OnHardware (s : State) (k : Conf) (h : HwId) : Prop :=
  h ≠ 0 ∧ ∀ x ∈ k.members, (s.slot x).txMix = false ∧ (s.slot x).hwId = h

/-- A unit another record holds on instance `h` (R143). -/
theorem mem_claimed {s : State} {k : Conf} {h : HwId} {u : Nat} :
    u ∈ claimed s k h ↔ ∃ o ∈ s.confs, o.id ≠ k.id ∧ o.hwId = h ∧ o.solution = .hwConference u := by
  simp only [claimed, List.mem_filterMap]
  constructor
  · rintro ⟨o, ho, h'⟩
    refine ⟨o, ho, ?_⟩
    split at h'
    · rename_i hc
      split at h'
      · cases h'; exact ⟨hc.1, hc.2, ‹_›⟩
      · cases h'
    · cases h'
  · rintro ⟨o, ho, h1, h2, h3⟩
    exact ⟨o, ho, by simp [h1, h2, h3]⟩

/-- What `pickUnit` answers (R143). -/
theorem pickUnit_cases (s : State) (k : Conf) (h : HwId) (hr : ∀ u, k.solution = .hwConference u → 1 ≤ u ∧ u ≤ 8) :
    pickUnit s k h = .software ∨
      ∃ u, pickUnit s k h = .hwConference u ∧ 1 ≤ u ∧ u ≤ 8 ∧ u ∉ claimed s k h := by
  have free : ∀ sol, sol = (match (List.range' 1 8).find? fun u => u ∉ claimed s k h with
      | some u => Solution.hwConference u
      | none => .software) →
      sol = .software ∨ ∃ u, sol = .hwConference u ∧ 1 ≤ u ∧ u ≤ 8 ∧ u ∉ claimed s k h := by
    rintro sol rfl
    split
    · rename_i u hu
      have h1 := List.mem_of_find?_eq_some hu
      have h2 := List.find?_some hu
      simp only [List.mem_range'] at h1
      obtain ⟨i, hi, rfl⟩ := h1
      exact .inr ⟨_, rfl, by omega, by omega, by simpa using h2⟩
    · exact .inl rfl
  unfold pickUnit
  simp only
  split
  · rename_i u hu
    split
    · rename_i hc
      exact .inr ⟨u, rfl, (hr u hu).1, (hr u hu).2, hc.2⟩
    · exact free _ rfl
  · exact free _ rfl

/-- What the classifier answers (R140 to R144). -/
theorem classify_cases (s : State) (k : Conf) (hr : ∀ u, k.solution = .hwConference u → 1 ≤ u ∧ u ≤ 8) :
    classify s k = .software ∨
      ∃ h, OnHardware s k h ∧ solutionHw s (classify s k) k.members = h ∧
        ((classify s k = .hwCrossconnect ∧ k.members.length = 2) ∨
          ∃ u, classify s k = .hwConference u ∧ 1 ≤ u ∧ u ≤ 8 ∧ 3 ≤ k.members.length ∧ u ∉ claimed s k h) := by
  unfold classify
  split
  · exact .inl rfl
  · exact .inl rfl
  · rename_i m0 rest hm hk
    have hlen : 2 ≤ (m0 :: rest).length := by
      cases rest with
      | nil => exact absurd rfl hm
      | cons => simp
    simp only
    split
    · exact .inl rfl
    split
    · exact .inl rfl
    split
    · exact .inl rfl
    rename_i h1 h2 h3
    simp only [Bool.not_eq_true, List.any_eq_false, bne_iff_ne, ne_eq, not_not, beq_iff_eq] at h1 h2 h3
    have hon : OnHardware s k (s.slot m0).hwId :=
      ⟨h2 m0 (by simp), fun x hx => ⟨by simpa using h1 x (hk ▸ hx), h3 x (hk ▸ hx)⟩⟩
    split
    · rename_i h4
      exact .inr ⟨_, hon, by simp [solutionHw, hk], .inl ⟨rfl, by rw [hk]; exact h4⟩⟩
    · rename_i h4
      rcases pickUnit_cases s k (s.slot m0).hwId hr with h5 | ⟨u, h5, h6, h7, h8⟩
      · exact .inl h5
      · exact .inr ⟨_, hon, by simp [h5, solutionHw, hk], .inr ⟨u, h5, h6, h7, by rw [hk]; omega, h8⟩⟩

/-! ### Dispatch -/

/-- What `Conf.Ok` says, but for the solution and that a member is listed. -/
structure Conf.Shape (c : Config) (k : Conf) : Prop where
  idNonzero : k.id ≠ 0
  nodup : k.members.Nodup
  count : k.members.length ≤ c.maxMembers
  buffWf : k.confBuff.wf c.buffSize
  wMin : k.wMin < c.buffSize
  wMax : k.wMax < c.buffSize
  largest : k.largest ≤ 2 * c.maxLen
  window : ringDist c.buffSize k.wMax k.wMin ≤ k.largest

/-- What `State.Inv` says, but for the solution of the record `k` and that `k` lists a member: the states inside
RECONFIGURE. -/
structure State.PreInv (s : State) (k : Conf) : Prop where
  cfg : s.cfg.Valid
  size : s.chan.length = s.cfg.nChan
  chans : ∀ o ∈ s.chan, o.Ok s.cfg
  count : s.confs.length ≤ s.cfg.nConf
  ids : (s.confs.map (·.id)).Nodup
  mem : k ∈ s.confs
  shape : ∀ o ∈ s.confs, o.Shape s.cfg
  nonempty : ∀ o ∈ s.confs, o.id ≠ k.id → o.members ≠ []
  sols : ∀ o ∈ s.confs, o.id ≠ k.id → o.SolutionOk
  range : ∀ u, k.solution = .hwConference u → 1 ≤ u ∧ u ≤ 8
  listed : ∀ o ∈ s.confs, ∀ ch ∈ o.members, ch.toNat < s.cfg.nChan ∧ (s.slot ch).conference = some o.id
  named : ∀ ch : ChIx, ∀ id, ch.toNat < s.cfg.nChan → (s.slot ch).conference = some id →
    ∃ o ∈ s.confs, o.id = id ∧ ch ∈ o.members
  envelope : ∀ o ∈ s.confs, ∀ ch ∈ o.members,
    ringDist s.cfg.buffSize (s.slot ch).wRx o.wMin ≤ ringDist s.cfg.buffSize o.wMax o.wMin
  units : ∀ a ∈ s.confs, ∀ b ∈ s.confs, a.id ≠ k.id → b.id ≠ k.id → a.id ≠ b.id → a.hwId = b.hwId →
    ∀ u, a.solution = .hwConference u → b.solution ≠ .hwConference u

theorem Conf.Ok.shape {c : Config} {k : Conf} (h : k.Ok c) : k.Shape c :=
  ⟨h.idNonzero, h.nodup, h.count, h.buffWf, h.wMin, h.wMax, h.largest, h.window⟩

theorem Conf.Ok.range {c : Config} {k : Conf} (h : k.Ok c) (u : Nat) (hu : k.solution = .hwConference u) :
    1 ≤ u ∧ u ≤ 8 := by
  have := h.solution
  simp only [Conf.SolutionOk, hu] at this
  exact ⟨this.1, this.2.1⟩

/-- A crossconnect has two members (R142). -/
theorem Conf.Ok.pair {c : Config} {k : Conf} (h : k.Ok c) (hx : k.solution = .hwCrossconnect) : k.members.length = 2 := by
  have := h.solution
  simp only [Conf.SolutionOk, hx] at this
  exact this.1

theorem State.Inv.pre {s : State} (h : s.Inv) {k : Conf} (hk : k ∈ s.confs) : s.PreInv k where
  cfg := h.cfg
  size := h.size
  chans := h.chans
  count := h.count
  ids := h.ids
  mem := hk
  shape := fun o ho => (h.confs o ho).shape
  nonempty := fun o ho _ => (h.confs o ho).nonempty
  sols := fun o ho _ => (h.confs o ho).solution
  range := (h.confs k hk).range
  listed := h.listed
  named := h.named
  envelope := h.envelope
  units := fun a ha b hb _ _ => h.units a ha b hb

/-- In a registry with distinct ids a record is known by its id. -/
theorem conf_eq_of_id {l : List Conf} (hn : (l.map (·.id)).Nodup) {a b : Conf} (ha : a ∈ l) (hb : b ∈ l)
    (h : a.id = b.id) : a = b := by
  have h1 := find_of_mem hn ha
  have h2 := find_of_mem hn hb
  rw [h] at h1
  exact Option.some.inj (h1.symm.trans h2)

/-- The stored pair fits the record, and no other record holds the unit. -/
theorem solved_ok {s : State} {k : Conf} (hr : ∀ u, k.solution = .hwConference u → 1 ≤ u ∧ u ≤ 8) :
    (k.solved (classify s k) (solutionHw s (classify s k) k.members)).SolutionOk ∧
      ∀ o ∈ s.confs, o.id ≠ k.id → o.hwId = solutionHw s (classify s k) k.members → ∀ u,
        classify s k = .hwConference u → o.solution ≠ .hwConference u := by
  rcases classify_cases s k hr with h | ⟨h, hon, hh, ⟨h1, h2⟩ | ⟨u, h1, h2, h3, h4, h5⟩⟩
  · constructor
    · simp [Conf.SolutionOk, Conf.solved, h, solutionHw]
    · intro o _ _ _ u hu; rw [h] at hu; cases hu
  · constructor
    · simp only [Conf.SolutionOk, Conf.solved, h1] at hh ⊢
      exact ⟨h2, by rw [hh]; exact hon.1⟩
    · intro o _ _ _ u hu; rw [h1] at hu; cases hu
  · constructor
    · simp only [Conf.SolutionOk, Conf.solved, h1] at hh ⊢
      exact ⟨h2, h3, h4, by rw [hh]; exact hon.1⟩
    · intro o ho hne hhw v hv ho'
      rw [hv] at h1; cases h1
      exact h5 (mem_claimed.mpr ⟨o, ho, hne, by rw [hhw, hh], ho'⟩)

/-- A record whose stored solution is what the classifier answers: a dispatch would store and emit nothing new. -/
def Settled (s : State) (k : Conf) : Prop :=
  classify s k = k.solution ∧ solutionHw s k.solution k.members = k.hwId

/-- Replacing a record does not change what others hold. -/
theorem claimed_setConf {s : State} {q k : Conf} (hid : q.id = k.id) (h : HwId) :
    claimed (s.setConf q) k h = claimed s k h := by
  simp only [claimed, State.setConf_confs, List.filterMap_map]
  refine List.filterMap_congr fun o _ => ?_
  by_cases ho : o.id = q.id
  · simp [ho, hid]
  · simp [ho]

/-- The unit chosen for a record is chosen again once it is stored (R143, R159). -/
theorem pickUnit_solved (s : State) (k : Conf) (h : HwId) (q : Conf)
    (hq : q = k.solved (pickUnit s k h) (match pickUnit s k h with | .software => 0 | _ => h)) :
    pickUnit (s.setConf q) q h = pickUnit s k h := by
  have hid : q.id = k.id := by rw [hq]; rfl
  have hcl : claimed (s.setConf q) q h = claimed s k h := by
    rw [claimed_setConf rfl]; unfold claimed; rw [hid]
  conv_lhs => unfold pickUnit
  simp only [hcl]
  cases hp : pickUnit s k h with
  | software =>
    have : q.solution = .software := by rw [hq, hp]; rfl
    simp only [this]
    unfold pickUnit at hp
    simp only at hp
    split at hp
    · split at hp
      · cases hp
      · exact hp
    · exact hp
  | hwCrossconnect =>
    unfold pickUnit at hp
    simp only at hp
    repeat' split at hp
    all_goals cases hp
  | hwConference u =>
    have h1 : q.solution = .hwConference u := by rw [hq, hp]; rfl
    have h2 : q.hwId = h := by rw [hq, hp]; rfl
    have hu : u ∉ claimed s k h := by
      have free : ∀ sol, sol = (match (List.range' 1 8).find? fun u => u ∉ claimed s k h with
          | some u => Solution.hwConference u
          | none => .software) → sol = .hwConference u → u ∉ claimed s k h := by
        rintro sol rfl h'
        split at h'
        · cases h'
          rename_i hf
          simpa using List.find?_some hf
        · cases h'
      unfold pickUnit at hp
      simp only at hp
      split at hp
      · split at hp
        · cases hp; exact (‹_ ∧ _›).2
        · exact free _ rfl hp
      · exact free _ rfl hp
    simp [h1, h2, hu]

/-- After a dispatch the record is settled (R159). -/
theorem settled_solved (s : State) (k : Conf) :
    Settled (s.setConf (k.solved (classify s k) (solutionHw s (classify s k) k.members)))
      (k.solved (classify s k) (solutionHw s (classify s k) k.members)) := by
  refine ⟨?_, rfl⟩
  show classify _ _ = classify s k
  set q := k.solved (classify s k) (solutionHw s (classify s k) k.members) with hq
  have hm : q.members = k.members := rfl
  have hs : ∀ x, (s.setConf q).slot x = s.slot x := fun _ => rfl
  conv_lhs => unfold classify
  conv_rhs => unfold classify
  rw [hm]
  simp only [hs]
  split
  · rfl
  · rfl
  · rename_i m0 rest hne hk
    split
    · rfl
    split
    · rfl
    split
    · rfl
    split
    · rfl
    rename_i h1 h2 h3 h4
    have hcl : classify s k = pickUnit s k (s.slot m0).hwId := by
      unfold classify
      rw [hk]
      simp only
      rw [if_neg h1, if_neg h2, if_neg h3, if_neg h4]
    refine pickUnit_solved s k _ q ?_
    rw [hq, hcl, hk]
    congr 1
    cases pickUnit s k (s.slot m0).hwId <;> rfl
/-- Storing the classifier's answer restores the invariant. -/
theorem State.PreInv.solve {s : State} {k : Conf} (h : s.PreInv k) (hne : k.members ≠ []) :
    (s.setConf (k.solved (classify s k) (solutionHw s (classify s k) k.members))).Inv := by
  obtain ⟨hsol, hfree⟩ := solved_ok (s := s) (k := k) h.range
  set q := k.solved (classify s k) (solutionHw s (classify s k) k.members) with hq
  have hmem : ∀ o ∈ (s.setConf q).confs, o = q ∨ (o ∈ s.confs ∧ o.id ≠ k.id) := fun o ho =>
    State.mem_setConf ho
  have hself : q ∈ (s.setConf q).confs := by
    simp only [State.setConf_confs, List.mem_map]
    exact ⟨k, h.mem, by simp [hq, Conf.solved]⟩
  have hk := h.shape k h.mem
  refine ⟨h.cfg, h.size, h.chans, by simpa using h.count, by rw [State.setConf_ids]; exact h.ids, ?_, ?_, ?_, ?_, ?_⟩
  · intro o ho
    rcases hmem o ho with rfl | ⟨ho, hid⟩
    · exact ⟨hk.idNonzero, hne, hk.nodup, hk.count, hk.buffWf, hk.wMin, hk.wMax, hk.largest, hk.window, hsol⟩
    · have hs := h.shape o ho
      exact ⟨hs.idNonzero, h.nonempty o ho hid, hs.nodup, hs.count, hs.buffWf, hs.wMin, hs.wMax, hs.largest, hs.window,
        h.sols o ho hid⟩
  · intro o ho
    rcases hmem o ho with rfl | ⟨ho, -⟩
    · exact h.listed k h.mem
    · exact h.listed o ho
  · intro ch id hch hc
    obtain ⟨o, ho, hid, hin⟩ := h.named ch id hch hc
    by_cases hok : o.id = k.id
    · obtain rfl := conf_eq_of_id h.ids ho h.mem hok
      exact ⟨q, hself, hid, hin⟩
    · refine ⟨o, ?_, hid, hin⟩
      simp only [State.setConf_confs, List.mem_map]
      exact ⟨o, ho, by simp [hq, Conf.solved, hok]⟩
  · intro o ho
    rcases hmem o ho with rfl | ⟨ho, -⟩
    · exact h.envelope k h.mem
    · exact h.envelope o ho
  · intro a ha b hb hab hhw u hu
    rcases hmem a ha with rfl | ⟨ha, hak⟩ <;> rcases hmem b hb with rfl | ⟨hb, hbk⟩
    · exact absurd rfl hab
    · exact hfree b hb hbk hhw.symm u hu
    · intro hu'
      exact hfree a ha hak hhw u hu' hu
    · exact h.units a ha b hb hak hbk hab hhw u hu

/-- What a dispatch does: it stores the classifier's answer and emits events; it stops only when the old solution was a
crossconnect with fewer than two members before. -/
theorem dispatch_ok {s : State} {k : Conf} {before : List ChIx} {change : Change}
    (hx : k.solution = .hwCrossconnect → before.length = 2) :
    ∃ evs, dispatch s k before change =
      .ok (s.setConf (k.solved (classify s k) (solutionHw s (classify s k) k.members)), evs) := by
  unfold dispatch
  simp only
  split
  · exact ⟨_, rfl⟩
  · cases hs : k.solution with
    | software => exact ⟨_, rfl⟩
    | hwConference u => exact ⟨_, rfl⟩
    | hwCrossconnect =>
      match before, hx hs with
      | [a, b], _ => exact ⟨_, rfl⟩

/-- What a disable of the old solution emits (R150, R151). -/
theorem leaveEvents_cases {old : Solution} {before : List ChIx} {off : List Event}
    (hx : old = .hwCrossconnect → before.length = 2) (h : leaveEvents old before = .ok off) :
    (old = .software → off = []) ∧ (∀ u, old = .hwConference u → off = before.map fun x => .hwConference x 0) ∧
      (old = .hwCrossconnect → ∃ a b, before = [a, b] ∧ off = [.hwCrossconnect a b false]) := by
  cases old with
  | software => cases h; simp
  | hwConference u => cases h; simp
  | hwCrossconnect =>
    match before, hx rfl with
    | [a, b], _ => cases h; simp

/-- What an enable of the classifier's solution emits (R152, R153). -/
theorem enterEvents_cases {new : Solution} {after : List ChIx} (hx : new = .hwCrossconnect → after.length = 2) :
    (new = .software → enterEvents new after = []) ∧
      (∀ u, new = .hwConference u → enterEvents new after = after.map fun x => .hwConference x u) ∧
      (new = .hwCrossconnect → ∃ a b, after = [a, b] ∧ enterEvents new after = [.hwCrossconnect a b true]) := by
  cases new with
  | software => simp [enterEvents]
  | hwConference u => simp [enterEvents]
  | hwCrossconnect =>
    match after, hx rfl with
    | [a, b], _ => simp [enterEvents]

/-- A solution other than `Software` is that of at least two members on one hardware instance, two of them for a
crossconnect (R141, R142). -/
theorem classify_hardware {s : State} {k : Conf} (h : classify s k ≠ .software) :
    (∀ x ∈ k.members, (s.slot x).hwId = solutionHw s (classify s k) k.members) ∧
      (classify s k = .hwCrossconnect → k.members.length = 2) := by
  have hcl : classify s k = classify s k := rfl
  conv at hcl => rhs; unfold classify
  split at hcl
  · exact absurd hcl h
  · exact absurd hcl h
  · rename_i m0 rest hm hk
    simp only at hcl
    split at hcl
    · exact absurd hcl h
    split at hcl
    · exact absurd hcl h
    split at hcl
    · exact absurd hcl h
    rename_i h3
    simp only [Bool.not_eq_true, List.any_eq_false, bne_iff_ne, ne_eq, not_not] at h3
    have hhw : solutionHw s (classify s k) k.members = (s.slot m0).hwId := by
      rw [hk]
      cases hc : classify s k with
      | software => exact absurd hc h
      | hwCrossconnect => rfl
      | hwConference u => rfl
    refine ⟨fun x hx => by rw [hhw]; exact h3 x (hk ▸ hx), fun hx => ?_⟩
    split at hcl
    · rw [hk]; assumption
    · rw [hx] at hcl
      unfold pickUnit at hcl
      simp only at hcl
      repeat' split at hcl
      all_goals cases hcl

/-- What a dispatch that answers has done (R147 to R155): the classifier's solution stored, its events emitted. -/
theorem dispatch_cases {s t : State} {k : Conf} {before : List ChIx} {change : Change} {evs : List Event}
    (hx : k.solution = .hwCrossconnect → before.length = 2) (h : dispatch s k before change = .ok (t, evs)) :
    t = s.setConf (k.solved (classify s k) (solutionHw s (classify s k) k.members)) ∧
      Dispatched s k before change (classify s k) (solutionHw s (classify s k) k.members) evs := by
  have soft : classify s k = .software → solutionHw s (classify s k) k.members = 0 := fun h => by rw [h]; rfl
  have hard : classify s k ≠ .software → ∀ x ∈ k.members,
      (s.slot x).hwId = solutionHw s (classify s k) k.members := fun h => (classify_hardware h).1
  unfold dispatch at h
  simp only at h
  split at h
  · rename_i same
    obtain ⟨rfl, rfl⟩ := Prod.mk.inj (Except.ok.inj h)
    refine ⟨rfl, rfl, soft, hard, ?_, ?_, ?_, fun n => absurd same n⟩
    · intro _ _ u ch hu hc; rw [hu, hc]; rfl
    · intro _ _ u ch hu hc; rw [hu, hc]; rfl
    · rintro _ _ (hu | hc)
      · cases hs : classify s k with
        | hwConference u => exact absurd hs (hu u)
        | software => rfl
        | hwCrossconnect => rfl
      · rw [hc]; cases classify s k <;> rfl
  · rename_i differ
    split at h
    · cases h
    · rename_i off hoff
      obtain ⟨rfl, rfl⟩ := Prod.mk.inj (Except.ok.inj h)
      obtain ⟨l1, l2, l3⟩ := leaveEvents_cases hx hoff
      obtain ⟨e1, e2, e3⟩ := enterEvents_cases (new := classify s k) (after := k.members)
        fun hc => (classify_hardware (by rw [hc]; simp)).2 hc
      exact ⟨rfl, rfl, soft, hard, fun a b => absurd ⟨a, b⟩ differ, fun a b => absurd ⟨a, b⟩ differ,
        fun a b => absurd ⟨a, b⟩ differ, fun _ => ⟨off, _, rfl, l1, l2, l3, e1, e2, e3⟩⟩

/-- The classifier reads of a slot only `tx_mix` and `hw_id`, of other records only what they hold (R140). -/
theorem classify_congr {s t : State} {k q : Conf} (hm : q.members = k.members) (hs : q.solution = k.solution)
    (hh : q.hwId = k.hwId) (hslot : ∀ x, (t.slot x).txMix = (s.slot x).txMix ∧ (t.slot x).hwId = (s.slot x).hwId)
    (hcl : ∀ h, claimed t q h = claimed s k h) : classify t q = classify s k := by
  have hp : ∀ h, pickUnit t q h = pickUnit s k h := fun h => by simp only [pickUnit, hcl, hs, hh]
  unfold classify
  rw [hm]
  simp only [fun x => (hslot x).1, fun x => (hslot x).2, hp]

/-- The same of a dispatch. -/
theorem Dispatched.congr {s t : State} {k q : Conf} {before : List ChIx} {change : Change} {sol : Solution} {hw : HwId}
    {evs : List Event} (hm : q.members = k.members) (hs : q.solution = k.solution) (hh : q.hwId = k.hwId)
    (hslot : ∀ x, (t.slot x).txMix = (s.slot x).txMix ∧ (t.slot x).hwId = (s.slot x).hwId)
    (hcl : ∀ h, claimed t q h = claimed s k h) (h : Dispatched t q before change sol hw evs) :
    Dispatched s k before change sol hw evs where
  solution := h.solution.trans (classify_congr hm hs hh hslot hcl)
  software := h.software
  hardware := fun n x hx => (hslot x).2 ▸ h.hardware n x (hm ▸ hx)
  joined := hs ▸ hh ▸ h.joined
  left := hs ▸ hh ▸ h.left
  quiet := hs ▸ hh ▸ h.quiet
  moved := hs ▸ hh ▸ hm ▸ h.moved

/-- A dispatch that follows the change of one slot's membership and of the record `q` answers what the state before the
change says: that change touches nothing the classifier reads but the member list. -/
theorem Dispatched.of_changed {s : State} {ch : ChIx} {o : Channel} {k q : Conf} {before : List ChIx} {change : Change}
    {sol : Solution} {hw : HwId} {evs : List Event}
    (h : Dispatched ((s.setSlot ch o).setConf q) q before change sol hw evs) (hlen : ch.toNat < s.chan.length)
    (ho : o.txMix = (s.slot ch).txMix ∧ o.hwId = (s.slot ch).hwId) (hid : q.id = k.id) (hm : q.members = k.members)
    (hs : q.solution = k.solution) (hh : q.hwId = k.hwId) :
    Dispatched s k before change sol hw evs := by
  refine h.congr hm hs hh (fun x => ?_) fun g => ?_
  · rw [State.setConf_slot, State.slot_setSlot hlen]
    split
    · subst_vars; exact ho
    · exact ⟨rfl, rfl⟩
  · rw [claimed_setConf rfl]
    simp only [claimed, hid, State.setSlot_confs]

/-! ### Leaving -/

variable {s : State} {ch : ChIx} {k : Conf}

/-- A channel that names a record is listed in it. -/
theorem State.Inv.mem_of_named (h : s.Inv) (hch : ch.toNat < s.cfg.nChan) (hk : k ∈ s.confs)
    (hc : (s.slot ch).conference = some k.id) : ch ∈ k.members := by
  obtain ⟨o, ho, hid, hin⟩ := h.named ch k.id hch hc
  obtain rfl := conf_eq_of_id h.ids ho hk hid
  exact hin

/-- The record a channel names. -/
theorem State.Inv.conf_of_named (h : s.Inv) (hch : ch.toNat < s.cfg.nChan) {id : ConfId}
    (hc : (s.slot ch).conference = some id) : ∃ k ∈ s.confs, k.id = id ∧ ch ∈ k.members ∧ s.find id = some k := by
  obtain ⟨o, ho, hid, hin⟩ := h.named ch id hch hc
  exact ⟨o, ho, hid, hin, hid ▸ State.find_mem h.ids ho⟩

theorem State.Inv.chan_lt (h : s.Inv) (hch : ch.toNat < s.cfg.nChan) : ch.toNat < s.chan.length := by
  rw [h.size]; exact hch

/-- A slot's properties survive any change of `conference` on a valid slot. -/
theorem Channel.Ok.setConference {c : Config} {o : Channel} (h : o.Ok c) (v : Option ConfId)
    (hv : o.valid = false → v = none) : ({ o with conference := v } : Channel).Ok c :=
  ⟨h.rxWf, h.txWf, h.wRx, h.rRx, h.wTx, h.rTx, h.largest, h.dtmfWf, h.size, h.decoder, hv⟩

/-- The slots after one is replaced by a slot that is in order. -/
theorem chans_set {c : Config} {l : List Channel} (h : ∀ o ∈ l, o.Ok c) {o : Channel} (ho : o.Ok c) (n : Nat) :
    ∀ p ∈ l.set n o, p.Ok c := fun p hp => by
  rcases List.mem_or_eq_of_mem_set hp with hp | rfl
  · exact h p hp
  · exact ho

/-- What `remove` does for a listed member (R126, R127). -/
theorem removeMember_ok (h : s.Inv) (hk : k ∈ s.confs) (hin : ch ∈ k.members) :
    removeMember s ch =
      .ok ((s.setSlot ch { s.slot ch with conference := none }).setConf (k.left ch), k.left ch) := by
  have hc := (h.listed k hk ch hin).2
  simp [removeMember, hc, State.find_mem h.ids hk, hin]

/-- The state after a removal is one a dispatch can be called in. -/
theorem State.Inv.removed (h : s.Inv) (hk : k ∈ s.confs) (hin : ch ∈ k.members) :
    ((s.setSlot ch { s.slot ch with conference := none }).setConf (k.left ch)).PreInv (k.left ch) := by
  have hch := (h.listed k hk ch hin).1
  have hlen := h.chan_lt hch
  have hok := h.confs k hk
  set s1 := (s.setSlot ch { s.slot ch with conference := none }).setConf (k.left ch) with hs1
  have hmem : ∀ o ∈ s1.confs, o = k.left ch ∨ (o ∈ s.confs ∧ o.id ≠ k.id) := fun o ho => State.mem_setConf ho
  have hself : k.left ch ∈ s1.confs := by
    simp only [hs1, State.setConf_confs, State.setSlot_confs, List.mem_map]
    exact ⟨k, hk, by simp [Conf.left]⟩
  have hslot : ∀ o : ChIx, s1.slot o = if o = ch then { s.slot ch with conference := none } else s.slot o := fun o => by
    rw [hs1, State.setConf_slot, State.slot_setSlot hlen]
  have hsub : ∀ x, x ∈ (k.left ch).members ↔ x ≠ ch ∧ x ∈ k.members := fun x => by
    simpa [Conf.left] using hok.nodup.mem_erase_iff
  have hwr : ∀ o : ChIx, (s1.slot o).wRx = (s.slot o).wRx := fun o => by
    rw [hslot]; split
    · subst_vars; rfl
    · rfl
  refine ⟨h.cfg, by simpa [hs1] using h.size, ?_, by simpa [hs1] using h.count, ?_, hself, ?_, ?_, ?_, ?_, ?_, ?_, ?_, ?_⟩
  · exact chans_set h.chans ((h.chans _ (State.slot_mem hlen)).setConference none fun _ => rfl) _
  · rw [hs1, State.setConf_ids]; exact h.ids
  · intro o ho
    rcases hmem o ho with rfl | ⟨ho, -⟩
    · refine ⟨hok.idNonzero, hok.nodup.erase _, ?_, hok.buffWf, hok.wMin, hok.wMax, hok.largest, hok.window⟩
      exact List.length_erase_le.trans hok.count
    · exact (h.confs o ho).shape
  · intro o ho hne'
    rcases hmem o ho with rfl | ⟨ho, -⟩
    · exact absurd rfl hne'
    · exact (h.confs o ho).nonempty
  · intro o ho hne'
    rcases hmem o ho with rfl | ⟨ho, -⟩
    · exact absurd rfl hne'
    · exact (h.confs o ho).solution
  · exact hok.range
  · intro o ho x hx
    rcases hmem o ho with rfl | ⟨ho, hid⟩
    · obtain ⟨hxc, hxm⟩ := (hsub x).mp hx
      rw [hslot, if_neg hxc]
      exact h.listed k hk x hxm
    · have hx' := h.listed o ho x hx
      have : x ≠ ch := by
        rintro rfl
        exact hid (Option.some.inj (hx'.2.symm.trans (h.listed k hk x hin).2))
      rw [hslot, if_neg this]
      exact hx'
  · intro x id hx hc
    rw [hslot] at hc
    split at hc
    · cases hc
    · rename_i hxc
      obtain ⟨o, ho, hid, hin'⟩ := h.named x id hx hc
      by_cases hok' : o.id = k.id
      · obtain rfl := conf_eq_of_id h.ids ho hk hok'
        exact ⟨o.left ch, hself, hid, (hsub x).mpr ⟨hxc, hin'⟩⟩
      · refine ⟨o, ?_, hid, hin'⟩
        simp only [hs1, State.setConf_confs, State.setSlot_confs, List.mem_map]
        exact ⟨o, ho, by simp [Conf.left, hok']⟩
  · intro o ho x hx
    rw [hwr]
    rcases hmem o ho with rfl | ⟨ho, -⟩
    · exact h.envelope k hk x ((hsub x).mp hx).2
    · exact h.envelope o ho x hx
  · intro a ha b hb ha' hb'
    rcases hmem a ha with rfl | ⟨ha, -⟩
    · exact absurd rfl ha'
    rcases hmem b hb with rfl | ⟨hb, -⟩
    · exact absurd rfl hb'
    exact h.units a ha b hb

/-- The state after the last member left and the record is deleted (R123, R126). -/
theorem State.Inv.emptied (h : s.Inv) (hk : k ∈ s.confs) (hin : ch ∈ k.members) (hne : (k.left ch).members = []) :
    State.Inv { s.setSlot ch { s.slot ch with conference := none } with
      confs := s.confs.filter fun o => o.id ≠ k.id } := by
  have hch := (h.listed k hk ch hin).1
  have hlen := h.chan_lt hch
  have hall : ∀ x ∈ k.members, x = ch := by
    intro x hx
    by_contra hxc
    have : x ∈ (k.left ch).members := by
      simpa [Conf.left] using ((h.confs k hk).nodup.mem_erase_iff).mpr ⟨hxc, hx⟩
    rw [hne] at this; cases this
  set s1 : State := { s.setSlot ch { s.slot ch with conference := none } with
      confs := s.confs.filter fun o => o.id ≠ k.id } with hs1
  have hmem : ∀ o ∈ s1.confs, o ∈ s.confs ∧ o.id ≠ k.id := fun o ho => by simpa [hs1] using ho
  have hslot : ∀ o : ChIx, s1.slot o = if o = ch then { s.slot ch with conference := none } else s.slot o :=
    State.slot_setSlot hlen
  have hnot : ∀ o ∈ s1.confs, ∀ x ∈ o.members, x ≠ ch := by
    rintro o ho x hx rfl
    obtain ⟨ho, hid⟩ := hmem o ho
    exact hid (Option.some.inj ((h.listed o ho x hx).2.symm.trans (h.listed k hk x hin).2))
  refine ⟨h.cfg, by simpa [hs1] using h.size, ?_, ?_, ?_, ?_, ?_, ?_, ?_, ?_⟩
  · exact chans_set h.chans ((h.chans _ (State.slot_mem hlen)).setConference none fun _ => rfl) _
  · exact (List.length_filter_le _ _).trans h.count
  · exact h.ids.sublist (List.Sublist.map _ List.filter_sublist)
  · exact fun o ho => h.confs o (hmem o ho).1
  · intro o ho x hx
    rw [hslot, if_neg (hnot o ho x hx)]
    exact h.listed o (hmem o ho).1 x hx
  · intro x id hx hc
    rw [hslot] at hc
    split at hc
    · cases hc
    · rename_i hxc
      obtain ⟨o, ho, hid, hin'⟩ := h.named x id hx hc
      refine ⟨o, ?_, hid, hin'⟩
      have : o.id ≠ k.id := fun e => by
        obtain rfl := conf_eq_of_id h.ids ho hk e
        exact hxc (hall x hin')
      simp [hs1, ho, this]
  · intro o ho x hx
    rw [hslot, if_neg (hnot o ho x hx)]
    exact h.envelope o (hmem o ho).1 x hx
  · exact fun a ha b hb => h.units a (hmem a ha).1 b (hmem b hb).1

/-- The registry after a record is replaced. -/
def replaced (l : List Conf) (q : Conf) : List Conf := l.map fun o => if o.id = q.id then q else o

theorem replaced_twice (l : List Conf) (p q : Conf) (h : p.id = q.id) : replaced (replaced l p) q = replaced l q := by
  simp only [replaced, List.map_map]
  refine List.map_congr_left fun o _ => ?_
  by_cases ho : o.id = q.id <;> simp [h, ho]

theorem filter_replaced (l : List Conf) (q : Conf) :
    (replaced l q).filter (fun o => o.id ≠ q.id) = l.filter fun o => o.id ≠ q.id := by
  induction l with
  | nil => rfl
  | cons o t ih =>
    simp only [replaced] at ih
    by_cases ho : o.id = q.id <;> simp [replaced, ho] <;> simpa using ih

/-- The leave half (R126, R127, R123, R156): it never fails in a state that meets the invariant, and keeps it. -/
theorem leavePart_ok (h : s.Inv) (hk : k ∈ s.confs) (hin : ch ∈ k.members) :
    ∃ s' evs, leavePart s ch k = .ok ⟨s', evs, none⟩ ∧ s'.Inv ∧ s'.cfg = s.cfg ∧ s'.input = s.input ∧
      s'.responses = s.responses ∧ s'.chan = s.chan.set ch.toNat { s.slot ch with conference := none } ∧
      (k.members = [ch] → evs = [] ∧ s'.confs = s.confs.filter fun o => o.id ≠ k.id) ∧
      (k.members ≠ [ch] → ∃ sol hw,
        Dispatched s { k with members := k.members.erase ch } k.members (.removed ch) sol hw evs ∧ s'.confs =
          replaced s.confs { k with members := k.members.erase ch, solution := sol, hwId := hw }) := by
  have hiff : (k.left ch).members = [] ↔ k.members = [ch] := by
    simp only [Conf.left]
    constructor
    · intro he
      match hm : k.members with
      | [] => rw [hm] at hin; cases hin
      | [a] =>
        have : a = ch := by rw [hm] at hin; exact (List.mem_singleton.mp hin).symm
        rw [this]
      | a :: b :: t =>
        have hl := List.length_erase_of_mem hin
        rw [he, hm] at hl; simp at hl
    · intro he; simp [he]
  unfold leavePart
  rw [removeMember_ok h hk hin]
  simp only
  by_cases he : (k.left ch).members = []
  · rw [if_pos he]
    simp only [destroy, he, if_true]
    have hf := filter_replaced s.confs (k.left ch)
    refine ⟨_, _, rfl, ?_, rfl, rfl, rfl, rfl, fun _ => ⟨rfl, hf⟩, fun hn => absurd (hiff.mp he) hn⟩
    have := h.emptied hk hin he
    rw [← show _ = s.confs.filter fun o => o.id ≠ k.id from hf] at this
    exact this
  · rw [if_neg he]
    have hx : (k.left ch).solution = .hwCrossconnect → k.members.length = 2 := (h.confs k hk).pair
    obtain ⟨evs, hd⟩ := dispatch_ok (s := (s.setSlot ch { s.slot ch with conference := none }).setConf (k.left ch))
      (k := k.left ch) (before := k.members) (change := .removed ch) hx
    rw [hd]
    refine ⟨_, evs, rfl, (h.removed hk hin).solve he, rfl, rfl, rfl, rfl, fun hn => absurd (hiff.mpr hn) he, fun _ => ?_⟩
    exact ⟨_, _, (dispatch_cases hx hd).2.of_changed (h.chan_lt (h.listed k hk ch hin).1) ⟨rfl, rfl⟩ rfl rfl rfl rfl,
      replaced_twice _ _ _ rfl⟩

/-! ### Joining -/

/-- What a fresh record satisfies. -/
theorem Conf.fresh_shape {c : Config} (hc : c.Valid) {id : ConfId} (h : id ≠ 0) : (Conf.fresh id).Shape c where
  idNonzero := h
  nodup := List.nodup_nil
  count := Nat.zero_le _
  buffWf := Mem.wf_filled _ _
  wMin := by have := hc.big; simp [Conf.fresh]; omega
  wMax := by have := hc.big; simp [Conf.fresh]; omega
  largest := Nat.zero_le _
  window := by
    have := hc.big
    simp only [Conf.fresh]
    rw [dist_nat (by omega) (by omega)]; simp

/-- A state with a fresh record at the end of the registry (R122). -/
theorem State.Inv.created (h : s.Inv) {id : ConfId} (hid : id ≠ 0) (hf : s.find id = none)
    (hroom : s.confs.length < s.cfg.nConf) : State.PreInv { s with confs := s.confs ++ [Conf.fresh id] } (Conf.fresh id) := by
  have hnone := State.find_none hf
  have hmem : ∀ o ∈ s.confs ++ [Conf.fresh id], o ∈ s.confs ∨ o = Conf.fresh id := fun o ho => by simpa using ho
  refine ⟨h.cfg, h.size, h.chans, by simpa using hroom, ?_, by simp, ?_, ?_, ?_, ?_, ?_, ?_, ?_, ?_⟩
  · simp only [List.map_append, List.map_cons, List.map_nil]
    refine List.nodup_append.mpr ⟨h.ids, by simp, ?_⟩
    intro a ha b hb
    obtain ⟨o, ho, rfl⟩ := List.mem_map.mp ha
    rw [List.mem_singleton.mp hb]
    exact hnone o ho
  · intro o ho
    rcases hmem o ho with ho | rfl
    · exact (h.confs o ho).shape
    · exact Conf.fresh_shape h.cfg hid
  · intro o ho hne
    rcases hmem o ho with ho | rfl
    · exact (h.confs o ho).nonempty
    · exact absurd rfl hne
  · intro o ho hne
    rcases hmem o ho with ho | rfl
    · exact (h.confs o ho).solution
    · exact absurd rfl hne
  · intro u hu; cases hu
  · intro o ho x hx
    rcases hmem o ho with ho | rfl
    · exact h.listed o ho x hx
    · cases hx
  · intro x i hx hc
    obtain ⟨o, ho, h1, h2⟩ := h.named x i hx hc
    exact ⟨o, by simp [ho], h1, h2⟩
  · intro o ho x hx
    rcases hmem o ho with ho | rfl
    · exact h.envelope o ho x hx
    · cases hx
  · intro a ha b hb ha' hb'
    rcases hmem a ha with ha | rfl
    · rcases hmem b hb with hb | rfl
      · exact h.units a ha b hb
      · exact absurd rfl hb'
    · exact absurd rfl ha'

/-- The slot after a join is in order. -/
theorem Channel.Ok.joined {c : Config} {o : Channel} (h : o.Ok c) (hk : k.Shape c) (hv : o.valid = true) :
    (o.joined c k).Ok c :=
  ⟨Mem.wf_filled _ _, h.txWf, hk.wMax, hk.wMax, h.wTx, h.rTx, h.largest, h.dtmfWf, h.size, h.decoder,
    fun hn => absurd (hv.symm.trans hn) (by simp)⟩

/-- The state after an add is one a dispatch can be called in (R124, R125). -/
theorem State.PreInv.added (h : s.PreInv k) (hch : ch.toNat < s.cfg.nChan) (hv : (s.slot ch).valid = true)
    (hc : (s.slot ch).conference = none) (hroom : k.members.length < s.cfg.maxMembers) :
    ((s.setSlot ch (Channel.joined s.cfg (s.slot ch) k)).setConf (k.joined ch)).PreInv (k.joined ch) := by
  have hlen : ch.toNat < s.chan.length := by rw [h.size]; exact hch
  have hk := h.shape k h.mem
  have hS : 0 < s.cfg.buffSize := by have := h.cfg.big; omega
  set s1 := (s.setSlot ch (Channel.joined s.cfg (s.slot ch) k)).setConf (k.joined ch) with hs1
  have hmem : ∀ o ∈ s1.confs, o = k.joined ch ∨ (o ∈ s.confs ∧ o.id ≠ k.id) := fun o ho => State.mem_setConf ho
  have hself : k.joined ch ∈ s1.confs := by
    simp only [hs1, State.setConf_confs, State.setSlot_confs, List.mem_map]
    exact ⟨k, h.mem, by simp [Conf.joined]⟩
  have hslot : ∀ o : ChIx, s1.slot o = if o = ch then Channel.joined s.cfg (s.slot ch) k else s.slot o := fun o => by
    rw [hs1, State.setConf_slot, State.slot_setSlot hlen]
  have hnot : ∀ o ∈ s.confs, ∀ x ∈ o.members, x ≠ ch := by
    rintro o ho x hx rfl
    exact absurd (hc.symm.trans (h.listed o ho x hx).2) (by simp)
  refine ⟨h.cfg, by simpa [hs1] using h.size, ?_, by simpa [hs1] using h.count, ?_, hself, ?_, ?_, ?_, ?_, ?_, ?_, ?_, ?_⟩
  · exact chans_set h.chans ((h.chans _ (State.slot_mem hlen)).joined hk hv) _
  · rw [hs1, State.setConf_ids]; exact h.ids
  · intro o ho
    rcases hmem o ho with rfl | ⟨ho, -⟩
    · refine ⟨hk.idNonzero, ?_, ?_, ?_, hk.wMin, hk.wMax, hk.largest, hk.window⟩
      · simp only [Conf.joined]
        refine List.nodup_append.mpr ⟨hk.nodup, by simp, ?_⟩
        intro a ha b hb
        rw [List.mem_singleton.mp hb]
        exact hnot k h.mem a ha
      · show (k.members ++ [ch]).length ≤ s.cfg.maxMembers
        simpa using hroom
      · simp only [Conf.joined]
        split
        · exact Mem.wf_filled _ _
        · exact hk.buffWf
    · exact h.shape o ho
  · intro o ho hne
    rcases hmem o ho with rfl | ⟨ho, hid⟩
    · exact absurd rfl hne
    · exact h.nonempty o ho hid
  · intro o ho hne
    rcases hmem o ho with rfl | ⟨ho, hid⟩
    · exact absurd rfl hne
    · exact h.sols o ho hid
  · exact h.range
  · intro o ho x hx
    rw [hslot]
    rcases hmem o ho with rfl | ⟨ho, -⟩
    · split
      · subst_vars; exact ⟨hch, rfl⟩
      · rename_i hxc
        have hx : x ∈ k.members := by simpa [Conf.joined, hxc] using hx
        exact h.listed k h.mem x hx
    · rw [if_neg (hnot o ho x hx)]
      exact h.listed o ho x hx
  · intro x id hx hc'
    rw [hslot] at hc'
    split at hc'
    · subst_vars
      exact ⟨k.joined x, hself, by simpa [Channel.joined, Conf.joined] using hc', by simp [Conf.joined]⟩
    · obtain ⟨o, ho, hid, hin⟩ := h.named x id hx hc'
      by_cases hok : o.id = k.id
      · obtain rfl := conf_eq_of_id h.ids ho h.mem hok
        exact ⟨o.joined ch, hself, hid, by simp [Conf.joined, hin]⟩
      · refine ⟨o, ?_, hid, hin⟩
        simp only [hs1, State.setConf_confs, State.setSlot_confs, List.mem_map]
        exact ⟨o, ho, by simp [Conf.joined, hok]⟩
  · intro o ho x hx
    rw [hslot]
    rcases hmem o ho with rfl | ⟨ho, -⟩
    · split
      · exact le_rfl
      · rename_i hxc
        have hx : x ∈ k.members := by simpa [Conf.joined, hxc] using hx
        exact h.envelope k h.mem x hx
    · rw [if_neg (hnot o ho x hx)]
      exact h.envelope o ho x hx
  · intro a ha b hb ha' hb'
    rcases hmem a ha with rfl | ⟨ha, -⟩
    · exact absurd rfl ha'
    rcases hmem b hb with rfl | ⟨hb, -⟩
    · exact absurd rfl hb'
    exact h.units a ha b hb ha' hb'

/-- The record a join finds or makes. -/
theorem findOrCreate_cases (s : State) {id : ConfId} (hid : id ≠ 0) :
    (∃ k, s.find id = some k ∧ findOrCreate s id = .ok (s, k)) ∨
    (s.find id = none ∧ s.cfg.nConf ≤ s.confs.length ∧ findOrCreate s id = .error .resourceExhausted) ∨
    (s.find id = none ∧ s.confs.length < s.cfg.nConf ∧
      findOrCreate s id = .ok ({ s with confs := s.confs ++ [Conf.fresh id] }, Conf.fresh id)) := by
  unfold findOrCreate
  cases hf : s.find id with
  | some k => exact .inl ⟨k, rfl, rfl⟩
  | none =>
    simp only [create, hid, if_false, hf, Option.isSome_none, Bool.false_eq_true]
    by_cases hn : s.cfg.nConf ≤ s.confs.length
    · exact .inr (.inl ⟨trivial, hn, by simp [hn]⟩)
    · exact .inr (.inr ⟨trivial, by omega, by simp [hn]⟩)

/-- An add and the dispatch after it, into a record with room. -/
theorem addMember_dispatch (h : s.PreInv k) (hsol : k.SolutionOk) (hch : ch.toNat < s.cfg.nChan)
    (hv : (s.slot ch).valid = true) (hc : (s.slot ch).conference = none)
    (hroom : k.members.length < s.cfg.maxMembers) :
    ∃ s2 s3 evs sol hw, addMember s ch k = .ok s2 ∧ dispatch s2 (k.joined ch) k.members (.added ch) = .ok (s3, evs) ∧
      s3.Inv ∧ s3.cfg = s.cfg ∧ s3.input = s.input ∧ s3.responses = s.responses ∧
      s3.chan = s.chan.set ch.toNat (Channel.joined s.cfg (s.slot ch) k) ∧
      s3.confs = replaced s.confs ((k.joined ch).solved sol hw) ∧ Settled s3 ((k.joined ch).solved sol hw) ∧
      Dispatched s { k with members := k.members ++ [ch] } k.members (.added ch) sol hw evs := by
  have hadd : addMember s ch k =
      .ok ((s.setSlot ch (Channel.joined s.cfg (s.slot ch) k)).setConf (k.joined ch)) := by
    simp [addMember, hc, Nat.not_le.mpr hroom]
  have hx : (k.joined ch).solution = .hwCrossconnect → k.members.length = 2 := by
    intro hx
    simp only [Conf.SolutionOk, show k.solution = .hwCrossconnect from hx] at hsol
    exact hsol.1
  obtain ⟨evs, hd⟩ := dispatch_ok (s := (s.setSlot ch (Channel.joined s.cfg (s.slot ch) k)).setConf (k.joined ch))
      (k := k.joined ch) (before := k.members) (change := .added ch) hx
  exact ⟨_, _, evs, _, _, hadd, hd, (h.added hch hv hc hroom).solve (by simp [Conf.joined]), rfl, rfl, rfl, rfl,
    replaced_twice _ _ _ rfl, settled_solved _ _,
    (dispatch_cases hx hd).2.of_changed (by rw [h.size]; exact hch) ⟨rfl, rfl⟩ rfl rfl rfl rfl⟩

/-- The dispatch after the first member joined a fresh record: `Software` stays (R142, R154). -/
theorem dispatch_single (s : State) (ch : ChIx) (id : ConfId) (before : List ChIx) :
    dispatch s ((Conf.fresh id).joined ch) before (.added ch) =
      .ok (s.setConf (((Conf.fresh id).joined ch).solved .software 0), []) := by
  have hc : classify s ((Conf.fresh id).joined ch) = .software := rfl
  simp only [dispatch, hc]
  simp [solutionHw, Conf.joined, Conf.fresh, stayEvents]

/-- The join half (R124, R125, R122, R156): it changes nothing and raises `ResourceExhausted` when there is no room, else
the channel joins; the invariant is kept. -/
theorem joinPart_ok (h : s.Inv) (hch : ch.toNat < s.cfg.nChan) (hv : (s.slot ch).valid = true)
    (hc : (s.slot ch).conference = none) {id : ConfId} (hid : id ≠ 0) :
    (((s.find id = none ∧ s.confs.length = s.cfg.nConf) ∨
        ∃ k, s.find id = some k ∧ k.members.length = s.cfg.maxMembers) ∧
      joinPart s ch id = .ok ⟨s, [], some .resourceExhausted⟩) ∨
    ∃ k s' evs sol hw, joinPart s ch id = .ok ⟨s', evs, none⟩ ∧ s'.Inv ∧ k.id = id ∧ s'.cfg = s.cfg ∧
      s'.input = s.input ∧ s'.responses = s.responses ∧
      s'.chan = s.chan.set ch.toNat (Channel.joined s.cfg (s.slot ch) k) ∧
      Settled s' ((k.joined ch).solved sol hw) ∧
      ((s.find id = some k ∧ k.members.length < s.cfg.maxMembers ∧
          s'.confs = replaced s.confs ((k.joined ch).solved sol hw) ∧
          Dispatched s { k with members := k.members ++ [ch] } k.members (.added ch) sol hw evs) ∨
        (s.find id = none ∧ s.confs.length < s.cfg.nConf ∧ k = Conf.fresh id ∧ evs = [] ∧
          sol = .software ∧ hw = 0 ∧ s'.confs = s.confs ++ [(k.joined ch).solved .software 0])) := by
  rcases findOrCreate_cases s hid with ⟨k, hf, hfc⟩ | ⟨hf, hn, hfc⟩ | ⟨hf, hn, hfc⟩
  · obtain ⟨hk, rfl⟩ := State.find_some hf
    by_cases hroom : k.members.length < s.cfg.maxMembers
    · obtain ⟨s2, s3, evs, sol, hw, h1, h2, h3, h4, h5, h6, h7, h8, h9, h10⟩ :=
        addMember_dispatch (h.pre hk) (h.confs k hk).solution hch hv hc hroom
      refine .inr ⟨k, s3, evs, sol, hw, ?_, h3, rfl, h4, h5, h6, h7, h9, .inl ⟨hf, hroom, h8, h10⟩⟩
      simp [joinPart, hfc, h1, h2]
    · refine .inl ⟨.inr ⟨k, hf, le_antisymm (h.confs k hk).count (by omega)⟩, ?_⟩
      simp [joinPart, hfc, addMember, hc, Nat.not_lt.mp hroom]
  · refine .inl ⟨.inl ⟨hf, le_antisymm h.count hn⟩, ?_⟩
    simp [joinPart, hfc]
  · have hp := h.created hid hf hn
    have hroom : (Conf.fresh id).members.length < s.cfg.maxMembers := by
      have := h.cfg.members.1; simp [Conf.fresh]; omega
    obtain ⟨s2, s3, evs, sol, hw, h1, h2, h3, h4, h5, h6, h7, h8, h9, -⟩ :=
      addMember_dispatch hp (by simp [Conf.SolutionOk, Conf.fresh]) (ch := ch) hch hv hc hroom
    have hset : s3.confs = replaced (s.confs ++ [Conf.fresh id]) (((Conf.fresh id).joined ch).solved .software 0) ∧
        evs = [] := by
      rw [show (Conf.fresh id).members = [] from rfl, dispatch_single] at h2
      simp only [addMember] at h1
      split at h1
      · cases h1
      split at h1
      · cases h1
      cases h1; cases h2
      exact ⟨replaced_twice _ _ _ rfl, rfl⟩
    have hin : ((Conf.fresh id).joined ch).solved sol hw ∈ s3.confs ∧
        ((Conf.fresh id).joined ch).solved .software 0 ∈ s3.confs := by
      constructor
      · rw [h8]; simp [replaced, Conf.joined, Conf.solved, Conf.fresh]
      · rw [hset.1]; simp [replaced, Conf.joined, Conf.solved, Conf.fresh]
    have heq := conf_eq_of_id h3.ids hin.1 hin.2 rfl
    have hsol : sol = .software := congrArg Conf.solution heq
    have hhw : hw = 0 := congrArg Conf.hwId heq
    refine .inr ⟨Conf.fresh id, s3, evs, sol, hw, ?_, h3, rfl, h4, h5, h6, h7, h9, .inr ⟨hf, hn, rfl, hset.2, hsol, hhw, ?_⟩⟩
    · simp [joinPart, hfc, h1, h2]
    · have hnone := State.find_none hf
      rw [hset.1]
      simp only [replaced, List.map_append, List.map_cons, List.map_nil]
      congr 1
      · refine (List.map_congr_left fun o ho => ?_).trans (List.map_id _)
        simp [Conf.joined, Conf.solved, Conf.fresh, hnone o ho]
      · simp [Conf.joined, Conf.solved, Conf.fresh]

/-! ### Staying, and the whole -/

/-- Re-classification with the membership unchanged (R156, R157): it keeps the invariant. -/
theorem stayPart_ok (h : s.Inv) (hk : k ∈ s.confs) :
    ∃ sol hw evs, stayPart s k.id = .ok ⟨s.setConf (k.solved sol hw), evs, none⟩ ∧ (s.setConf (k.solved sol hw)).Inv ∧
      Settled (s.setConf (k.solved sol hw)) (k.solved sol hw) ∧ Dispatched s k k.members .none sol hw evs := by
  obtain ⟨evs, hd⟩ := dispatch_ok (s := s) (before := k.members) (change := .none) (h.confs k hk).pair
  exact ⟨_, _, evs, by simp [stayPart, State.find_mem h.ids hk, hd], (h.pre hk).solve (h.confs k hk).nonempty,
    settled_solved s k, (dispatch_cases (h.confs k hk).pair hd).2⟩

/-- A requested conference has a nonzero id (R156). -/
theorem Channel.want_ne {o : Channel} {id : ConfId} (h : o.want = some id) : id ≠ 0 := by
  unfold Channel.want at h
  split at h
  · cases h; exact (‹_ ∧ _›).2
  · cases h

/-- What holds after any part of RECONFIGURE: the invariant, and only the registry and the slot's membership fields have
changed. -/
structure PartOk (s t : State) (ch : ChIx) : Prop where
  inv : t.Inv
  cfg : t.cfg = s.cfg
  input : t.input = s.input
  responses : t.responses = s.responses
  others : OtherSlotsKept s t ch
  slot : ∃ rx w r c, t.slot ch = { s.slot ch with rxBuff := rx, wRx := w, rRx := r, conference := c }

theorem PartOk.refl (h : s.Inv) : PartOk s s ch := ⟨h, rfl, rfl, rfl, fun _ _ => rfl, _, _, _, _, rfl⟩

theorem PartOk.trans {t u : State} (h : PartOk s t ch) (g : PartOk t u ch) : PartOk s u ch := by
  obtain ⟨_, _, _, _, h1⟩ := h.slot
  obtain ⟨_, _, _, _, h2⟩ := g.slot
  exact ⟨g.inv, g.cfg.trans h.cfg, g.input.trans h.input, g.responses.trans h.responses,
    fun o ho => (g.others o ho).trans (h.others o ho), _, _, _, _, by rw [h2, h1]⟩

/-- Reading a slot of a state whose slots differ from `s`'s in one place. -/
theorem slot_of_chan {t : State} {o : Channel} (hlen : ch.toNat < s.chan.length)
    (h : t.chan = s.chan.set ch.toNat o) (x : ChIx) : t.slot x = if x = ch then o else s.slot x := by
  have : t.slot x = (s.setSlot ch o).slot x := by simp [State.slot, State.setSlot, h]
  rw [this, State.slot_setSlot hlen]

/-- What RECONFIGURE comes to in a state that meets the invariant (R156, R157, R158): it stops nowhere, and the channel
ends in the conference it asks for, or in none with `ResourceExhausted`. -/
theorem reconfigure_ok (h : s.Inv) (hch : ch.toNat < s.cfg.nChan) (hv : (s.slot ch).valid = true) :
    ∃ p, reconfigure s ch (s.slot ch).want = .ok p ∧ PartOk s p.state ch ∧
      ((p.raised = none ∧ (p.state.slot ch).conference = (s.slot ch).want ∧
          ∀ id, (s.slot ch).want = some id → ∃ k ∈ p.state.confs, k.id = id ∧ Settled p.state k) ∨
        (p.raised = some .resourceExhausted ∧ (p.state.slot ch).conference = none ∧
          ∃ id, (s.slot ch).want = some id ∧
            joinPart p.state ch id = .ok ⟨p.state, [], some .resourceExhausted⟩)) := by
  have hlen := h.chan_lt hch
  -- the leave half
  have leave : ∃ s1 evs, reconfigureLeave s ch (s.slot ch).want = .ok ⟨s1, evs, none⟩ ∧ PartOk s s1 ch ∧
      ((s1.slot ch).conference = none ∨
        ((s1.slot ch).conference = (s.slot ch).want ∧ (s.slot ch).want ≠ none)) := by
    unfold reconfigureLeave
    cases hc : (s.slot ch).conference with
    | none => exact ⟨s, [], rfl, PartOk.refl h, .inl hc⟩
    | some c =>
      simp only
      split
      · rename_i hw
        exact ⟨s, [], rfl, PartOk.refl h, .inr ⟨by rw [hc, hw], by simp [hw]⟩⟩
      · obtain ⟨k, hk, rfl, hin, hf⟩ := h.conf_of_named hch hc
        obtain ⟨s', evs, h1, h2, h3, h4, h5, h6, -, -⟩ := leavePart_ok h hk hin
        have hs := slot_of_chan hlen h6
        refine ⟨s', evs, by rw [hf]; exact h1, ⟨h2, h3, h4, h5, fun o ho => by rw [hs, if_neg ho], ?_⟩, .inl ?_⟩
        · exact ⟨_, _, _, _, by rw [hs, if_pos rfl]⟩
        · rw [hs, if_pos rfl]
  obtain ⟨s1, evs, h1, h2, h3⟩ := leave
  obtain ⟨_, _, _, _, hslot⟩ := h2.slot
  have hch1 : ch.toNat < s1.cfg.nChan := by rw [h2.cfg]; exact hch
  have hv1 : (s1.slot ch).valid = true := by rw [hslot]; exact hv
  -- the join half
  have join : ∃ q, reconfigureJoin s1 ch (s.slot ch).want = .ok q ∧ PartOk s1 q.state ch ∧
      ((q.raised = none ∧ (q.state.slot ch).conference = (s.slot ch).want ∧
          ∀ id, (s.slot ch).want = some id → ∃ k ∈ q.state.confs, k.id = id ∧ Settled q.state k) ∨
        (q.raised = some .resourceExhausted ∧ (q.state.slot ch).conference = none ∧
          ∃ id, (s.slot ch).want = some id ∧
            joinPart q.state ch id = .ok ⟨q.state, [], some .resourceExhausted⟩)) := by
    unfold reconfigureJoin
    rcases h3 with hn | ⟨hw, hne⟩
    · rw [hn]
      cases hw : (s.slot ch).want with
      | none => exact ⟨_, rfl, PartOk.refl h2.inv, .inl ⟨rfl, hn, fun _ hc => by cases hc⟩⟩
      | some id =>
        simp only
        rcases joinPart_ok h2.inv hch1 hv1 hn (Channel.want_ne hw) with
          ⟨-, hj⟩ | ⟨k, s', evs, sol, hw', hj, g1, rfl, g2, g3, g4, g5, g6, g7⟩
        · exact ⟨_, hj, PartOk.refl h2.inv, .inr ⟨rfl, hn, id, rfl, hj⟩⟩
        · have hs := slot_of_chan (h2.inv.chan_lt hch1) g5
          refine ⟨_, hj, ⟨g1, g2, g3, g4, fun o ho => by rw [hs, if_neg ho], ?_⟩, .inl ⟨rfl, ?_, ?_⟩⟩
          · exact ⟨_, _, _, _, by rw [hs, if_pos rfl]; rfl⟩
          · rw [hs, if_pos rfl]; rfl
          · intro id hid
            cases hid
            refine ⟨_, ?_, ?_, g6⟩
            · rcases g7 with ⟨e1, -, e3, -⟩ | ⟨-, -, -, -, rfl, rfl, e3⟩
              · rw [e3]
                exact List.mem_map.mpr ⟨k, (State.find_some e1).1, by simp [Conf.joined, Conf.solved]⟩
              · rw [e3]; simp
            · rfl
    · cases hc : (s1.slot ch).conference with
      | none => exact absurd (hw.symm.trans hc) hne
      | some c =>
        simp only
        obtain ⟨k, hk, rfl, -, -⟩ := h2.inv.conf_of_named hch1 hc
        obtain ⟨sol, hw', evs, g1, g2, g3, -⟩ := stayPart_ok h2.inv hk
        refine ⟨_, g1, ⟨g2, rfl, rfl, rfl, fun _ _ => rfl, _, _, _, _, rfl⟩, .inl ⟨rfl, hw, ?_⟩⟩
        intro id hid
        rw [hw, hid] at hc
        cases hc
        exact ⟨_, List.mem_map.mpr ⟨k, hk, if_pos rfl⟩, rfl, g3⟩
  obtain ⟨q, g1, g2, g3⟩ := join
  refine ⟨⟨q.state, evs ++ q.events, q.raised⟩, ?_, h2.trans g2, g3⟩
  simp [reconfigure, h1, g1]

end Sys2Proof.Machine
end

