-- ==== Sys2Proof/Laws/Receive.lean ====
section
/-! SUPPORT. The operations of RECEIVE, each said once: the scan for the earliest write index, the mix buffer, and that an
accepted or dropped frame keeps the invariant. Positions are distances from one base index. -/

namespace Sys2Proof.Machine

/-! ### Positions -/

/-- The distance between two indices from their positions past a base. -/
theorem dist_of_pos {S b x y : Nat} (hb : b < S) (hx : x < S) (hy : y < S) :
    ringDist S x y = if ringDist S y b ≤ ringDist S x b then ringDist S x b - ringDist S y b else ringDist S x b + S - ringDist S y b := by
  rw [dist_nat hx hy, dist_nat hx hb, dist_nat hy hb]
  split_ifs <;> omega

/-- Positions past a base tell indices apart. -/
theorem eq_of_pos {S b x y : Nat} (hb : b < S) (hx : x < S) (hy : y < S) (h : ringDist S x b = ringDist S y b) : x = y := by
  rw [dist_nat hx hb, dist_nat hy hb] at h
  split_ifs at h <;> omega

/-- The position of an advanced index. -/
theorem pos_adv {S b x n : Nat} (hb : b < S) (hx : x < S) (h : ringDist S x b + n < S) :
    ringDist S (adv S x n) b = ringDist S x b + n := by
  have hS : 0 < S := by omega
  have hn : n ≤ S := by omega
  have hlt := adv_lt hS x n
  rw [dist_nat hx hb] at *
  rw [dist_nat hlt hb, adv_nat hx hn]
  split_ifs at * <;> omega

/-- Within half a ring of a base, `behind` compares positions (R102, R103). -/
theorem behind_iff_pos {S b x y : Nat} (hb : b < S) (hx : x < S) (hy : y < S) (hS : S % 2 = 0) (px : ringDist S x b < S / 2)
    (py : ringDist S y b < S / 2) : behind S x y = true ↔ ringDist S x b < ringDist S y b := by
  simp only [behind, ahead, Bool.not_eq_true', decide_eq_false_iff_not]
  rw [dist_of_pos hb hx hy]
  split_ifs <;> omega

/-- Within half a ring of a base, `later` takes the greater position (R103). -/
theorem pos_later {S b x y : Nat} (hb : b < S) (hx : x < S) (hy : y < S) (hS : S % 2 = 0) (px : ringDist S x b < S / 2)
    (py : ringDist S y b < S / 2) : ringDist S (later S x y) b = max (ringDist S x b) (ringDist S y b) := by
  have h := behind_iff_pos hb hx hy hS px py
  simp only [behind, Bool.not_eq_true'] at h
  unfold later
  split_ifs with h'
  · simp only [h', Bool.true_eq_false, false_iff, not_lt] at h; omega
  · simp only [h', true_iff] at h; omega

/-! ### The scan (R174) -/

/-- What the scan finds: a write index at or before the candidate and the others', and one of them. -/
theorem scanMin_pos {s : State} {ch : ChIx} {b : Nat} (hb : b < s.cfg.buffSize) (hS : s.cfg.buffSize % 2 = 0)
    (l : List ChIx) (w : Nat) (hw : w < s.cfg.buffSize) (pw : ringDist s.cfg.buffSize w b < s.cfg.buffSize / 2)
    (hl : ∀ o ∈ l, o ≠ ch → (s.slot o).wRx < s.cfg.buffSize ∧
      ringDist s.cfg.buffSize (s.slot o).wRx b < s.cfg.buffSize / 2) :
    scanMin s ch l w < s.cfg.buffSize ∧
      ringDist s.cfg.buffSize (scanMin s ch l w) b ≤ ringDist s.cfg.buffSize w b ∧
      (∀ o ∈ l, o ≠ ch → ringDist s.cfg.buffSize (scanMin s ch l w) b ≤ ringDist s.cfg.buffSize (s.slot o).wRx b) ∧
      (scanMin s ch l w = w ∨ ∃ o ∈ l, o ≠ ch ∧ scanMin s ch l w = (s.slot o).wRx) := by
  induction l generalizing w with
  | nil => exact ⟨hw, le_rfl, by simp, .inl rfl⟩
  | cons o t ih =>
    simp only [scanMin]
    have ht : ∀ x ∈ t, x ≠ ch → _ := fun x hx => hl x (by simp [hx])
    by_cases ho : o ≠ ch ∧ behind s.cfg.buffSize (s.slot o).wRx w
    · rw [if_pos ho]
      obtain ⟨h1, h2⟩ := hl o (by simp) ho.1
      have hlt := (behind_iff_pos hb h1 hw hS h2 pw).mp ho.2
      obtain ⟨g1, g2, g3, g4⟩ := ih _ h1 h2 ht
      refine ⟨g1, by omega, ?_, ?_⟩
      · intro x hx hne
        rcases List.mem_cons.mp hx with rfl | hx
        · exact g2
        · exact g3 x hx hne
      · rcases g4 with g4 | ⟨x, hx, g4⟩
        · exact .inr ⟨o, by simp, ho.1, g4⟩
        · exact .inr ⟨x, by simp [hx], g4⟩
    · rw [if_neg ho]
      obtain ⟨g1, g2, g3, g4⟩ := ih _ hw pw ht
      refine ⟨g1, g2, ?_, ?_⟩
      · intro x hx hne
        rcases List.mem_cons.mp hx with rfl | hx
        · obtain ⟨h1, h2⟩ := hl x (by simp) hne
          have := (behind_iff_pos hb h1 hw hS h2 pw).not.mp (fun h => ho ⟨hne, h⟩)
          omega
        · exact g3 x hx hne
      · rcases g4 with g4 | ⟨x, hx, g4⟩
        · exact .inl g4
        · exact .inr ⟨x, by simp [hx], g4⟩

/-! ### The mix buffer (R179, R180) -/

theorem mixFrame_wf {c : Config} (hS : 0 < c.buffSize) (law : Law) (bs : List Byte) {m : Mem Word} (h : m.wf c.buffSize)
    (i k : Nat) : (mixFrame c law m i k bs).wf c.buffSize := by
  induction bs generalizing m i k with
  | nil => exact h
  | cons b bs ih => exact ih (Mem.wf_write h (adv_lt hS _ _) _) _ _

/-- What an accepted frame leaves in the mix buffer: sample `n` added to its cell while `n < k`, assigned from there on,
every other cell as before. -/
theorem mixFrame_read {c : Config} (law : Law) (bs : List Byte) {m : Mem Word} (h : m.wf c.buffSize) {i j : Nat} (k : Nat)
    (hi : i < c.buffSize) (hj : j < c.buffSize) (hl : bs.length ≤ c.buffSize) :
    (mixFrame c law m i k bs).read j =
      match bs[ringDist c.buffSize j i]? with
      | some b => if ringDist c.buffSize j i < k then wrap32 ((m.read j).toInt + decLaw c law b) else wrap32 (decLaw c law b)
      | none => m.read j := by
  have hS : 0 < c.buffSize := by omega
  induction bs generalizing m i k with
  | nil => simp [mixFrame]
  | cons b bs ih =>
    have hl' : bs.length + 1 ≤ c.buffSize := by simpa using hl
    have ha := adv_zero hi
    rw [mixFrame]
    rw [ih (Mem.wf_write h (adv_lt hS _ _) _) _ (adv_lt hS _ _) (by omega), ha, Mem.read_write h]
    have e1 : adv c.buffSize i 1 = if i + 1 < c.buffSize then i + 1 else i + 1 - c.buffSize :=
      adv_nat (n := 1) hi (by omega)
    have hlt := adv_lt hS i 1
    have d1 := dist_nat hj hi
    have d2 := dist_nat hj hlt
    by_cases hji : j = i
    · subst hji
      have d0 : ringDist c.buffSize j j = 0 := by rw [d1]; simp
      have : bs.length ≤ ringDist c.buffSize j (adv c.buffSize j 1) := by
        rw [d2, e1]; split_ifs <;> omega
      simp [d0, List.getElem?_eq_none this]
    · have hd : ringDist c.buffSize j i = ringDist c.buffSize j (adv c.buffSize i 1) + 1 := by
        rw [d1, d2, e1]; split_ifs <;> omega
      simp only [hd, hji, if_false, List.getElem?_cons_succ]
      have : ringDist c.buffSize j (adv c.buffSize i 1) < k - 1 ↔ ringDist c.buffSize j (adv c.buffSize i 1) + 1 < k := by omega
      simp only [this]

end Sys2Proof.Machine
end

