-- ==== Sys2Proof/Laws/Send.lean ====
section
/-! SUPPORT. The loop of SEND in closed form: which queued byte and which ring index each output byte uses, where the tx
index ends, and how the two read indices are related. -/

namespace Sys2Proof.Machine

variable {c : Config} {me : Channel}

/-- The queued byte at output offset `n` of a queue read from index `t` (R206): the byte `n` places on while that many are
queued. -/
def queuedAt (c : Config) (me : Channel) (t n : Nat) : Option Byte :=
  if n < ringDist c.buffSize me.wTx t then some (me.txBuff.read (adv c.buffSize t n)) else none

/-- One output byte brings the tx index one closer to `W_tx`, until the queue is empty. -/
theorem dist_nextTx (hw : me.wTx < c.buffSize) {t : Nat} (ht : t < c.buffSize) :
    ringDist c.buffSize me.wTx (nextTx c me t) = ringDist c.buffSize me.wTx t - 1 := by
  have e1 : adv c.buffSize t 1 = if t + 1 < c.buffSize then t + 1 else t + 1 - c.buffSize := adv_nat (n := 1) ht (by omega)
  have hlt := adv_lt (S := c.buffSize) (by omega) t 1
  unfold nextTx
  split
  · subst_vars; rw [dist_nat hw hw]; simp
  · rw [dist_nat hw hlt, dist_nat hw ht, e1]; split_ifs <;> omega

theorem dist_eq_zero {S a b : Nat} (ha : a < S) (hb : b < S) : ringDist S a b = 0 ↔ b = a := by
  rw [dist_nat ha hb]; split_ifs <;> omega

theorem nextTx_lt {t : Nat} (ht : t < c.buffSize) : nextTx c me t < c.buffSize := by
  unfold nextTx; split
  · exact ht
  · exact adv_lt (by omega) _ _

/-- Where the tx index ends (R206): advanced by the bytes consumed. -/
theorem sendTx_eq (hw : me.wTx < c.buffSize) (n : Nat) {t : Nat} (ht : t < c.buffSize) :
    sendTx c me n t = adv c.buffSize t (min n (ringDist c.buffSize me.wTx t) : Nat) := by
  have hS : 0 < c.buffSize := by omega
  induction n generalizing t with
  | zero => simp [sendTx, adv_zero ht]
  | succ n ih =>
    rw [sendTx, ih (nextTx_lt ht), dist_nextTx hw ht]
    by_cases h : t = me.wTx
    · have : ringDist c.buffSize me.wTx t = 0 := (dist_eq_zero hw ht).mpr h
      rw [this, nextTx, if_pos h]; simp
    · have : ringDist c.buffSize me.wTx t ≠ 0 := fun e => h ((dist_eq_zero hw ht).mp e)
      rw [nextTx, if_neg h, adv_adv hS]
      congr 1
      omega

theorem sendBytes_length (src : Source) (r n i t : Nat) : (sendBytes c me src r n i t).length = n := by
  induction n generalizing i t with
  | zero => rfl
  | succ n ih => simp [sendBytes, ih]

/-- Output byte `j` of SEND (R195, R206). -/
theorem sendBytes_getElem? (hw : me.wTx < c.buffSize) (src : Source) (r n i : Nat) {t j : Nat} (ht : t < c.buffSize)
    (hj : j < n) :
    (sendBytes c me src r n i t)[j]? =
      some (sendByte c me src (queuedAt c me t j) (adv c.buffSize r (i + j : Nat))) := by
  have hS : 0 < c.buffSize := by omega
  induction n generalizing i t j with
  | zero => omega
  | succ n ih =>
    cases j with
    | zero =>
      simp only [sendBytes, List.getElem?_cons_zero, queuedAt, queuedByte]
      have h0 := dist_eq_zero hw ht
      congr 2
      by_cases h : t = me.wTx
      · rw [if_pos h, h0.mpr h]; rfl
      · have : 0 < ringDist c.buffSize me.wTx t := Nat.pos_of_ne_zero fun e => h (h0.mp e)
        simp [h, this, adv_zero ht]
    | succ j =>
      simp only [sendBytes, List.getElem?_cons_succ]
      rw [ih (i + 1) (nextTx_lt ht) (by omega)]
      congr 2
      · simp only [queuedAt, dist_nextTx hw ht]
        have h0 := dist_eq_zero hw ht
        by_cases h : t = me.wTx
        · simp [h0.mpr h]
        · have : 0 < ringDist c.buffSize me.wTx t := Nat.pos_of_ne_zero fun e => h (h0.mp e)
          have e : j < ringDist c.buffSize me.wTx t - 1 ↔ j + 1 < ringDist c.buffSize me.wTx t := by omega
          simp only [e, nextTx, if_neg h, adv_adv hS]
          congr 3
          push_cast; ring_nf
      · push_cast; ring_nf

/-- The two read indices are `len` apart (R192). -/
theorem readPointers_fst {S r : Nat} (hr : r < S) (rr len : Nat) (hrr : rr < S) :
    (readPointers S r rr len).1 = adv S (readPointers S r rr len).2 (-(len : Int)) := by
  have hS : 0 < S := by omega
  unfold readPointers
  simp only
  split
  · rfl
  · simp only [adv_adv hS]
    simp [adv_zero hr]

/-- The index stored in `R_rx` (R192): the limit when the read overruns it, else the end of the read. -/
theorem readPointers_snd {S r rr len : Nat} (hS : 0 < S) (hrr : rr < S) :
    (readPointers S r rr len).2 =
      if 0 < ringDist S (adv S r len) rr ∧ ringDist S (adv S r len) rr < S / 2 then rr else adv S r len := by
  have he := adv_lt hS r len
  have h0 := dist_eq_zero he hrr
  unfold readPointers
  simp only [ahead, decide_eq_true_eq]
  have : (adv S r len ≠ rr ∧ ringDist S (adv S r len) rr < S / 2) ↔
      (0 < ringDist S (adv S r len) rr ∧ ringDist S (adv S r len) rr < S / 2) := by
    rw [Nat.pos_iff_ne_zero, Ne, Ne, h0, eq_comm (a := rr)]
  by_cases h : 0 < ringDist S (adv S r len) rr ∧ ringDist S (adv S r len) rr < S / 2
  · rw [if_pos h, if_pos (this.mpr h)]
  · rw [if_neg h, if_neg (this.not.mpr h)]

end Sys2Proof.Machine
end

