-- ==== Sys2Proof/Laws/Invariant.lean ====
section
/-! SUPPORT. How the invariant survives each shape of update: a response, a slot, a slot and its conference; and the two
outcomes of RECEIVE. -/

namespace Sys2Proof.Machine

variable {s : State} {ch : ChIx} {k : Conf}

/-- A response does not touch what the invariant speaks of. -/
theorem State.Inv.respond (h : s.Inv) (r : Response) : (s.respond r).Inv :=
  ⟨h.cfg, h.size, h.chans, h.count, h.ids, h.confs, h.listed, h.named, h.envelope, h.units⟩

/-- Nor does the command stream. -/
theorem State.Inv.consumed (h : s.Inv) (rest : List Byte) : (s.consumed rest).Inv :=
  ⟨h.cfg, h.size, h.chans, h.count, h.ids, h.confs, h.listed, h.named, h.envelope, h.units⟩

/-- A slot is replaced by one in order that is in the same conference; a member's write index stays. -/
theorem State.Inv.setSlot (h : s.Inv) (hch : ch.toNat < s.cfg.nChan) {o : Channel} (ho : o.Ok s.cfg)
    (hc : o.conference = (s.slot ch).conference) (hw : o.conference ≠ none → o.wRx = (s.slot ch).wRx) :
    (s.setSlot ch o).Inv := by
  have hlen := h.chan_lt hch
  have hslot : ∀ x : ChIx, (s.setSlot ch o).slot x = if x = ch then o else s.slot x := State.slot_setSlot hlen
  have hconf : ∀ x : ChIx, ((s.setSlot ch o).slot x).conference = (s.slot x).conference := fun x => by
    rw [hslot]; split
    · subst_vars; exact hc
    · rfl
  refine ⟨h.cfg, by simpa using h.size, chans_set h.chans ho _, h.count, h.ids, h.confs, ?_, ?_, ?_, h.units⟩
  · intro q hq x hx; rw [hconf]; exact h.listed q hq x hx
  · intro x id hx hxc; rw [hconf] at hxc; exact h.named x id hx hxc
  · intro q hq x hx
    have : ((s.setSlot ch o).slot x).wRx = (s.slot x).wRx := by
      rw [hslot]; split
      · subst_vars
        exact hw (by rw [hc, (h.listed q hq x hx).2]; simp)
      · rfl
    rw [this]; exact h.envelope q hq x hx

/-- A member's slot and its conference are replaced, the membership and the solution kept. -/
theorem State.Inv.setMember (h : s.Inv) (hk : k ∈ s.confs) (hin : ch ∈ k.members) {o : Channel} {q : Conf}
    (ho : o.Ok s.cfg) (hq : q.Ok s.cfg) (hc : o.conference = (s.slot ch).conference) (hid : q.id = k.id)
    (hm : q.members = k.members) (hsol : q.solution = k.solution) (hhw : q.hwId = k.hwId)
    (henv : ∀ x ∈ k.members, ringDist s.cfg.buffSize (if x = ch then o.wRx else (s.slot x).wRx) q.wMin ≤
      ringDist s.cfg.buffSize q.wMax q.wMin) :
    ((s.setSlot ch o).setConf q).Inv := by
  have hlen := h.chan_lt (h.listed k hk ch hin).1
  set t := (s.setSlot ch o).setConf q with ht
  have hslot : ∀ x : ChIx, t.slot x = if x = ch then o else s.slot x := fun x => by
    rw [ht, State.setConf_slot, State.slot_setSlot hlen]
  have hconf : ∀ x : ChIx, (t.slot x).conference = (s.slot x).conference := fun x => by
    rw [hslot]; split
    · subst_vars; exact hc
    · rfl
  have hmem : ∀ a ∈ t.confs, a = q ∨ (a ∈ s.confs ∧ a.id ≠ k.id) := fun a ha => by
    rw [← hid]; exact State.mem_setConf ha
  have hself : q ∈ t.confs := by
    simp only [ht, State.setConf_confs, State.setSlot_confs, List.mem_map]
    exact ⟨k, hk, by simp [hid]⟩
  refine ⟨h.cfg, by simpa [ht] using h.size, chans_set h.chans ho _, by simpa [ht] using h.count, ?_, ?_, ?_, ?_, ?_, ?_⟩
  · rw [ht, State.setConf_ids]; exact h.ids
  · intro a ha
    rcases hmem a ha with rfl | ⟨ha, -⟩
    · exact hq
    · exact h.confs a ha
  · intro a ha x hx
    rw [hconf]
    rcases hmem a ha with rfl | ⟨ha', -⟩
    · rw [hid]; exact h.listed k hk x (hm ▸ hx)
    · exact h.listed a ha' x hx
  · intro x id hx hxc
    rw [hconf] at hxc
    obtain ⟨a, ha, h1, h2⟩ := h.named x id hx hxc
    by_cases hak : a.id = k.id
    · obtain rfl := conf_eq_of_id h.ids ha hk hak
      exact ⟨q, hself, hid.trans h1, hm ▸ h2⟩
    · refine ⟨a, ?_, h1, h2⟩
      simp only [ht, State.setConf_confs, State.setSlot_confs, List.mem_map]
      exact ⟨a, ha, by simp [hid, hak]⟩
  · intro a ha x hx
    rcases hmem a ha with rfl | ⟨ha', hak⟩
    · have := henv x (hm ▸ hx)
      rw [hslot]
      split at this <;> rename_i hxc
      · rw [if_pos hxc]; exact this
      · rw [if_neg hxc]; exact this
    · have : x ≠ ch := by
        rintro rfl
        exact hak (Option.some.inj ((h.listed a ha' x hx).2.symm.trans (h.listed k hk x hin).2))
      rw [hslot, if_neg this]
      exact h.envelope a ha' x hx
  · intro a ha b hb hab hhw' u hu
    rcases hmem a ha with rfl | ⟨ha', hak⟩ <;> rcases hmem b hb with rfl | ⟨hb', hbk⟩
    · exact absurd rfl hab
    · exact h.units k hk b hb' (Ne.symm hbk) (hhw ▸ hhw') u (hsol ▸ hu)
    · intro hu'
      exact h.units k hk a ha' (Ne.symm hak) (hhw ▸ hhw'.symm) u (hsol ▸ hu') hu
    · exact h.units a ha' b hb' hab hhw' u hu

/-! ### RECEIVE -/

/-- What RECEIVE computes for a member, in a state that meets the invariant: with the old `W_min` as the base, the
positions of the new write index, of `W_max` and of `W_min` (R174, R175). -/
structure Window (s : State) (ch : ChIx) (k : Conf) (len wMin wMax : Nat) : Prop where
  minLt : wMin < s.cfg.buffSize
  maxLt : wMax < s.cfg.buffSize
  posNew : ringDist s.cfg.buffSize (adv s.cfg.buffSize (s.slot ch).wRx len) k.wMin =
    ringDist s.cfg.buffSize (s.slot ch).wRx k.wMin + len
  posMax : ringDist s.cfg.buffSize wMax k.wMin =
    max (ringDist s.cfg.buffSize (s.slot ch).wRx k.wMin + len) (ringDist s.cfg.buffSize k.wMax k.wMin)
  minNew : ringDist s.cfg.buffSize wMin k.wMin ≤ ringDist s.cfg.buffSize (s.slot ch).wRx k.wMin + len
  minOthers : ∀ o ∈ k.members, o ≠ ch →
    ringDist s.cfg.buffSize wMin k.wMin ≤ ringDist s.cfg.buffSize (s.slot o).wRx k.wMin
  found : wMin = adv s.cfg.buffSize (s.slot ch).wRx len ∨ ∃ o ∈ k.members, o ≠ ch ∧ wMin = (s.slot o).wRx
  /-- Every position is less than half a ring. -/
  near : ringDist s.cfg.buffSize (s.slot ch).wRx k.wMin + len < s.cfg.buffSize / 2 ∧
    ringDist s.cfg.buffSize k.wMax k.wMin < s.cfg.buffSize / 2

/-- Half of `BUFF_SIZE` is exact. -/
theorem even_buffSize {c : Config} (h : c.Valid) : c.buffSize % 2 = 0 := by
  obtain ⟨n, hn⟩ := h.pow
  have := h.big
  rcases n with _ | n
  · omega
  · rw [hn, pow_succ]; omega

theorem State.Inv.window (h : s.Inv) (hk : k ∈ s.confs) (hin : ch ∈ k.members) {len : Nat} (hl : len ≤ s.cfg.maxLen) :
    Window s ch k len (scanMin s ch k.members (adv s.cfg.buffSize (s.slot ch).wRx len))
      (later s.cfg.buffSize (adv s.cfg.buffSize (s.slot ch).wRx len) k.wMax) := by
  have hS := even_buffSize h.cfg
  have hbig := h.cfg.big
  have hok := h.confs k hk
  have hml : 4 * s.cfg.maxLen ≤ s.cfg.buffSize / 2 := by simp only [Config.maxLen, Config.half]; omega
  have hW := hok.window
  have hL := hok.largest
  have hb := hok.wMin
  have hwch : (s.slot ch).wRx < s.cfg.buffSize := (h.chans _ (State.slot_mem (h.chan_lt (h.listed k hk ch hin).1))).wRx
  have hp := h.envelope k hk ch hin
  have hnew : ringDist s.cfg.buffSize (adv s.cfg.buffSize (s.slot ch).wRx len) k.wMin =
      ringDist s.cfg.buffSize (s.slot ch).wRx k.wMin + len := pos_adv hb hwch (by omega)
  have hnlt := adv_lt (S := s.cfg.buffSize) (by omega) (s.slot ch).wRx len
  have hnear : ringDist s.cfg.buffSize (s.slot ch).wRx k.wMin + len < s.cfg.buffSize / 2 ∧
    ringDist s.cfg.buffSize k.wMax k.wMin < s.cfg.buffSize / 2 := by omega
  obtain ⟨g1, g2, g3, g4⟩ := scanMin_pos (s := s) (ch := ch) hb hS k.members _ hnlt (by omega) (fun o ho _ =>
    ⟨(h.chans _ (State.slot_mem (h.chan_lt (h.listed k hk o ho).1))).wRx, by have := h.envelope k hk o ho; omega⟩)
  refine ⟨g1, later_lt hnlt hok.wMax, hnew, ?_, by rw [← hnew]; exact g2, g3, g4, hnear⟩
  rw [pos_later hb hnlt hok.wMax hS (by omega) hnear.2, hnew]

/-- RECEIVE's two outcomes keep the invariant (R42, R44, R177, R181). -/
theorem State.Inv.receiveMember (h : s.Inv) (hk : k ∈ s.confs) (hin : ch ∈ k.members) {frame : List Byte}
    (hl : frame.length ≤ s.cfg.maxLen) : (receiveMember s ch k frame).Inv := by
  have win := h.window hk hin hl
  have hok := h.confs k hk
  have hch := (h.listed k hk ch hin).1
  have hme := h.chans _ (State.slot_mem (h.chan_lt hch))
  have hS : 0 < s.cfg.buffSize := by have := h.cfg.big; omega
  have hb := hok.wMin
  unfold Machine.receiveMember
  simp only
  set wNew := adv s.cfg.buffSize (s.slot ch).wRx frame.length with hwNew
  set wMin := scanMin s ch k.members wNew with hwMin
  set wMax := later s.cfg.buffSize wNew k.wMax with hwMax
  set m := max (max (s.slot ch).largest (2 * frame.length)) k.largest with hm
  have hnlt : wNew < s.cfg.buffSize := adv_lt hS _ _
  have hwin : ringDist s.cfg.buffSize wMax wMin = ringDist s.cfg.buffSize wMax k.wMin - ringDist s.cfg.buffSize wMin k.wMin := by
    rw [dist_of_pos hb win.maxLt win.minLt, if_pos]
    rw [win.posMax]; have := win.minNew; omega
  have hmle : m ≤ 2 * s.cfg.maxLen := by
    have h1 := hme.largest; have h2 := hok.largest; simp only [hm]; omega
  have hmk : k.largest ≤ m := by simp only [hm]; omega
  have hml : 2 * frame.length ≤ m := by simp only [hm]; omega
  have hmax := win.posMax
  have hmin := win.minNew
  have hp := h.envelope k hk ch hin
  have hW := hok.window
  have hoth := win.minOthers
  have posOf : ∀ x ∈ k.members, ∀ q, q < s.cfg.buffSize →
      ringDist s.cfg.buffSize q k.wMin ≤ ringDist s.cfg.buffSize (s.slot x).wRx k.wMin →
      ringDist s.cfg.buffSize (s.slot x).wRx q =
        ringDist s.cfg.buffSize (s.slot x).wRx k.wMin - ringDist s.cfg.buffSize q k.wMin := by
    intro x hx q hq hle
    rw [dist_of_pos hb (h.chans _ (State.slot_mem (h.chan_lt (h.listed k hk x hx).1))).wRx hq, if_pos hle]
  split
  · rename_i hdrop
    -- dropped
    have hq : ringDist s.cfg.buffSize wMin k.wMin ≤ ringDist s.cfg.buffSize (s.slot ch).wRx k.wMin := by omega
    have hmaxd : ringDist s.cfg.buffSize k.wMax wMin = ringDist s.cfg.buffSize k.wMax k.wMin - ringDist s.cfg.buffSize wMin k.wMin := by
      rw [dist_of_pos hb hok.wMax win.minLt, if_pos (by omega)]
    refine State.Inv.respond ?_ _
    refine h.setMember hk hin ?_ ?_ rfl rfl rfl rfl rfl ?_
    · exact ⟨hme.rxWf, hme.txWf, hme.wRx, hme.rRx, hme.wTx, hme.rTx, hmle, hme.dtmfWf, hme.size, hme.decoder, hme.outside⟩
    · exact ⟨hok.idNonzero, hok.nonempty, hok.nodup, hok.count, hok.buffWf, win.minLt, hok.wMax, hmle,
        by show ringDist s.cfg.buffSize k.wMax wMin ≤ m; omega, hok.solution⟩
    · intro x hx
      have hx' : ringDist s.cfg.buffSize wMin k.wMin ≤ ringDist s.cfg.buffSize (s.slot x).wRx k.wMin := by
        by_cases hxc : x = ch
        · rw [hxc]; exact hq
        · exact hoth x hx hxc
      have henv := h.envelope k hk x hx
      have e : (if x = ch then (Channel.raised (s.slot ch) m).wRx else (s.slot x).wRx) = (s.slot x).wRx := by
        split
        · rename_i hxc; rw [hxc]; rfl
        · rfl
      rw [e]
      show ringDist s.cfg.buffSize (s.slot x).wRx wMin ≤ ringDist s.cfg.buffSize k.wMax wMin
      rw [posOf x hx wMin win.minLt hx', hmaxd]; omega
  · rename_i hacc
    -- accepted
    refine State.Inv.respond ?_ _
    refine h.setMember hk hin ?_ ?_ rfl rfl rfl rfl rfl ?_
    · exact ⟨ringWrite_wf hS _ hme.rxWf _, hme.txWf, hnlt, hme.rRx, hme.wTx, hme.rTx, hmle, hme.dtmfWf, hme.size,
        hme.decoder, hme.outside⟩
    · refine ⟨hok.idNonzero, hok.nonempty, hok.nodup, hok.count, ?_, win.minLt, win.maxLt, hmle,
        by show ringDist s.cfg.buffSize wMax wMin ≤ m; omega, hok.solution⟩
      show (Conf.mixed s.cfg k _ _ frame).wf _
      unfold Conf.mixed
      split
      · exact mixFrame_wf hS _ _ hok.buffWf _ _
      · exact hok.buffWf
    · intro x hx
      show ringDist s.cfg.buffSize _ wMin ≤ ringDist s.cfg.buffSize wMax wMin
      rw [hwin]
      split
      · show ringDist s.cfg.buffSize wNew wMin ≤ _
        rw [dist_of_pos hb hnlt win.minLt, if_pos (by rw [win.posNew]; omega), win.posNew]
        omega
      · rename_i hxc
        rw [posOf x hx wMin win.minLt (hoth x hx hxc)]
        have := h.envelope k hk x hx
        omega

/-- A slot of a state that meets the invariant meets its own. -/
theorem State.Inv.slot_ok (h : s.Inv) (hch : ch.toNat < s.cfg.nChan) : (s.slot ch).Ok s.cfg :=
  h.chans _ (State.slot_mem (h.chan_lt hch))

/-- A slot as CH_INIT leaves it (R46). -/
theorem Channel.fresh_ok {c : Config} (hc : c.Valid) (law : Law) : (Channel.fresh c law).Ok c := by
  have hb := hc.big
  have hp := hc.points
  have zero : 0 < c.buffSize := by omega
  exact ⟨Mem.wf_filled _ _, Mem.wf_filled _ _, zero, zero, zero, zero, Nat.zero_le _, Mem.wf_filled _ _, hp, fun _ => rfl,
    fun _ => rfl⟩

/-- A slot as SEND and SEND_TONE leave it (R193, R206). -/
theorem Channel.Ok.sent {c : Config} {k : Channel} (h : k.Ok c) {a b : Nat} (ha : a < c.buffSize) (hb : b < c.buffSize) :
    (k.sent a b).Ok c :=
  ⟨h.rxWf, h.txWf, h.wRx, ha, h.wTx, hb, h.largest, h.dtmfWf, h.size, h.decoder, h.outside⟩

/-! ### What SEND finds -/

/-- The conference SEND finds: none, or the record that lists the channel. -/
def SendFinds (s : State) (ch : ChIx) (found : Option Conf) : Prop :=
  (s.slot ch).conference = none ∧ found = none ∨
    ∃ k ∈ s.confs, (s.slot ch).conference = some k.id ∧ ch ∈ k.members ∧ found = some k

/-- SEND finds the channel's conference (R191). -/
theorem sendConf_ok (h : s.Inv) (hch : ch.toNat < s.cfg.nChan) : ∃ found, sendConf s ch = .ok found ∧ SendFinds s ch found := by
  unfold sendConf
  cases hc : (s.slot ch).conference with
  | none => exact ⟨none, rfl, .inl ⟨hc, rfl⟩⟩
  | some id =>
    obtain ⟨k, hk, rfl, hin, hf⟩ := h.conf_of_named hch hc
    exact ⟨some k, by simp [hf], .inr ⟨k, hk, hc, hin, rfl⟩⟩

/-- The read limit is a ring index. -/
theorem readLimit_lt (h : s.Inv) (hch : ch.toNat < s.cfg.nChan) {found : Option Conf} (hf : SendFinds s ch found) :
    readLimit (s.slot ch) found < s.cfg.buffSize := by
  rcases hf with ⟨-, rfl⟩ | ⟨k, hk, -, -, rfl⟩
  · exact (h.slot_ok hch).wRx
  · exact (h.confs k hk).wMin

/-- The index SEND stores in `R_rx` is a ring index. -/
theorem readPointers_lt {S r rr len : Nat} (hS : 0 < S) (hrr : rr < S) : (readPointers S r rr len).2 < S := by
  rw [readPointers_snd hS hrr]
  split
  · exact hrr
  · exact adv_lt hS _ _

/-- The source of the mix branch by the member count (R195, R200): of a pair, the other member. -/
theorem sendSource_cases (h : s.Inv) (hk : k ∈ s.confs) (hin : ch ∈ k.members) :
    (k.members.length ≤ 1 → sendSource s ch (some k) = .ok .solo) ∧
      (k.members.length = 2 → ∃ o ∈ k.members, o ≠ ch ∧ (∀ x ∈ k.members, x ≠ ch → x = o) ∧
        sendSource s ch (some k) = .ok (.pair (s.slot o))) ∧
      (3 ≤ k.members.length → sendSource s ch (some k) = .ok (.group k.confBuff)) := by
  unfold sendSource
  refine ⟨fun hl => by simp [hl], fun hl => ?_, fun hl => ?_⟩
  · have hn := (h.confs k hk).nodup
    match hm : k.members, hl with
    | [a, b], _ =>
      rw [hm] at hin hn
      have hab : a ≠ b := by simpa using hn
      rcases List.mem_cons.mp hin with rfl | hb
      · refine ⟨b, by simp, hab.symm, fun x hx hne => ?_, by simp [hm, hab.symm]⟩
        simp only [List.mem_cons, List.not_mem_nil, or_false] at hx
        tauto
      · have e : ch = b := by simpa using hb
        subst e
        refine ⟨a, by simp, hab, fun x hx hne => ?_, by simp [hm, hab]⟩
        simp only [List.mem_cons, List.not_mem_nil, or_false] at hx
        tauto
  · simp [show ¬ k.members.length ≤ 1 by omega, show k.members.length ≠ 2 by omega]

/-- In a state that meets the invariant SEND finds a source. -/
theorem sendSource_ok (h : s.Inv) {found : Option Conf} (hf : SendFinds s ch found) :
    ∃ src, sendSource s ch found = .ok src := by
  rcases hf with ⟨-, rfl⟩ | ⟨k, hk, -, hin, rfl⟩
  · exact ⟨_, rfl⟩
  · obtain ⟨h1, h2, h3⟩ := sendSource_cases h hk hin
    by_cases e1 : k.members.length ≤ 1
    · exact ⟨_, h1 e1⟩
    · by_cases e2 : k.members.length = 2
      · obtain ⟨o, -, -, -, e⟩ := h2 e2
        exact ⟨_, e⟩
      · exact ⟨_, h3 (by omega)⟩

end Sys2Proof.Machine
end

