-- ==== Sys2Proof/Laws/PerInstr.lean ====
section
/-! SUPPORT. Statements about every instruction as syntax, one lemma per constructor: the length of its encoding (R81,
R82), and that its header words fit the row of the opcode table that bears its mnemonic (R83). -/

namespace Sys2Proof

/-- A header word under a mask of the opcode and `arg` fields. -/
theorem headerWord_and (op : BitVec 4) (ch : ChIx) (arg : BitVec 16) (mo : BitVec 4) (ma : BitVec 16) :
    headerWord op ch arg &&& headerWord mo 0 ma = headerWord (op &&& mo) 0 (arg &&& ma) := by
  apply BitVec.eq_of_getLsbD_eq
  intro i hi
  simp only [headerWord, BitVec.getLsbD_append, BitVec.getLsbD_and]
  interval_cases i <;> simp

/-- A one-bit value in a wider field has no other bit. -/
theorem bitField_and (b : Bool) : bitField 16 b &&& 0xFFFE#16 = 0 := by cases b <;> rfl

/-- A selector occupies bits 3:0 of `arg`. -/
theorem selector_and (st : Setting) : st.selector.setWidth 16 &&& 0xFFF0#16 = 0 := by
  cases st <;> simp [Setting.selector]

/-- A format occupies bits 1:0 of `x`. -/
theorem fmtCode_and (f : Fmt) : f.code &&& 0xFFFFFFFC#32 = 0 := by cases f <;> rfl

namespace Laws

namespace EncodeLength

/-- The encoding is eight header bytes and the payload (R81, R82). -/
def Statement (i : Instr) : Prop := (encode i).length = 8 + i.payload.length

theorem any (i : Instr) : Statement i := by simp [Statement, encode, bytesOfWord]; omega

theorem chInit (ch : ChIx) (law : Law) : Statement (.chInit ch law) := any _
theorem chSet (ch : ChIx) (setting : Setting) : Statement (.chSet ch setting) := any _
theorem reconfigure (ch : ChIx) : Statement (.reconfigure ch) := any _
theorem receive (ch : ChIx) (frame : List Byte) : Statement (.receive ch frame) := any _
theorem transmit (ch : ChIx) (frame : List Byte) : Statement (.transmit ch frame) := any _
theorem send (ch : ChIx) (len : BitVec 16) (tag : Word) : Statement (.send ch len tag) := any _
theorem sendTone (ch : ChIx) (tag : Word) (tone : List Byte) : Statement (.sendTone ch tag tone) := any _
theorem dtmfInit (ch : ChIx) : Statement (.dtmfInit ch) := any _
theorem dtmfDecode (ch : ChIx) (fmt : Fmt) (bytes : List Byte) : Statement (.dtmfDecode ch fmt bytes) := any _

end EncodeLength

namespace TableRow

/-- A row of the opcode table bears the command's mnemonic, and the command's header words fit it (R83). -/
def Statement (i : Instr) : Prop := ∃ row ∈ opcodeRows, row.mnemonic = i.mnemonic ∧ row.fits i.word0 i.x = true

/-- What it takes to fit a row that fixes the opcode, some bits of `arg` and some bits of `x`. -/
theorem of_row (i : Instr) (row : OpRow) (ma : BitVec 16)
    (hr : row ∈ opcodeRows) (name : row.mnemonic = i.mnemonic) (mask : headerWord 0xF#4 0 ma = row.mask0)
    (value : headerWord i.op 0 0 = row.match0) (arg : i.arg &&& ma = 0)
    (x : i.x &&& row.mask1 = row.match1) : Statement i := by
  refine ⟨row, hr, name, ?_⟩
  have op : i.op &&& 0xF#4 = i.op := BitVec.and_allOnes
  simp only [OpRow.fits, Bool.and_eq_true, beq_iff_eq]
  exact ⟨by rw [← mask, ← value, Instr.word0, headerWord_and, arg, op], x⟩

theorem chInit (ch : ChIx) (law : Law) : Statement (.chInit ch law) :=
  of_row (.chInit ch law) ⟨"CH_INIT", 0x10000000#32, 0xF000FFFE#32, 0#32, 0xFFFFFFFF#32⟩
    0xFFFE#16 (by decide) rfl (by decide) (by simp only [Instr.op]; decide) (bitField_and _) (by simp only [Instr.x]; decide)

theorem chSet (ch : ChIx) (setting : Setting) : Statement (.chSet ch setting) :=
  of_row (.chSet ch setting) ⟨"CH_SET", 0x20000000#32, 0xF000FFF0#32, 0#32, 0#32⟩
    0xFFF0#16 (by decide) rfl (by decide) (by simp only [Instr.op]; decide) (selector_and _) (by simp)

theorem reconfigure (ch : ChIx) : Statement (.reconfigure ch) :=
  of_row (.reconfigure ch) ⟨"RECONFIGURE", 0x30000000#32, 0xF000FFFF#32, 0#32, 0xFFFFFFFF#32⟩
    0xFFFF#16 (by decide) rfl (by decide) (by simp only [Instr.op]; decide) (by simp [Instr.arg]) (by simp only [Instr.x]; decide)

theorem receive (ch : ChIx) (frame : List Byte) : Statement (.receive ch frame) :=
  of_row (.receive ch frame) ⟨"RECEIVE", 0x40000000#32, 0xF0000000#32, 0#32, 0xFFFFFFFF#32⟩
    0#16 (by decide) rfl (by decide) (by simp only [Instr.op]; decide) (by simp) (by simp only [Instr.x]; decide)

theorem transmit (ch : ChIx) (frame : List Byte) : Statement (.transmit ch frame) :=
  of_row (.transmit ch frame) ⟨"TRANSMIT", 0x50000000#32, 0xF0000000#32, 0#32, 0xFFFFFFFF#32⟩
    0#16 (by decide) rfl (by decide) (by simp only [Instr.op]; decide) (by simp) (by simp only [Instr.x]; decide)

theorem send (ch : ChIx) (len : BitVec 16) (tag : Word) : Statement (.send ch len tag) :=
  of_row (.send ch len tag) ⟨"SEND", 0x60000000#32, 0xF0000000#32, 0#32, 0#32⟩
    0#16 (by decide) rfl (by decide) (by simp only [Instr.op]; decide) (by simp) (by simp)

theorem sendTone (ch : ChIx) (tag : Word) (tone : List Byte) : Statement (.sendTone ch tag tone) :=
  of_row (.sendTone ch tag tone) ⟨"SEND_TONE", 0x70000000#32, 0xF0000000#32, 0#32, 0#32⟩
    0#16 (by decide) rfl (by decide) (by simp only [Instr.op]; decide) (by simp) (by simp)

theorem dtmfInit (ch : ChIx) : Statement (.dtmfInit ch) :=
  of_row (.dtmfInit ch) ⟨"DTMF_INIT", 0x80000000#32, 0xF000FFFF#32, 0#32, 0xFFFFFFFF#32⟩
    0xFFFF#16 (by decide) rfl (by decide) (by simp only [Instr.op]; decide) (by simp [Instr.arg]) (by simp only [Instr.x]; decide)

theorem dtmfDecode (ch : ChIx) (fmt : Fmt) (bytes : List Byte) : Statement (.dtmfDecode ch fmt bytes) :=
  of_row (.dtmfDecode ch fmt bytes) ⟨"DTMF_DECODE", 0x90000000#32, 0xF0000000#32, 0#32, 0xFFFFFFFC#32⟩
    0#16 (by decide) rfl (by decide) (by simp only [Instr.op]; decide) (by simp) (by simp only [Instr.x]; exact fmtCode_and _)

end TableRow

end Laws

end Sys2Proof
end

