-- ==== Sys2Proof/Laws/Tables.lean ====
section
/-! SUPPORT. The default encode tables have an entry for every 16-bit sample (R12). -/

namespace Sys2Proof

theorem RunTable.size_append (a b : RunTable) : RunTable.size (a ++ b) = a.size + b.size := by simp [RunTable.size]

theorem g711EncodeA_size : g711EncodeA.size = 65536 := by
  unfold g711EncodeA; simp only [RunTable.size_append]; rfl

theorem g711EncodeU_size : g711EncodeU.size = 65536 := by
  unfold g711EncodeU; simp only [RunTable.size_append]; rfl

end Sys2Proof
end

