-- ==== Sys2Proof/Laws/Transmit.lean ====
section
/-! SUPPORT. What a ring write leaves alone, and the free space of the tx queue (45_transmit.md R222) in terms of the
distance between its two indices. -/

namespace Sys2Proof.Machine

/-- The distance back from an advanced index. -/
theorem dist_adv {S w n : Nat} (hw : w < S) (hn : n < S) : ringDist S (adv S w n) w = n := by
  have h := pos_adv (b := w) (x := w) (n := n) hw hw (by rw [dist_nat hw hw]; simpa using hn)
  rw [h, dist_nat hw hw]
  simp

/-- A ring write of at most `S` bytes: each byte stands at its place, every other index reads as before. -/
theorem ringWrite_frame {S w : Nat} {m : Mem Byte} {f : List Byte} (hw : w < S) (hm : m.wf S) (hl : f.length ≤ S) :
    (∀ (n : Nat) b, f[n]? = some b → (ringWrite S m w f).read (adv S w n) = b) ∧
      ∀ j, j < S → f.length ≤ ringDist S j w → (ringWrite S m w f).read j = m.read j := by
  have hS : 0 < S := by omega
  constructor
  · intro n b hb
    have hn : n < f.length := (List.getElem?_eq_some_iff.mp hb).1
    rw [ringWrite_read f hm hw (adv_lt hS _ _) hl, dist_adv hw (by omega), hb]
    rfl
  · intro j hj hd
    rw [ringWrite_read f hm hw hj hl, List.getElem?_eq_none hd]
    rfl

/-- Free space as R222 writes it. -/
theorem txFree_cast {S : Nat} {k : Channel} (hw : k.wTx < S) :
    (txFree S k : Int) = ((k.rTx : Int) - k.wTx - 1) % S := by
  have hS : 0 < S := by omega
  have h := dist_cast hS k.rTx (adv S k.wTx 1)
  rw [txFree, h, adv_cast hS, Int.sub_emod_emod]
  congr 1
  ring

/-- Free and queued places together are `S − 1` (R28, R222). -/
theorem txFree_add {S : Nat} {k : Channel} (hw : k.wTx < S) (hr : k.rTx < S) :
    txFree S k + ringDist S k.wTx k.rTx = S - 1 := by
  have hS : 0 < S := by omega
  have e : adv S k.wTx 1 = if k.wTx + 1 < S then k.wTx + 1 else k.wTx + 1 - S := adv_nat (n := 1) hw (by omega)
  unfold txFree
  rw [dist_nat hr (adv_lt hS _ _), dist_nat hw hr, e]
  split_ifs <;> omega

end Sys2Proof.Machine
end

