-- ==== Sys2Proof/Tests/Slice0.lean ====
section
/-! SUPPORT. The model's own tests. Expected values come from the spec: the word tables of 95_test_vectors.md section 2.8,
its vectors V-*, its scenarios S1 to S6 and the tables of 93_implementation_defined.md G1; the source stands above each
test. Then, for every obligation with hypotheses, a witness: a concrete state and operands that meet them. -/

/- One theorem at a time: many kernel evaluations side by side ask for more threads than the check's memory holds. -/
set_option Elab.async false

namespace Sys2Proof.Tests

open Sys2Proof.Machine

/-! ### Well-formedness: the one check, and terms it refuses (R82) -/

/-- A payload one byte longer than `arg` can say. -/
def tooLong : List Byte := List.replicate 65536 0x00#8

theorem tooLong_length : ¬tooLong.length < 65536 := by rw [tooLong, List.length_replicate]; decide

theorem test_illformed_receive : (Instr.receive 0 tooLong).wellFormed = false := by
  simp [Instr.wellFormed, tooLong_length]
theorem test_illformed_transmit : (Instr.transmit 0 tooLong).wellFormed = false := by
  simp [Instr.wellFormed, tooLong_length]
theorem test_illformed_sendTone : (Instr.sendTone 0 7 tooLong).wellFormed = false := by
  simp [Instr.wellFormed, tooLong_length]
theorem test_illformed_dtmfDecode : (Instr.dtmfDecode 0 .uLaw tooLong).wellFormed = false := by
  simp [Instr.wellFormed, tooLong_length]
/-- The longest payload there is. -/
theorem test_wellformed_longest : (Instr.receive 0 (List.replicate 65535 0x00#8)).wellFormed = true := by
  rw [Instr.wellFormed, List.length_replicate]; decide

/-! ### Decoding: words written out from the encoding tables (R81, R84, R85, R86; section 2.8) -/

/-- The bytes of two header words written as numbers. -/
def words (w0 w1 : Nat) : List Byte := bytesOfWord (BitVec.ofNat 32 w0) ++ bytesOfWord (BitVec.ofNat 32 w1)

/-- Section 2.8, last line: the byte stream of `SEND 2, 160, 0x1234`. -/
theorem test_words_little_endian :
    words 0x600200A0 0x00001234 = [0xA0, 0x00, 0x02, 0x60, 0x34, 0x12, 0x00, 0x00] := by decide

theorem test_decode_chInit : decode (words 0x10030001 0) = .instr (.chInit 3 .u) [] := by decide
theorem test_decode_chSet_law : decode (words 0x20FF0000 1) = .instr (.chSet 0x0FF (.law .u)) [] := by decide
theorem test_decode_chSet_echo : decode (words 0x20000001 1) = .instr (.chSet 0 (.echo true)) [] := by decide
theorem test_decode_chSet_txMix : decode (words 0x20020002 0) = .instr (.chSet 2 (.txMix false)) [] := by decide
theorem test_decode_chSet_active : decode (words 0x20020003 1) = .instr (.chSet 2 (.active true)) [] := by decide
theorem test_decode_chSet_confId :
    decode (words 0x20000004 0xFFFFFFFF) = .instr (.chSet 0 (.confId 0xFFFFFFFF)) [] := by decide
theorem test_decode_chSet_hwId : decode (words 0x20010005 7) = .instr (.chSet 1 (.hwId 7)) [] := by decide
theorem test_decode_reconfigure : decode (words 0x30020000 0) = .instr (.reconfigure 2) [] := by decide
theorem test_decode_receive :
    decode (words 0x40000002 0 ++ [0xD5, 0xD6, 0x77]) = .instr (.receive 0 [0xD5, 0xD6]) [0x77] := by decide
theorem test_decode_transmit : decode (words 0x50000001 0 ++ [0xAB]) = .instr (.transmit 0 [0xAB]) [] := by decide
theorem test_decode_send : decode (words 0x600200A0 0x1234) = .instr (.send 2 160 0x1234) [] := by decide
theorem test_decode_sendTone :
    decode (words 0x70000001 9 ++ [0x2A]) = .instr (.sendTone 0 9 [0x2A]) [] := by decide
theorem test_decode_dtmfInit : decode (words 0x80030000 0) = .instr (.dtmfInit 3) [] := by decide
theorem test_decode_dtmfDecode :
    decode (words 0x90030001 2 ++ [0xFF]) = .instr (.dtmfDecode 3 .hfc [0xFF]) [] := by decide

/-- Section 2.8, the illegal rows: the payload of a refused DTMF_DECODE is consumed; a reserved opcode has none. -/
theorem test_decode_illegal :
    decode (words 0x00000000 5) = .illegal .reservedOpcode 0 0 [] ∧
    decode (words 0xA0050000 0 ++ [0x01]) = .illegal .reservedOpcode 10 5 [0x01] ∧
    decode (words 0x20000006 0) = .illegal .reservedSelector 2 0 [] ∧
    decode (words 0x20000001 2) = .illegal .nonzeroField 2 0 [] ∧
    decode (words 0x10000002 0) = .illegal .nonzeroField 1 0 [] ∧
    decode (words 0x30000000 1) = .illegal .nonzeroField 3 0 [] ∧
    decode (words 0x90000004 3 ++ [1, 2, 3, 4, 5]) = .illegal .reservedFormat 9 0 [5] := by decide

/-- R93: a stream that ends inside a header or a payload is not a command. -/
theorem test_decode_incomplete :
    decode [0xA0, 0x00, 0x02, 0x60, 0x34, 0x12, 0x00] = .incomplete ∧
    decode (words 0x40000002 0 ++ [0xD5]) = .incomplete := by decide

/-- The word of a table row, numbered as spec/opcode_table.json numbers it. -/
theorem test_decodeTableWord :
    decodeTableWord 64 0x00001234600200A0 = some (.send 2 160 0x1234) ∧
    decodeTableWord 64 0x0000000040000002 = some (.receive 0 [0, 0]) ∧
    decodeTableWord 64 0x0000000000000000 = none := by decide

/-! ### Primitive functions -/

/-- Section 2.1. -/
theorem test_ring :
    adv 2048 2000 160 = 112 ∧ adv 2048 0 (-160) = 1888 ∧ adv 2048 2047 1 = 0 ∧ adv 2048 5 2048 = 5 ∧
    ringDist 2048 112 2000 = 160 ∧ ringDist 2048 2000 112 = 1888 ∧ ringDist 2048 7 7 = 0 ∧
    ahead 2048 1023 0 = true ∧ ahead 2048 1024 0 = false ∧ ahead 2048 0 1024 = false ∧ ahead 2048 0 1025 = true ∧
    behind 2048 1024 0 = true ∧ later 2048 52 2000 = 52 ∧ later 2048 1024 0 = 0 ∧ later 2048 0 1024 = 1024 ∧
    adv 8 7 1 = 0 ∧ ringDist 8 1 6 = 3 ∧ ahead 8 1 6 = true ∧ ahead 8 6 1 = false := by decide +kernel

/-- Section 2.2, the decode entries. -/
theorem test_dec :
    [0xD5, 0x55, 0xAA, 0x2A, 0xFA, 0x92].map (decLaw Config.standard .a) = [8, -8, 32256, -32256, 1008, 3008] ∧
    [0xFF, 0x7F, 0x80, 0x00, 0x29].map (decLaw Config.standard .u) = [0, 0, 32124, -32124, -5628] := by decide +kernel

/-- Section 2.2, the encode entries. -/
theorem test_enc :
    [0, -1, 16, 24, 1016, 32767, -32768].map (encLaw Config.standard .a) =
      [0xD5, 0x55, 0xD5, 0xD4, 0xFA, 0xAA, 0x2A] ∧
    [0, -1, 7, 32767, -32768].map (encLaw Config.standard .u) = [0xFF, 0xFF, 0xFE, 0x80, 0x00] := by decide +kernel

/-- Section 2.2, saturation, normalisation and mixing. -/
theorem test_mix :
    sat16 64512 = 32767 ∧ sat16 (-64512) = -32768 ∧ sat16 (32767 + 32767 - 32767) = 32767 ∧
    normLaw Config.standard .a .u 0x00 = 0x29 ∧ normLaw Config.standard .u .u 0x7F = 0xFF ∧
    mixLaw Config.standard .a [1008, 1008] = 0xEA ∧ mixLaw Config.standard .a [32256, 1008] = 0xAA ∧
    mixLaw Config.standard .a [-32256, 1008] = 0x2B ∧ mixLaw Config.standard .a [96768, -32256] = 0xAA ∧
    mixLaw Config.standard .a [24, -8] = 0xD5 ∧ mixLaw Config.standard .u [-32124, -32124] = 0x00 := by decide +kernel

/-- V-D0. -/
theorem test_goertzel : goertzel [100, 200, -50, 0] 55959 = (64392, false) := by decide +kernel

/-- V-D7: peak, threshold, forbidden band, one bin of each group. -/
theorem test_decide :
    decideDigit 200000 [0, 200000, 0, 0, 0, 200000, 0, 0] = 0x35 ∧
    decideDigit 200000 [0, 199999, 0, 0, 0, 199999, 0, 0] = 0 ∧
    decideDigit 200000 [0, 199999, 0, 0, 0, 200000, 0, 0] = 0x35 ∧
    decideDigit 200000 [0, 1000000, 0, 0, 0, 250000, 0, 0] = 0x35 ∧
    decideDigit 200000 [0, 1000000, 0, 0, 0, 249999, 0, 0] = 0 ∧
    decideDigit 200000 [0, 1000000, 0, 0, 0, 124999, 0, 0] = 0 ∧
    decideDigit 200000 [0, 1000000, 125000, 0, 0, 1000000, 0, 0] = 0 ∧
    decideDigit 200000 [0, 1000000, 124999, 0, 0, 1000000, 0, 0] = 0x35 ∧
    decideDigit 200000 [-5, 1000000, 0, 0, 0, 1000000, 0, 0] = 0x35 ∧
    decideDigit 200000 [0, 1000000, 1000000, 0, 0, 1000000, 0, 0] = 0 ∧
    decideDigit 200000 [0, 0, 0, 1000000000, 0, 0, 0, 1000000000] = 0x44 := by decide +kernel

/-- V-D6 rows c and d: a one-frame gap does not re-arm, a three-frame gap does. -/
theorem test_debounce :
    ([0x35, 0x35, 0x35, 0, 0x35, 0x35, 0x35].foldl (fun q w => debounce 15 q.1 w q.2) (Dtmf.fresh, [])).2 = [0x35] ∧
    ([0x35, 0x35, 0x35, 0, 0, 0, 0x35, 0x35, 0x35].foldl (fun q w => debounce 15 q.1 w q.2) (Dtmf.fresh, [])).2 =
      [0x35, 0x35] := by decide +kernel

/-- Section 2.8: response and event words. -/
theorem test_response_words :
    (Response.truncated 0).word0 = 0x50000204 ∧ (Response.dropped 0).word0 = 0x40000104 ∧
    (Response.digits 3 [0x39] true).word0 = 0x90030400 ∧ (Response.frame opSend 2 0x1234 [1, 2]).word2 = 2 ∧
    (Response.raised 0xA 5 .invalidArgument).word0 = 0xA0050001 ∧
    (Event.hwCrossconnect 0 1 true).word = 0x20000011 ∧ (Event.hwCrossconnect 9 10 true).word = 0x200900A1 ∧
    (Event.hwConference 2 1).word = 0x10020001 ∧ (Event.hwConference 2 0).word = 0x10020000 := by decide +kernel

/-- R88, R66: the bytes of a response: the words of section 2.8, least significant byte first, payload, events. -/
theorem test_response_bytes :
    (Response.frame opSend 2 0x1234 [0xAA, 0xBB]).bytes =
      [0x00, 0x00, 0x02, 0x60, 0x34, 0x12, 0x00, 0x00, 0x02, 0x00, 0x00, 0x00, 0x00, 0x00, 0x00, 0x00, 0xAA, 0xBB] ∧
    (Response.reconfigured 2 .ok [.hwCrossconnect 0 1 true]).bytes =
      [0x00, 0x00, 0x02, 0x30, 0x00, 0x00, 0x00, 0x00, 0x00, 0x00, 0x00, 0x00, 0x01, 0x00, 0x00, 0x00] ++
      [0x11, 0x00, 0x00, 0x20] := by decide +kernel

/-- R91, R92: the spelling of a command, and a pseudo-command. -/
theorem test_text :
    (Instr.sendTone 0 9 [0x2A, 0x0F]).text = "SEND_TONE 0, 2, 9, [2A 0F]" ∧
    (pseudoHangup 2).map Instr.text = ["CH_SET 2, ACTIVE, 0", "RECONFIGURE 2"] := by decide +kernel

/-! ### States the tests use -/

/-- The spec's default parameters. -/
abbrev std : Config := Config.standard

/-- A small registry and short member lists (V-G3). -/
def tight : Config := { Config.standard with nConf := 2, maxMembers := 3 }

/-- A state from its first slots and its records. -/
def build (c : Config) (chans : List Channel) (confs : List Conf) : State where
  cfg := c
  chan := chans ++ List.replicate (8 - chans.length) Channel.powerOn
  confs := confs
  input := []
  responses := []

/-- A fresh A-law slot. -/
def fresh : Channel := Channel.fresh std .a

/-- Program P1 before its first SEND: echo on, sixteen bytes received, three queued. -/
def p1Slot : Channel :=
  { fresh with
    echo := true
    rxBuff := ⟨0xD5, [(0, 0x80), (1, 0x81), (2, 0x82), (3, 0x83), (4, 0x84), (5, 0x85), (6, 0x86), (7, 0x87)]⟩
    wRx := 8
    largest := 16
    txBuff := ⟨0xD5, [(0, 0x11), (1, 0x22), (2, 0x33)]⟩
    wTx := 3 }

/-- A solo channel. -/
def solo : State := build std [p1Slot] []

/-- V-S8's slots: A received `FA 2A AA D5`, B received `FA 2A AA FA`. -/
def slotA : Channel :=
  { fresh with
    rxBuff := ⟨0xD5, [(0, 0xFA), (1, 0x2A), (2, 0xAA)]⟩
    wRx := 4
    largest := 8
    conference := some 1 }

def slotB : Channel := { slotA with rxBuff := ⟨0xD5, [(0, 0xFA), (1, 0x2A), (2, 0xAA), (3, 0xFA)]⟩ }

/-- A record of software-mixed members all of whose write indices are 4. -/
def record (members : List ChIx) : Conf :=
  { Conf.fresh 1 with members := members, wMin := 4, wMax := 4, largest := 8 }

/-- V-S11: the pair with `B.echo`, `B.tx_mix` and two queued bytes; slot 2 asks to join it, slot 3 asks for a new one. -/
def pair : State :=
  build std
    [slotA, { slotB with echo := true, txMix := true, txBuff := ⟨0xD5, [(0, 0xFA), (1, 0x2A)]⟩, wTx := 2 },
     { fresh with active := true, confId := 1 }, { fresh with active := true, confId := 9 }]
    [record [0, 1]]

/-- A member of V-S13's group: it received `AA 2A FA D5`. -/
def groupSlot : Channel := { slotA with rxBuff := ⟨0xD5, [(0, 0xAA), (1, 0x2A), (2, 0xFA)]⟩ }

/-- V-S15: the group after V-S13, with `C.tx_mix` and two bytes queued on C. -/
def group : State :=
  build std
    [groupSlot, groupSlot, { groupSlot with txMix := true, txBuff := ⟨0xD5, [(0, 0xAA), (1, 0xAA)]⟩, wTx := 2 }]
    [{ record [0, 1, 2] with
        confBuff := ⟨0, [(0, BitVec.ofInt 32 96768), (1, BitVec.ofInt 32 (-96768)), (2, 3024), (3, 24)]⟩ }]

/-- Three slots on hardware instance 7: two in a crossconnect, the third asks to join (S4 row 3). -/
def hardware : State :=
  build std
    [{ fresh with hwId := 7, conference := some 1, active := true, confId := 1 },
     { fresh with hwId := 7, conference := some 1, active := true, confId := 1 },
     { fresh with hwId := 7, active := true, confId := 1 }]
    [{ Conf.fresh 1 with members := [0, 1], solution := .hwCrossconnect, hwId := 7 }]

/-- The pair of `hardware`, the second member with `tx_mix` set since. -/
def demoted : State :=
  build std
    [{ fresh with hwId := 7, conference := some 1, active := true, confId := 1 },
     { fresh with hwId := 7, conference := some 1, active := true, confId := 1, txMix := true }]
    [{ Conf.fresh 1 with members := [0, 1], solution := .hwCrossconnect, hwId := 7 }]

/-- A member of a conference on unit 1 of hardware instance 7. -/
def unitSlot : Channel := { fresh with hwId := 7, conference := some 1, active := true, confId := 1 }

/-- Four members on unit 1 of hardware instance 7, the last of which asks for no conference; a fifth slot on that instance
asks to join. -/
def offloaded : State :=
  build std [unitSlot, unitSlot, unitSlot, { unitSlot with active := false }, { unitSlot with conference := none }]
    [{ Conf.fresh 1 with members := [0, 1, 2, 3], solution := .hwConference 1, hwId := 7 }]

/-- A full registry: slot 0 asks to move from conference 1 to a third one, slot 2 is alone in conference 2, slot 3 asks for
conference `id`. -/
def fullFor (id : ConfId) : State :=
  build tight
    [{ slotA with active := true, confId := 3 }, slotB, { fresh with conference := some 2 },
     { fresh with active := true, confId := id }]
    [record [0, 1], { Conf.fresh 2 with members := [2] }]

/-- The same, slot 3 asking for a third conference. -/
abbrev full : State := fullFor 3

/-- Slot 0 asks to move from conference 1 to conference 2, which has room. -/
def moving : State :=
  build std [{ slotA with active := true, confId := 2 }, slotB, { fresh with conference := some 2 }]
    [record [0, 1], { Conf.fresh 2 with members := [2] }]

/-- Conference 1 has `MAX_MEMBERS` members; slot 4 asks to join it, slot 3 to move to it, from a conference it is alone in
or shares with slot 5. -/
def crowded (shared : Bool) : State :=
  build tight
    [slotA, slotA, slotA, { fresh with conference := some 2, active := true, confId := 1 },
     { fresh with active := true, confId := 1 }, { fresh with conference := if shared then some 2 else none }]
    [record [0, 1, 2], { Conf.fresh 2 with members := if shared then [3, 5] else [3] }]

/-- A decoder one sample short of a frame. -/
def nearFrame : State := build std [{ fresh with dtmf := { Dtmf.fresh with size := 101 } }] []

/-- V-R1 after its second row: A has run ahead by the whole window of 320. -/
def ahead320 (wA : Nat) : State :=
  build std [{ fresh with wRx := wA, largest := 320, conference := some 1 }, { fresh with conference := some 1 }]
    [{ Conf.fresh 1 with members := [0, 1], wMin := 0, wMax := wA, largest := 320 }]

/-- V-S13 before the third member's RECEIVE: A and B have sent `AA 2A FA D5`. -/
def lateThird : State :=
  build std [groupSlot, groupSlot, { fresh with conference := some 1 }]
    [{ record [0, 1, 2] with
        wMin := 0
        confBuff := ⟨0, [(0, 64512), (1, BitVec.ofInt 32 (-64512)), (2, 2016), (3, 16)]⟩ }]

/-- V-T5: the queue wraps, 107 places are free. -/
def wrapped : State := build std [{ fresh with wTx := 2040, rTx := 100 }] []

/-- V-S16 before its SEND_TONE. -/
def toned : State := build std [{ fresh with wRx := 160, rRx := 10, largest := 320, wTx := 250, rTx := 10 }] []

/-- The state a step gives, if it gives one. -/
def nextOf : Host.Outcome State Fault Refusal → Option State
  | .next t => some t
  | _ => none

/-- The last response of a state. -/
def answer (t : State) : Option Response := t.responses.getLast?

/-! ### One step each: commands on those states -/

/-- R46, section 2.8 row 1. -/
theorem test_chInit :
    (nextOf (exec (.chInit 3 .u) State.reset)).map (fun t =>
      ((answer t).map Response.word0, (t.slot 3).valid, (t.slot 3).law, (t.slot 3).rxBuff.fill)) =
    some (some 0x10030000, true, .u, 0xFF) := by decide +kernel

/-- V-G3 last row and section 2.8: a member's slot, and a slot that does not exist, are refused. -/
theorem test_chInit_refused :
    (nextOf (exec (.chInit 0 .a) pair)).map (fun t => ((answer t).map Response.word0, decide (t.slot 0 = pair.slot 0))) =
      some (some 0x10000001, true) ∧
    (nextOf (exec (.chInit 9 .a) pair)).map (fun t => (answer t).map Response.word0) = some (some 0x10090001) := by
  decide +kernel

/-- Section 2.8 row 2: one field, nothing else. -/
theorem test_chSet :
    (nextOf (exec (.chSet 1 (.hwId 7)) pair)).map (fun t =>
      ((answer t).map Response.word0, decide (t.slot 1 = { pair.slot 1 with hwId := 7 }))) = some (some 0x20010000, true) := by
  decide +kernel

/-- S4 row 3: the third member turns the crossconnect into unit 1; the disable comes first. -/
theorem test_reconfigure_join :
    (nextOf (exec (.reconfigure 2) hardware)).map (fun t =>
      ((answer t).map (fun r => r.events.map Event.word), t.confs.map (fun k => (k.members, k.solution, k.hwId)))) =
    some (some [0x20000010, 0x10000001, 0x10010001, 0x10020001], [([0, 1, 2], .hwConference 1, 7)]) := by decide +kernel

/-- V-G3's failed move: `ResourceExhausted` after the leave, which stands. -/
theorem test_reconfigure_failed_move :
    (nextOf (exec (.reconfigure 0) full)).map (fun t =>
      ((answer t).map Response.word0, (t.slot 0).conference, (t.slot 0).confId, t.confs.map (·.members))) =
    some (some 0x30000003, none, 3, [[1], [2]]) := by decide +kernel

/-- R154: a member that joins, or leaves, a conference that stays on its unit is enabled, or disabled, alone. -/
theorem test_reconfigure_unit :
    (nextOf (exec (.reconfigure 4) offloaded)).map (fun t => (answer t).map (fun r => r.events.map Event.word)) =
      some (some [0x10040001]) ∧
    (nextOf (exec (.reconfigure 3) offloaded)).map (fun t => (answer t).map (fun r => r.events.map Event.word)) =
      some (some [0x10030000]) := by decide +kernel

/-- R157 case 4, R151: `tx_mix` set on a member demotes its pair to `Software`. -/
theorem test_reconfigure_reclassify :
    (nextOf (exec (.reconfigure 1) demoted)).map (fun t =>
      ((answer t).map (fun r => r.events.map Event.word), t.confs.map (fun k => (k.members, k.solution, k.hwId)))) =
    some (some [0x20000010], [([0, 1], .software, 0)]) := by decide +kernel

/-- V-S13: the third member's bytes complete the cells. A and B have sent theirs. -/
theorem test_receive_mix :
    (nextOf (exec (.receive 2 [0xAA, 0x2A, 0xFA, 0xD5]) lateThird)).map (fun t =>
      ((t.slot 2).wRx, t.confs.map (fun k => (k.wMin, k.wMax, (List.range 4).map fun i => (k.confBuff.read i).toInt)))) =
    some (4, [(4, 4, [96768, -96768, 3024, 24])]) := by decide +kernel

/-- V-R1 row 3: the window would be 480. -/
theorem test_receive_drop :
    (nextOf (exec (.receive 0 (List.replicate 160 0x12)) (ahead320 320))).map (fun t =>
      ((answer t).map Response.word0, (t.slot 0).wRx, t.confs.map (fun k => (k.wMin, k.wMax, k.largest)))) =
    some (some 0x40000104, 320, [(0, 320, 320)]) := by decide +kernel

/-- V-T5. -/
theorem test_transmit :
    (nextOf (exec (.transmit 0 (List.replicate 20 0xEE)) wrapped)).map (fun t =>
      ((answer t).map Response.word0, (t.slot 0).wTx, [2039, 2040, 2047, 0, 11, 12].map (t.slot 0).txBuff.read)) =
    some (some 0x50000000, 12, [0xD5, 0xEE, 0xEE, 0xEE, 0xEE, 0xD5]) := by decide +kernel

/-- V-T6's refusal of the tail, from V-T5's state: 107 of 108 bytes fit. -/
theorem test_transmit_trunc :
    (nextOf (exec (.transmit 0 (List.replicate 108 0xEE)) wrapped)).map (fun t =>
      ((answer t).map Response.word0, (t.slot 0).wTx, [98, 99].map (t.slot 0).txBuff.read)) =
    some (some 0x50000204, 99, [0xEE, 0xD5]) := by decide +kernel

/-- V-S11: peer, own byte and queued byte, then no queued byte. -/
theorem test_send_pair :
    (nextOf (exec (.send 1 4 5) pair)).map (fun t =>
      ((answer t).map (fun r => (r.word0, r.tag, r.payload)), (t.slot 1).rRx, (t.slot 1).rTx)) =
    some (some (0x60010000, 5, [0x92, 0x2A, 0xAA, 0xFA]), 4, 2) := by decide +kernel

/-- V-S15: the cell less the own byte plus the queued byte. -/
theorem test_send_group :
    (nextOf (exec (.send 2 4 0) group)).map (fun t =>
      ((answer t).map (fun r => r.payload), (t.slot 2).rRx, (t.slot 2).rTx)) =
    some (some [0xAA, 0x2A, 0xEA, 0xD5], 4, 2) := by decide +kernel

/-- V-S16. -/
theorem test_sendTone :
    (nextOf (exec (.sendTone 0 0 (List.replicate 160 0x2A)) toned)).map (fun t =>
      ((answer t).map (fun r => decide (r.payload = List.replicate 160 0x2A)), (t.slot 0).rRx, (t.slot 0).rTx)) =
    some (some true, 160, 250) := by decide +kernel

/-- P4's last command. -/
theorem test_dtmfInit :
    (nextOf (exec (.dtmfInit 0)
      (build std [{ fresh with dtmf := { Dtmf.fresh with size := 36, lastWhat := 0x39, count := 2 } }] []))).map
      (fun t => ((answer t).map Response.word0, (t.slot 0).dtmf)) = some (some 0x80000000, Dtmf.fresh) := by decide +kernel

/-- V-D8's chunk: 10^9 in bins 1 and 5. -/
def chunk5 : List Byte :=
  [0x00, 0x00, 0x00, 0x00, 0x00, 0xCA, 0x9A, 0x3B] ++ List.replicate 12 0x00 ++ [0x00, 0xCA, 0x9A, 0x3B] ++
    List.replicate 8 0x00

/-- V-D8: three chunks and two stray bytes give "5"; `size` is untouched. -/
theorem test_dtmfDecode_hfc :
    (nextOf (exec (.dtmfDecode 0 .hfc (chunk5 ++ chunk5 ++ chunk5 ++ [1, 2])) solo)).map (fun t =>
      ((answer t).map (fun r => (r.word0, r.payload)), (t.slot 0).dtmf.size, (t.slot 0).dtmf.lastDigit)) =
    some (some (0x90000000, [0x35]), 0, 0x35) := by decide +kernel

/-- V-D4, with V-D4's powers: one frame of constant 8 decides nothing and does not warn. -/
theorem test_dtmfDecode_silence :
    ((goertzelBank std (List.replicate 102 8)).map (·.1)) = [128, 172, 4, 0, 271, 192, 1, 12] ∧
    (nextOf (exec (.dtmfDecode 0 .aLaw (List.replicate 102 0xD5)) solo)).map (fun t =>
      ((answer t).map (fun r => (r.word0, r.payload)), (t.slot 0).dtmf.size)) =
    some (some (0x90000000, []), 0) := by decide +kernel

/-- Section 2.8, R87: a refused command answers and is consumed; the command after it stays. -/
theorem test_step_illegal :
    (nextOf (step (State.reset.present (words 0xA0050000 0 ++ [0x01])))).map (fun t =>
      (t.input, (answer t).map Response.word0)) = some ([0x01], some 0xA0050001) := by decide +kernel

/-- A row's word stored where the next step fetches runs as that command. -/
theorem test_withFetchWord :
    (nextOf (step (State.reset.withFetchWord 64 0x0000000010030001))).map (fun t =>
      (t.input, (answer t).map Response.word0)) = some ([], some 0x10030000) := by decide +kernel

/-! ### The invariant of a concrete state, by a check that can be evaluated -/

/-- `Channel.Ok` as a decidable condition. -/
abbrev slotCheck (c : Config) (k : Channel) : Prop :=
  k.rxBuff.wf c.buffSize ∧ k.txBuff.wf c.buffSize ∧ k.wRx < c.buffSize ∧ k.rRx < c.buffSize ∧ k.wTx < c.buffSize ∧
    k.rTx < c.buffSize ∧ k.largest ≤ 2 * c.maxLen ∧ k.dtmf.buffer.wf c.nPoints ∧ k.dtmf.size < c.nPoints ∧
    (k.valid = true → k.dtmfValid = true) ∧ (k.valid = false → k.conference = none)

/-- `Conf.SolutionOk` as a decidable condition. -/
def solutionCheck (k : Conf) : Bool :=
  match k.solution with
  | .software => decide (k.hwId = 0)
  | .hwCrossconnect => decide (k.members.length = 2 ∧ k.hwId ≠ 0)
  | .hwConference u => decide (1 ≤ u ∧ u ≤ 8 ∧ 3 ≤ k.members.length ∧ k.hwId ≠ 0)

theorem solutionCheck_ok {k : Conf} (h : solutionCheck k = true) : k.SolutionOk := by
  unfold solutionCheck at h
  unfold Conf.SolutionOk
  cases hs : k.solution <;> simp_all

/-- `Conf.Ok` as a decidable condition. -/
abbrev confCheck (c : Config) (k : Conf) : Prop :=
  k.id ≠ 0 ∧ k.members ≠ [] ∧ k.members.Nodup ∧ k.members.length ≤ c.maxMembers ∧ k.confBuff.wf c.buffSize ∧
    k.wMin < c.buffSize ∧ k.wMax < c.buffSize ∧ k.largest ≤ 2 * c.maxLen ∧
    ringDist c.buffSize k.wMax k.wMin ≤ k.largest ∧ solutionCheck k = true

/-- A slot's conference lists it. -/
def namedCheck (s : State) (n : Nat) : Bool :=
  match (s.slot (BitVec.ofNat 12 n)).conference with
  | none => true
  | some id => s.confs.any fun k => decide (k.id = id ∧ BitVec.ofNat 12 n ∈ k.members)

/-- Two records do not hold one unit. -/
def unitCheck (k o : Conf) : Bool :=
  match k.solution with
  | .hwConference u => decide (k.id ≠ o.id → k.hwId = o.hwId → o.solution ≠ .hwConference u)
  | _ => true

/-- The parts of the invariant that speak of several components. -/
abbrev linkCheck (s : State) : Prop :=
  s.chan.length = s.cfg.nChan ∧ s.confs.length ≤ s.cfg.nConf ∧ (s.confs.map (·.id)).Nodup ∧
    (∀ k ∈ s.confs, (k.members.all fun ch =>
      decide (ch.toNat < s.cfg.nChan ∧ (s.slot ch).conference = some k.id)) = true) ∧
    (∀ n ∈ List.range s.cfg.nChan, namedCheck s n = true) ∧
    (∀ k ∈ s.confs, (k.members.all fun ch =>
      decide (ringDist s.cfg.buffSize (s.slot ch).wRx k.wMin ≤ ringDist s.cfg.buffSize k.wMax k.wMin)) = true) ∧
    (∀ k ∈ s.confs, ∀ o ∈ s.confs, unitCheck k o = true)

/-- A state that passes the checks, with valid parameters, meets the invariant. -/
theorem inv_of_check {s : State} (cfg : s.cfg.Valid) (slots : ∀ k ∈ s.chan, slotCheck s.cfg k)
    (records : ∀ k ∈ s.confs, confCheck s.cfg k) (links : linkCheck s) : s.Inv where
  cfg := cfg
  size := links.1
  chans k hk := by
    obtain ⟨a, b, c, d, e, f, g, h, i, j, l⟩ := slots k hk
    exact ⟨a, b, c, d, e, f, g, h, i, j, l⟩
  count := links.2.1
  ids := links.2.2.1
  confs k hk := by
    obtain ⟨a, b, c, d, e, f, g, h, i, j⟩ := records k hk
    exact ⟨a, b, c, d, e, f, g, h, i, solutionCheck_ok j⟩
  listed k hk ch hch := of_decide_eq_true (List.all_eq_true.mp (links.2.2.2.1 k hk) ch hch)
  named ch id hch hid := by
    have h := links.2.2.2.2.1 ch.toNat (List.mem_range.mpr hch)
    have e : BitVec.ofNat 12 ch.toNat = ch := by simp
    rw [namedCheck, e, hid] at h
    simpa using h
  envelope k hk ch hch := of_decide_eq_true (List.all_eq_true.mp (links.2.2.2.2.2.1 k hk) ch hch)
  units k hk o ho hne hhw u hu := by
    have h := links.2.2.2.2.2.2 k hk o ho
    rw [unitCheck, hu] at h
    exact of_decide_eq_true h hne hhw

/-- The spec's default parameters meet their constraints; so do the tight ones. -/
theorem std_valid : std.Valid :=
  ⟨⟨11, by decide⟩, by decide, by decide, by decide, g711EncodeA_size, g711EncodeU_size, by decide, by decide, by decide,
    by decide⟩

theorem tight_valid : tight.Valid :=
  ⟨⟨11, by decide⟩, by decide, by decide, by decide, g711EncodeA_size, g711EncodeU_size, by decide, by decide, by decide,
    by decide⟩

theorem solo_inv : solo.Inv :=
  inv_of_check std_valid (by decide +kernel) (by decide +kernel) (by decide +kernel)
theorem pair_inv : pair.Inv :=
  inv_of_check std_valid (by decide +kernel) (by decide +kernel) (by decide +kernel)
theorem group_inv : group.Inv :=
  inv_of_check std_valid (by decide +kernel) (by decide +kernel) (by decide +kernel)
theorem hardware_inv : hardware.Inv :=
  inv_of_check std_valid (by decide +kernel) (by decide +kernel) (by decide +kernel)
theorem demoted_inv : demoted.Inv :=
  inv_of_check std_valid (by decide +kernel) (by decide +kernel) (by decide +kernel)
theorem offloaded_inv : offloaded.Inv :=
  inv_of_check std_valid (by decide +kernel) (by decide +kernel) (by decide +kernel)
theorem moving_inv : moving.Inv :=
  inv_of_check std_valid (by decide +kernel) (by decide +kernel) (by decide +kernel)
theorem crowded_alone_inv : (crowded false).Inv :=
  inv_of_check tight_valid (by decide +kernel) (by decide +kernel) (by decide +kernel)
theorem crowded_shared_inv : (crowded true).Inv :=
  inv_of_check tight_valid (by decide +kernel) (by decide +kernel) (by decide +kernel)
theorem nearFrame_inv : nearFrame.Inv :=
  inv_of_check std_valid (by decide +kernel) (by decide +kernel) (by decide +kernel)
theorem full1_inv : (fullFor 1).Inv :=
  inv_of_check tight_valid (by decide +kernel) (by decide +kernel) (by decide +kernel)
theorem full2_inv : (fullFor 2).Inv :=
  inv_of_check tight_valid (by decide +kernel) (by decide +kernel) (by decide +kernel)
theorem full_inv : full.Inv :=
  inv_of_check tight_valid (by decide +kernel) (by decide +kernel) (by decide +kernel)
theorem lateThird_inv : lateThird.Inv :=
  inv_of_check std_valid (by decide +kernel) (by decide +kernel) (by decide +kernel)
theorem ahead160_inv : (ahead320 160).Inv :=
  inv_of_check std_valid (by decide +kernel) (by decide +kernel) (by decide +kernel)
theorem ahead320_inv : (ahead320 320).Inv :=
  inv_of_check std_valid (by decide +kernel) (by decide +kernel) (by decide +kernel)
theorem wrapped_inv : wrapped.Inv :=
  inv_of_check std_valid (by decide +kernel) (by decide +kernel) (by decide +kernel)
theorem toned_inv : toned.Inv :=
  inv_of_check std_valid (by decide +kernel) (by decide +kernel) (by decide +kernel)

/-! ### Witnesses: for every obligation with hypotheses, states and operands that meet them -/

/-- What a command answers, from a check of the state it gives. -/
theorem after {i : Instr} {s : State} (P : State → Bool) (h : (nextOf (exec i s)).any P = true) :
    ∃ t, exec i s = .next t ∧ P t = true := by
  cases e : exec i s with
  | next t => exact ⟨t, rfl, by simpa [e, nextOf] using h⟩
  | fault f => simp [e, nextOf] at h
  | refused f => simp [e, nextOf] at h

/-- A command completes with a given response. -/
theorem answers {i : Instr} {s : State} (r : Response)
    (h : (nextOf (exec i s)).any (fun t => decide (t.responses = s.responses ++ [r])) = true) :
    ∃ t, exec i s = .next t ∧ Answered s t r := by
  obtain ⟨t, e, a⟩ := after _ h
  exact ⟨t, e, (of_decide_eq_true a : t.responses = _)⟩

/-- A step completes. -/
theorem steps {s : State} (h : (nextOf (step s)).isSome = true) : ∃ t, step s = .next t := by
  cases e : step s with
  | next t => exact ⟨t, rfl⟩
  | fault f => simp [e, nextOf] at h
  | refused f => simp [e, nextOf] at h

/-! #### Encoding -/

theorem witness_DecodeEncodeRoundTrip :
    (Instr.chSet 0xFFF (.hwId 0xFFFF)).WellFormed ∧ (Instr.receive 1 []).WellFormed ∧
    (Instr.receive 1 (List.replicate 65535 0)).WellFormed :=
  ⟨rfl, rfl, test_wellformed_longest⟩

theorem witness_LegalBytesAreTheEncoding : ∃ i rest, decode (words 0x40000002 0 ++ [0xD5, 0xD6, 0x77]) = .instr i rest :=
  ⟨_, _, test_decode_receive⟩

/-- The mnemonic of what two header words, with some bytes after them, decode to. -/
def named (w0 w1 : Nat) (bytes : List Byte) : Option String :=
  match decodeWords (BitVec.ofNat 32 w0) (BitVec.ofNat 32 w1) bytes with
  | .instr i _ => some i.mnemonic
  | _ => none

/-- Both sides of each selector and format limit, with the payload present. -/
theorem witness_OpcodeRowsGovernDecoding :
    payloadLen (headerOp 0x90000001) (headerArg 0x90000001) ≤ [(0xFF : Byte)].length ∧
    payloadLen (headerOp 0x20000005) (headerArg 0x20000005) ≤ ([] : List Byte).length ∧
    named 0x20000003 1 [] = some "CH_SET" ∧ named 0x20000003 2 [] = none ∧
    named 0x20000004 0xFFFFFFFF [] = some "CH_SET" ∧
    named 0x20000005 0xFFFF [] = some "CH_SET" ∧ named 0x20000005 0x10000 [] = none ∧
    named 0x20000006 0 [] = none ∧
    named 0x90000001 2 [0xFF] = some "DTMF_DECODE" ∧ named 0x90000001 3 [0xFF] = none := by decide +kernel

/-- A state whose stream is a header with its payload: a refused DTMF_DECODE and a legal RECEIVE. -/
theorem witness_IllegalHeadersAreRefused :
    (solo.present (bytesOfWord (headerWord 9 0 2) ++ bytesOfWord 3 ++ [1, 2] ++ [7])).input =
      bytesOfWord (headerWord 9 0 2) ++ bytesOfWord 3 ++ [1, 2] ++ [7] ∧
    ([1, 2] : List Byte).length = (if (9 : BitVec 4) = 4 ∨ (9 : BitVec 4) = 5 ∨ (9 : BitVec 4) = 7 ∨ (9 : BitVec 4) = 9
      then (2 : BitVec 16).toNat else 0) ∧
    (solo.present (bytesOfWord (headerWord 4 0 0) ++ bytesOfWord 0 ++ [] ++ [])).input =
      bytesOfWord (headerWord 4 0 0) ++ bytesOfWord 0 ++ [] ++ [] := by decide +kernel

/-- Both sides of every limit of R87: the opcodes, CH_INIT's `arg` and `x`, CH_SET's selectors, the zero fields, the
formats. -/
theorem witness_IllegalHeadersAreRefused_limits :
    [named 0x00000000 0 [], named 0x10000000 0 [], named 0x10000001 0 [], named 0x10000002 0 [], named 0x10000000 1 []] =
      [none, some "CH_INIT", some "CH_INIT", none, none] ∧
    [named 0x20000003 1 [], named 0x20000003 2 [], named 0x20000005 0xFFFF [], named 0x20000005 0x10000 [],
      named 0x20000006 0 [], named 0x2000000F 0 [], named 0x20000010 0 []] =
      [some "CH_SET", none, some "CH_SET", none, none, none, none] ∧
    [named 0x30000000 0 [], named 0x30000001 0 [], named 0x80000000 0 [], named 0x80000000 1 []] =
      [some "RECONFIGURE", none, some "DTMF_INIT", none] ∧
    [named 0x40000001 0 [1], named 0x40000001 1 [1], named 0x50000001 0 [1], named 0x50000001 1 [1]] =
      [some "RECEIVE", none, some "TRANSMIT", none] ∧
    [named 0x90000001 2 [0], named 0x90000000 3 [], named 0xA0000000 0 [], named 0xF0000000 0 []] =
      [some "DTMF_DECODE", none, none, none] := by decide +kernel

theorem witness_StepRunsDecodedInstruction :
    decode (solo.present (encode (.receive 0 [0xD5]) ++ [0x77])).input = .instr (.receive 0 [0xD5]) [0x77] ∧
    (Instr.receive 0 [0xD5]).WellFormed ∧
    (solo.present (encode (.receive 0 [0xD5]) ++ [0x77])).input = encode (.receive 0 [0xD5]) ++ [0x77] := by
  decide +kernel

/-- Seven bytes; a reserved opcode with its header half there; a header whose payload lacks one byte and is there, of a
legal RECEIVE and of a DTMF_DECODE of format 3; a stream that ends inside a well-formed command's header or payload. -/
theorem witness_StepWaitsForWholeCommand :
    (State.reset.present [0, 0, 0, 0xA0, 0, 0, 0]).input.length < 8 ∧
    (State.reset.present [0, 0, 0, 0xA0]).input.length < 8 ∧
    (State.reset.present (bytesOfWord 0x40000002 ++ bytesOfWord 0 ++ [0xD5])).input =
      bytesOfWord 0x40000002 ++ bytesOfWord 0 ++ [0xD5] ∧
    (State.reset.present (bytesOfWord 0x90000002 ++ bytesOfWord 3 ++ [0xD5])).input =
      bytesOfWord 0x90000002 ++ bytesOfWord 3 ++ [0xD5] ∧
    ([0xD5] : List Byte).length < ((0x90000002 : Word).extractLsb' 0 16).toNat ∧
    ((0x90000002 : Word).extractLsb' 0 16).toNat ≤ ([0xD5, 0xD6] : List Byte).length ∧
    (Instr.receive 0 [0xD5, 0xD6]).WellFormed ∧ ([0x40] ++ bytesOfWord 0 ++ [0xD5, 0xD6] : List Byte) ≠ [] ∧
    encode (.receive 0 [0xD5, 0xD6]) =
      (State.reset.present [0x02, 0x00, 0x00]).input ++ ([0x40] ++ bytesOfWord 0 ++ [0xD5, 0xD6]) ∧
    encode (.receive 0 [0xD5, 0xD6]) =
      (State.reset.present ([0x02, 0x00, 0x00, 0x40] ++ bytesOfWord 0 ++ [0xD5])).input ++ [0xD6] := by decide +kernel

/-! #### Responses -/

/-- A step on a legal command and one on an illegal one. -/
theorem witness_OneResponsePerCommand_step :
    (∃ t, step (solo.present (bytesOfWord 0x80000000 ++ bytesOfWord 0 ++ [7])) = .next t) ∧
    decode (solo.present (bytesOfWord 0x80000000 ++ bytesOfWord 0 ++ [7])).input ≠ .incomplete ∧
    (∃ t, step (solo.present (bytesOfWord 0xA0050000 ++ bytesOfWord 0 ++ [7])) = .next t) ∧
    decode (solo.present (bytesOfWord 0xA0050000 ++ bytesOfWord 0 ++ [7])).input =
      .illegal .reservedOpcode 10 5 [7] :=
  ⟨steps (by decide +kernel), by decide +kernel, steps (by decide +kernel), by decide +kernel⟩

/-- A tagged response with a payload, one with events, one with neither. -/
theorem witness_OneResponsePerCommand :
    (∃ t, exec (.send 1 4 5) pair = .next t ∧ Answered pair t (Response.frame opSend 1 5 [0x92, 0x2A, 0xAA, 0xFA])) ∧
    (∃ t, exec (.reconfigure 2) hardware = .next t ∧ Answered hardware t (Response.reconfigured 2 .ok
      [.hwCrossconnect 0 1 false, .hwConference 0 1, .hwConference 1 1, .hwConference 2 1])) ∧
    (∃ t, exec (.chInit 9 .a) pair = .next t ∧ Answered pair t (Response.raised opChInit 9 .invalidArgument)) :=
  ⟨answers _ (by decide +kernel), answers _ (by decide +kernel), answers _ (by decide +kernel)⟩

/-- Each flag set: a dropped frame, a dropped tail, a frame of full-scale samples. -/
theorem witness_FlagsAccompanyBusy :
    (∃ t, exec (.receive 0 (List.replicate 160 0x12)) (ahead320 320) = .next t ∧
      Answered (ahead320 320) t (Response.dropped 0)) ∧
    (∃ t, exec (.transmit 0 (List.replicate 108 0xEE)) wrapped = .next t ∧ Answered wrapped t (Response.truncated 0)) ∧
    (∃ t, exec (.dtmfDecode 0 .aLaw (List.replicate 102 0x2A)) solo = .next t ∧
      Answered solo t (Response.digits 0 [] true)) :=
  ⟨answers _ (by decide +kernel), answers _ (by decide +kernel), answers _ (by decide +kernel)⟩

/-- The largest unit number. -/
theorem witness_ResponseAndEventLayout : 8 ≤ 8 ∧ (Event.hwConference 0xFFF 8).word = 0x1FFF0008 := by decide

/-! #### Ring arithmetic -/

theorem witness_AdvanceLaws : 7 < 8 ∧ 0 < 8 ∧ 8 = 2 ^ 3 ∧ 3 ≤ 32 ∧ 2047 < 2048 ∧ 2048 = 2 ^ 11 ∧ 11 ≤ 11 := by decide

theorem witness_DistanceLaws : 0 < 8 ∧ 7 < 8 ∧ 0 ≠ 7 := by decide

/-- Distances below, at and above half a ring. -/
theorem witness_OrderingLaws :
    0 < 8 ∧ 8 % 2 = 0 ∧ (∀ a ∈ [0, 3, 4, 5, 7], a < 8) ∧ ahead 8 3 0 = true ∧ ringDist 8 3 0 ≠ 8 / 2 ∧
    ringDist 8 4 0 = 8 / 2 ∧ ahead 8 4 0 = false ∧ ahead 8 5 0 = false ∧ ringDist 8 5 0 ≠ 8 / 2 := by decide

/-- A cell and three samples at their limits. -/
theorem witness_MixSaturates :
    -(2 ^ 30) ≤ (2 ^ 30 : Int) ∧ (2 ^ 30 : Int) ≤ 2 ^ 30 ∧ ([32767, 32767, -32768] : List Int).length ≤ 3 ∧
    ∀ x ∈ ([32767, 32767, -32768] : List Int), -32768 ≤ x ∧ x ≤ 32768 := by decide

/-! #### Reset, CH_INIT, CH_SET -/

/-- The first index that is no slot, and the last slot, never initialised. -/
theorem witness_PowerOnAndInvalidSlots :
    (Instr.reconfigure 8).op ≠ 1 ∧ solo.cfg.nChan ≤ (8 : ChIx).toNat ∧ (Instr.send 7 0 0).op ≠ 1 ∧
    (solo.slot 7).valid = false := by decide +kernel

/-- An invalid slot, a valid one outside any conference, no slot, and a member. -/
theorem witness_ChInitResult :
    pair.chan.length = pair.cfg.nChan ∧ (7 : ChIx).toNat < pair.cfg.nChan ∧ (pair.slot 7).valid = false ∧
    (pair.slot 2).valid = true ∧ (pair.slot 2).conference = none ∧ pair.cfg.nChan ≤ (8 : ChIx).toNat ∧
    (pair.slot 0).valid = true ∧ (pair.slot 0).conference ≠ none := by decide +kernel

theorem witness_ChSetResult :
    pair.chan.length = pair.cfg.nChan ∧ (3 : ChIx).toNat < pair.cfg.nChan ∧ (pair.slot 3).valid = true := by
  decide +kernel

/-! #### RECONFIGURE -/

/-- A slot that asks for a conference and one that asks for none. -/
theorem witness_ReconfigureCompletes :
    pair.Inv ∧ (2 : ChIx).toNat < pair.cfg.nChan ∧ (pair.slot 2).valid = true ∧ (pair.slot 2).active = true ∧
    (pair.slot 2).confId ≠ 0 ∧ (pair.slot 0).valid = true ∧ (pair.slot 0).active = false :=
  ⟨pair_inv, by decide +kernel⟩

/-- A third member that changes the solution, and a fifth that joins a conference that stays on its unit. -/
theorem witness_JoinExistingConference_hardware :
    (hardware.Inv ∧ (hardware.slot 2).valid = true ∧ (hardware.slot 2).conference = none ∧
      (hardware.slot 2).active = true ∧
      ∃ k ∈ hardware.confs, k.id = (hardware.slot 2).confId ∧ k.members.length < hardware.cfg.maxMembers ∧
        classify hardware { k with members := k.members ++ [2] } ≠ k.solution) ∧
    (offloaded.Inv ∧ (offloaded.slot 4).valid = true ∧ (offloaded.slot 4).conference = none ∧
      (offloaded.slot 4).active = true ∧
      ∃ k ∈ offloaded.confs, k.id = (offloaded.slot 4).confId ∧ k.members.length < offloaded.cfg.maxMembers ∧
        classify offloaded { k with members := k.members ++ [4] } = k.solution) :=
  ⟨⟨hardware_inv, by decide +kernel⟩, ⟨offloaded_inv, by decide +kernel⟩⟩

/-- The third member, in the last free place; and a second member. -/
theorem witness_JoinExistingConference :
    ((fullFor 1).Inv ∧ (3 : ChIx).toNat < tight.nChan ∧ ((fullFor 1).slot 3).valid = true ∧
      ((fullFor 1).slot 3).conference = none ∧ ((fullFor 1).slot 3).active = true ∧ record [0, 1] ∈ (fullFor 1).confs ∧
      (record [0, 1]).id = ((fullFor 1).slot 3).confId ∧ (record [0, 1]).members.length = 2 ∧ tight.maxMembers = 3) ∧
    ((fullFor 2).Inv ∧ ((fullFor 2).slot 3).valid = true ∧ ((fullFor 2).slot 3).conference = none ∧
      ((fullFor 2).slot 3).active = true ∧ { Conf.fresh 2 with members := [2] } ∈ (fullFor 2).confs ∧
      (2 : ConfId) = ((fullFor 2).slot 3).confId) :=
  ⟨⟨full1_inv, by decide +kernel⟩, ⟨full2_inv, by decide +kernel⟩⟩

/-- A registry with room and a full one. -/
theorem witness_JoinCreatesConference :
    (pair.Inv ∧ (3 : ChIx).toNat < pair.cfg.nChan ∧ (pair.slot 3).valid = true ∧ (pair.slot 3).conference = none ∧
      (pair.slot 3).active = true ∧ (pair.slot 3).confId ≠ 0 ∧ pair.find (pair.slot 3).confId = none ∧
      pair.confs.length < pair.cfg.nConf) ∧
    (full.Inv ∧ (full.slot 3).valid = true ∧ (full.slot 3).conference = none ∧ (full.slot 3).active = true ∧
      (full.slot 3).confId ≠ 0 ∧ full.find (full.slot 3).confId = none ∧ full.confs.length = full.cfg.nConf) :=
  ⟨⟨pair_inv, by decide +kernel⟩, ⟨full_inv, by decide +kernel⟩⟩

/-- A member of a pair, and the last member of a conference. -/
theorem witness_LeaveConference :
    (pair.Inv ∧ (0 : ChIx).toNat < pair.cfg.nChan ∧ (pair.slot 0).valid = true ∧ record [0, 1] ∈ pair.confs ∧
      (pair.slot 0).conference = some (record [0, 1]).id ∧ (pair.slot 0).active = false ∧
      (record [0, 1]).members ≠ [0]) ∧
    (full.Inv ∧ (full.slot 2).valid = true ∧ { Conf.fresh 2 with members := [2] } ∈ full.confs ∧
      (full.slot 2).conference = some 2 ∧ (full.slot 2).active = false ∧ (full.slot 2).confId = 0) :=
  ⟨⟨pair_inv, by decide +kernel⟩, ⟨full_inv, by decide +kernel⟩⟩

/-- The last of four members of a conference that stays on its unit. -/
theorem witness_LeaveConference_hardware :
    offloaded.Inv ∧ (3 : ChIx).toNat < offloaded.cfg.nChan ∧ (offloaded.slot 3).valid = true ∧
    (offloaded.slot 3).active = false ∧
    ∃ k ∈ offloaded.confs, (offloaded.slot 3).conference = some k.id ∧ k.members ≠ [3] ∧
      classify offloaded { k with members := k.members.filter (fun o => o ≠ 3) } = k.solution :=
  ⟨offloaded_inv, by decide +kernel⟩

/-- Exactly `MAX_MEMBERS` members. -/
theorem witness_FullConferenceRefusesJoin :
    (crowded false).Inv ∧ (4 : ChIx).toNat < tight.nChan ∧ ((crowded false).slot 4).valid = true ∧
    ((crowded false).slot 4).conference = none ∧ ((crowded false).slot 4).active = true ∧
    record [0, 1, 2] ∈ (crowded false).confs ∧ (record [0, 1, 2]).id = ((crowded false).slot 4).confId ∧
    (record [0, 1, 2]).members.length = (crowded false).cfg.maxMembers :=
  ⟨crowded_alone_inv, by decide +kernel⟩

/-- The target full, the channel alone in its conference or not. -/
theorem witness_FailedMoveStillLeaves_members :
    (∀ b ∈ [false, true], (crowded b).Inv) ∧ (3 : ChIx).toNat < tight.nChan ∧
    ∀ b ∈ [false, true], ((crowded b).slot 3).valid = true ∧ ((crowded b).slot 3).active = true ∧
      ((crowded b).slot 3).confId ≠ 0 ∧
      (∃ k ∈ (crowded b).confs, ((crowded b).slot 3).conference = some k.id ∧ ((crowded b).slot 3).confId ≠ k.id ∧
        (k.members = [3] ↔ b = false)) ∧
      ∃ o ∈ (crowded b).confs, o.id = ((crowded b).slot 3).confId ∧ o.members.length = (crowded b).cfg.maxMembers :=
  ⟨by simp [crowded_alone_inv, crowded_shared_inv], by decide +kernel⟩

/-- A move that succeeds and one that fails. -/
theorem witness_MoveIsLeaveThenJoin :
    (moving.Inv ∧ (0 : ChIx).toNat < moving.cfg.nChan ∧ (moving.slot 0).valid = true ∧
      (moving.slot 0).active = true ∧ (moving.slot 0).confId ≠ 0 ∧
      (∃ k ∈ moving.confs, (moving.slot 0).conference = some k.id ∧ (moving.slot 0).confId ≠ k.id) ∧
      ∃ t, exec (.reconfigure 0) moving = .next t ∧ Answered moving t (Response.reconfigured 0 .ok [])) ∧
    (full.Inv ∧ (full.slot 0).valid = true ∧ (full.slot 0).active = true ∧ (full.slot 0).confId ≠ 0 ∧
      (∃ k ∈ full.confs, (full.slot 0).conference = some k.id ∧ (full.slot 0).confId ≠ k.id) ∧
      ∃ t, exec (.reconfigure 0) full = .next t ∧
        Answered full t (Response.reconfigured 0 .resourceExhausted [])) :=
  ⟨⟨moving_inv, by decide +kernel, by decide +kernel, by decide +kernel, by decide +kernel, by decide +kernel,
      answers _ (by decide +kernel)⟩,
    ⟨full_inv, by decide +kernel, by decide +kernel, by decide +kernel, by decide +kernel, answers _ (by decide +kernel)⟩⟩

/-- A member whose classification changes and one whose does not; a channel in none that asks for none. -/
theorem witness_ReclassifyKeepsMembership :
    (demoted.Inv ∧ (1 : ChIx).toNat < demoted.cfg.nChan ∧ (demoted.slot 1).valid = true ∧
      ∃ k ∈ demoted.confs, (demoted.slot 1).conference = some k.id ∧ (demoted.slot 1).active = true ∧
        (demoted.slot 1).confId = k.id ∧ classify demoted k ≠ k.solution) ∧
    (hardware.Inv ∧ (hardware.slot 0).valid = true ∧
      ∃ k ∈ hardware.confs, (hardware.slot 0).conference = some k.id ∧ (hardware.slot 0).active = true ∧
        (hardware.slot 0).confId = k.id ∧ classify hardware k = k.solution) ∧
    (solo.Inv ∧ (solo.slot 0).valid = true ∧ (solo.slot 0).conference = none ∧ (solo.slot 0).active = false ∧
      (solo.slot 0).confId = 0) :=
  ⟨⟨demoted_inv, by decide +kernel⟩, ⟨hardware_inv, by decide +kernel⟩, ⟨solo_inv, by decide +kernel⟩⟩

/-- The registry full. -/
theorem witness_FailedMoveStillLeaves :
    full.Inv ∧ (0 : ChIx).toNat < full.cfg.nChan ∧ (full.slot 0).valid = true ∧ record [0, 1] ∈ full.confs ∧
    (full.slot 0).conference = some (record [0, 1]).id ∧ (record [0, 1]).members ≠ [0] ∧ (full.slot 0).active = true ∧
    (full.slot 0).confId ≠ 0 ∧ (full.slot 0).confId ≠ (record [0, 1]).id ∧ full.find (full.slot 0).confId = none ∧
    full.confs.length = full.cfg.nConf :=
  ⟨full_inv, by decide +kernel⟩

theorem witness_ReconfigureIdempotent :
    hardware.Inv ∧ (2 : ChIx).toNat < hardware.cfg.nChan ∧ (hardware.slot 2).valid = true ∧
    ∃ t, exec (.reconfigure 2) hardware = .next t ∧ Answered hardware t (Response.reconfigured 2 .ok
      [.hwCrossconnect 0 1 false, .hwConference 0 1, .hwConference 1 1, .hwConference 2 1]) :=
  ⟨hardware_inv, by decide +kernel, by decide +kernel, answers _ (by decide +kernel)⟩

/-- Slots 0 to 2 on hardware instance 7, and conferences that hold its units 1 to `n`. -/
def claimedTo (n : Nat) : State :=
  build std (List.replicate 3 { fresh with hwId := 7 })
    ((List.range n).map fun v =>
      { Conf.fresh (BitVec.ofNat 32 (10 + v)) with solution := .hwConference (v + 1), hwId := 7 })

/-- A record of three members that holds unit `u`, if any, on hardware instance `h`. -/
def three (u : Option Nat) (h : HwId) : Conf :=
  { Conf.fresh 1 with
    members := [0, 1, 2]
    solution := (match u with | some u => .hwConference u | none => .software)
    hwId := h }

/-- No hardware; two on hardware; three: unit kept, unit lost to another, the lowest free unit the first and the last, none
free. V-G7. -/
theorem witness_ClassifierCases :
    classify solo { Conf.fresh 1 with members := [0, 1] } = .software ∧
    classify (claimedTo 0) { Conf.fresh 1 with members := [0, 1] } = .hwCrossconnect ∧
    ((List.all [0, 1, 2] fun x => decide (((claimedTo 8).slot x).txMix = false ∧ ((claimedTo 8).slot x).hwId = 7)) =
      true) ∧
    classify (claimedTo 0) (three (some 4) 7) = .hwConference 4 ∧
    classify (claimedTo 4) (three (some 4) 7) = .hwConference 5 ∧
    classify (claimedTo 0) (three (some 4) 9) = .hwConference 1 ∧
    classify (claimedTo 7) (three none 0) = .hwConference 8 ∧
    classify (claimedTo 8) (three none 0) = .software := by decide +kernel

theorem witness_MismatchedHardwareDemotes :
    (0 : ChIx) ∈ ({ Conf.fresh 1 with members := [0, 3] } : Conf).members ∧
    (3 : ChIx) ∈ ({ Conf.fresh 1 with members := [0, 3] } : Conf).members ∧
    ((claimedTo 0).slot 0).hwId ≠ ((claimedTo 0).slot 3).hwId := by decide +kernel

/-- The same pair with a member joining, leaving and neither; a pair left for another, from and to every solution. -/
theorem witness_DispatchEvents :
    ((three (some 1) 7).solution = .hwCrossconnect → ([0, 1] : List ChIx).length = 2) ∧
    classify (claimedTo 0) (three (some 1) 7) = (three (some 1) 7).solution ∧
    classify (claimedTo 8) (three (some 1) 7) ≠ (three (some 1) 7).solution ∧
    classify (claimedTo 0) (three none 0) ≠ (three none 0).solution ∧
    classify (claimedTo 0) { three none 0 with members := [0, 1] } = .hwCrossconnect ∧
    classify (claimedTo 0) { three none 7 with solution := .hwCrossconnect } ≠ .hwCrossconnect ∧
    ([0, 1] : List ChIx).length = 2 ∧ classify solo (three none 0) = .software := by decide +kernel

/-! #### RECEIVE -/

/-- The two lengths just outside the range. -/
theorem witness_ReceiveLengthChecks :
    (0 : ChIx).toNat < solo.cfg.nChan ∧ (solo.slot 0).valid = true ∧ ([] : List Byte).length = 0 ∧
    solo.cfg.buffSize / 2 / 4 < (List.replicate 257 (0xD5 : Byte)).length := by decide +kernel

/-- The two lengths just inside. -/
theorem witness_ReceiveSolo :
    solo.Inv ∧ (0 : ChIx).toNat < solo.cfg.nChan ∧ (solo.slot 0).valid = true ∧ (solo.slot 0).conference = none ∧
    0 < ([0xD5] : List Byte).length ∧ (List.replicate 256 (0xD5 : Byte)).length ≤ solo.cfg.maxLen :=
  ⟨solo_inv, by decide +kernel⟩

/-- V-R1 rows 2 and 3: a window equal to `largest` is accepted, a wider one dropped. -/
theorem witness_ReceiveInConference :
    ((ahead320 160).Inv ∧ (0 : ChIx).toNat < std.nChan ∧ ((ahead320 160).slot 0).valid = true ∧
      (∃ k ∈ (ahead320 160).confs, ((ahead320 160).slot 0).conference = some k.id) ∧
      ∃ t, exec (.receive 0 (List.replicate 160 0x11)) (ahead320 160) = .next t ∧
        Answered (ahead320 160) t (Response.okay opReceive 0)) ∧
    ((ahead320 320).Inv ∧ ((ahead320 320).slot 0).valid = true ∧
      (∃ k ∈ (ahead320 320).confs, ((ahead320 320).slot 0).conference = some k.id) ∧
      ∃ t, exec (.receive 0 (List.replicate 160 0x12)) (ahead320 320) = .next t ∧
        Answered (ahead320 320) t (Response.dropped 0)) :=
  ⟨⟨ahead160_inv, by decide +kernel, by decide +kernel, by decide +kernel, answers _ (by decide +kernel)⟩,
    ⟨ahead320_inv, by decide +kernel, by decide +kernel, answers _ (by decide +kernel)⟩⟩

/-- Every sample added (the third member catches up), every sample assigned (a leader), and a pair. -/
theorem witness_ReceiveMixBuffer :
    (lateThird.Inv ∧ (lateThird.slot 2).valid = true ∧
      (∃ k ∈ lateThird.confs, (lateThird.slot 2).conference = some k.id ∧ 3 ≤ k.members.length ∧
        3 < ringDist 2048 k.wMax (lateThird.slot 2).wRx ∧ ringDist 2048 k.wMax (lateThird.slot 2).wRx ≤ 4) ∧
      ∃ t, exec (.receive 2 [0xAA, 0x2A, 0xFA, 0xD5, 0xD5]) lateThird = .next t ∧
        decide (t.responses = [Response.okay opReceive 2] ∧ (t.find 1).isSome = true) = true) ∧
    (pair.Inv ∧ (∃ k ∈ pair.confs, (pair.slot 0).conference = some k.id ∧ k.members.length < 3) ∧
      ∃ t, exec (.receive 0 [0xD4]) pair = .next t ∧
        decide (t.responses = [Response.okay opReceive 0] ∧ (t.find 1).isSome = true) = true) :=
  ⟨⟨lateThird_inv, by decide +kernel, by decide +kernel, after _ (by decide +kernel)⟩,
    ⟨pair_inv, by decide +kernel, after _ (by decide +kernel)⟩⟩

/-! #### TRANSMIT -/

/-- Exactly as many bytes as there is room for, and one more. -/
theorem witness_TransmitResult :
    wrapped.Inv ∧ (0 : ChIx).toNat < wrapped.cfg.nChan ∧ (wrapped.slot 0).valid = true ∧
    0 < (List.replicate 107 (0xEE : Byte)).length ∧
    ((List.replicate 107 (0xEE : Byte)).length : Int) ≤
      (((wrapped.slot 0).rTx : Int) - (wrapped.slot 0).wTx - 1) % wrapped.cfg.buffSize ∧
    (((wrapped.slot 0).rTx : Int) - (wrapped.slot 0).wTx - 1) % wrapped.cfg.buffSize <
      ((List.replicate 108 (0xEE : Byte)).length : Int) :=
  ⟨wrapped_inv, by decide +kernel⟩

theorem witness_TransmitQueueLength :
    wrapped.Inv ∧ (0 : ChIx).toNat < wrapped.cfg.nChan ∧ (wrapped.slot 0).valid = true ∧
    ([] : List Byte).length = 0 ∧ 0 < ([0xEE] : List Byte).length :=
  ⟨wrapped_inv, by decide +kernel⟩

/-! #### SEND and SEND_TONE -/

/-- The first refused length (V-S22). -/
theorem witness_SendRefusesLongRead :
    (0 : ChIx).toNat < solo.cfg.nChan ∧ (solo.slot 0).valid = true ∧
    solo.cfg.buffSize / 2 ≤ (1024 : BitVec 16).toNat ∧
    solo.cfg.buffSize / 2 ≤ (List.replicate 1024 (0x2A : Byte)).length := by decide +kernel

/-- The last accepted length (V-S21), a solo channel and a member. -/
theorem witness_SendCompletes :
    (solo.Inv ∧ (0 : ChIx).toNat < solo.cfg.nChan ∧ (solo.slot 0).valid = true ∧
      (1023 : BitVec 16).toNat < solo.cfg.buffSize / 2 ∧ (0 : BitVec 16).toNat < solo.cfg.buffSize / 2 ∧
      (solo.slot 0).conference = none) ∧
    (pair.Inv ∧ (1 : ChIx).toNat < pair.cfg.nChan ∧ (pair.slot 1).valid = true ∧
      (4 : BitVec 16).toNat < pair.cfg.buffSize / 2 ∧ record [0, 1] ∈ pair.confs ∧
      (pair.slot 1).conference = some (record [0, 1]).id) :=
  ⟨⟨solo_inv, by decide +kernel⟩, ⟨pair_inv, by decide +kernel⟩⟩

/-- A solo channel: the last queued byte (X) and the first without one (A, V-S3). -/
theorem witness_SendProducesBytes_solo :
    solo.Inv ∧ (0 : ChIx).toNat < solo.cfg.nChan ∧ (solo.slot 0).valid = true ∧
    (8 : BitVec 16).toNat < solo.cfg.buffSize / 2 ∧ (solo.slot 0).conference = none ∧ (solo.slot 0).txMix = false ∧
    2 < ringDist solo.cfg.buffSize (solo.slot 0).wTx (solo.slot 0).rTx ∧
    ¬3 < ringDist solo.cfg.buffSize (solo.slot 0).wTx (solo.slot 0).rTx ∧ (solo.slot 0).echo = true ∧
    ∃ t, exec (.send 0 8 0) solo = .next t ∧
      Answered solo t (Response.frame opSend 0 0 [0x11, 0x22, 0x33, 0x83, 0x84, 0x85, 0x86, 0x87]) :=
  ⟨solo_inv, by decide +kernel, by decide +kernel, by decide +kernel, by decide +kernel, by decide +kernel,
    by decide +kernel, by decide +kernel, by decide +kernel, answers _ (by decide +kernel)⟩

/-- A pair with `tx_mix` (B, V-S11) and a group (C, V-S15), with and without a queued byte. -/
theorem witness_SendProducesBytes_members :
    (pair.Inv ∧ (pair.slot 1).valid = true ∧ (pair.slot 1).txMix = true ∧
      1 < ringDist 2048 (pair.slot 1).wTx (pair.slot 1).rTx ∧ ¬2 < ringDist 2048 (pair.slot 1).wTx (pair.slot 1).rTx ∧
      (∃ k ∈ pair.confs, 0 ∈ k.members ∧ (pair.slot 1).conference = some k.id ∧ k.members.length = 2) ∧
      ∃ t, exec (.send 1 4 5) pair = .next t ∧ Answered pair t (Response.frame opSend 1 5 [0x92, 0x2A, 0xAA, 0xFA])) ∧
    (group.Inv ∧ (group.slot 2).valid = true ∧ (group.slot 2).txMix = true ∧
      1 < ringDist 2048 (group.slot 2).wTx (group.slot 2).rTx ∧
      ¬2 < ringDist 2048 (group.slot 2).wTx (group.slot 2).rTx ∧
      (∃ k ∈ group.confs, (group.slot 2).conference = some k.id ∧ 3 ≤ k.members.length) ∧
      ∃ t, exec (.send 2 4 0) group = .next t ∧ Answered group t (Response.frame opSend 2 0 [0xAA, 0x2A, 0xEA, 0xD5])) :=
  ⟨⟨pair_inv, by decide +kernel, by decide +kernel, by decide +kernel, by decide +kernel, by decide +kernel,
      answers _ (by decide +kernel)⟩,
    ⟨group_inv, by decide +kernel, by decide +kernel, by decide +kernel, by decide +kernel, by decide +kernel,
      answers _ (by decide +kernel)⟩⟩

/-- V-S1 and V-S2's states: an empty queue, and a queue of exactly the bytes asked for. -/
theorem witness_SoloEchoOffOutput :
    (toned.Inv ∧ (0 : ChIx).toNat < toned.cfg.nChan ∧ (toned.slot 0).valid = true ∧
      (240 : BitVec 16).toNat < toned.cfg.buffSize / 2 ∧ (toned.slot 0).conference = none ∧
      (toned.slot 0).echo = false ∧
      (240 : BitVec 16).toNat ≤ ringDist toned.cfg.buffSize (toned.slot 0).wTx (toned.slot 0).rTx ∧
      ringDist toned.cfg.buffSize (toned.slot 0).wTx (toned.slot 0).rTx < 241) ∧
    (pair.Inv ∧ (pair.slot 2).valid = true ∧ (pair.slot 2).conference = none ∧ (pair.slot 2).echo = false ∧
      (pair.slot 2).rTx = (pair.slot 2).wTx) :=
  ⟨⟨toned_inv, by decide +kernel⟩, ⟨pair_inv, by decide +kernel⟩⟩

theorem witness_SendToneResult :
    (toned.Inv ∧ (0 : ChIx).toNat < toned.cfg.nChan ∧ (toned.slot 0).valid = true ∧
      (List.replicate 1023 (0x2A : Byte)).length < toned.cfg.buffSize / 2 ∧ (toned.slot 0).conference = none) ∧
    (pair.Inv ∧ (pair.slot 1).valid = true ∧ record [0, 1] ∈ pair.confs ∧
      (pair.slot 1).conference = some (record [0, 1]).id) :=
  ⟨⟨toned_inv, by decide +kernel⟩, ⟨pair_inv, by decide +kernel⟩⟩

/-- Two states that differ in a record's thresholds, in a member's `W_rx` and in bytes not yet consumed. -/
theorem witness_SendIgnoresOffloadAndThresholds :
    (Instr.send 1 4 5).op = 6 ∧
    pair.sendView =
      ({ pair with chan := pair.chan.set 1 { pair.slot 1 with wRx := 9, largest := 77, hwId := 7 }
                   confs := [{ record [0, 1] with solution := .hwCrossconnect, hwId := 7, wMax := 9, largest := 3 }]
                   input := [1, 2] } : State).sendView ∧
    ∃ t, exec (.send 1 4 5) pair = .next t ∧ Answered pair t (Response.frame opSend 1 5 [0x92, 0x2A, 0xAA, 0xFA]) :=
  ⟨rfl, rfl, answers _ (by decide +kernel)⟩

/-! #### DTMF -/

theorem witness_DtmfInitResult :
    solo.chan.length = solo.cfg.nChan ∧ (0 : ChIx).toNat < solo.cfg.nChan ∧ (solo.slot 0).valid = true := by
  decide +kernel

theorem witness_DtmfDecodeCompletes :
    solo.chan.length = solo.cfg.nChan ∧ (0 : ChIx).toNat < solo.cfg.nChan ∧ (solo.slot 0).valid = true ∧
    (solo.slot 0).dtmfValid = true := by decide +kernel

/-- A byte that fills the frame and one that does not, in both laws. -/
theorem witness_DtmfDecodeOneMoreByte :
    (nearFrame.Inv ∧ (0 : ChIx).toNat < nearFrame.cfg.nChan ∧ (nearFrame.slot 0).valid = true ∧
      ∃ t, exec (.dtmfDecode 0 .aLaw []) nearFrame = .next t ∧
        decide (t.responses = nearFrame.responses ++ [Response.digits 0 [] false] ∧
          (t.slot 0).dtmf.size + 1 = nearFrame.cfg.nPoints) = true) ∧
    (solo.Inv ∧ (0 : ChIx).toNat < solo.cfg.nChan ∧ (solo.slot 0).valid = true ∧
      ∃ t, exec (.dtmfDecode 0 .uLaw [0xFF]) solo = .next t ∧
        decide (t.responses = solo.responses ++ [Response.digits 0 [] false] ∧
          (t.slot 0).dtmf.size + 1 ≠ solo.cfg.nPoints) = true) :=
  ⟨⟨nearFrame_inv, by decide +kernel, by decide +kernel, after _ (by decide +kernel)⟩,
    ⟨solo_inv, by decide +kernel, by decide +kernel, after _ (by decide +kernel)⟩⟩

/-- V-D8's powers are those of its chunk's words. -/
theorem chunk5_powers (k : Nat) (b0 b1 b2 b3 : Byte) (hk : k < 8) (h0 : chunk5[4 * k]? = some b0)
    (h1 : chunk5[4 * k + 1]? = some b1) (h2 : chunk5[4 * k + 2]? = some b2) (h3 : chunk5[4 * k + 3]? = some b3) :
    ([0, 1000000000, 0, 0, 0, 1000000000, 0, 0] : List Int)[k]? = some (b3 ++ b2 ++ b1 ++ b0 : Word).toInt := by
  interval_cases k <;> cases h0 <;> cases h1 <;> cases h2 <;> cases h3 <;> decide

/-- V-D8: after two chunks the third emits the digit; up to 31 stray bytes. -/
theorem witness_DtmfDecodeOneMoreChunk :
    solo.Inv ∧ (0 : ChIx).toNat < solo.cfg.nChan ∧ (solo.slot 0).valid = true ∧ (chunk5 ++ chunk5).length % 32 = 0 ∧
    chunk5.length = 32 ∧ (List.replicate 31 (1 : Byte)).length < 32 ∧
    ([0, 1000000000, 0, 0, 0, 1000000000, 0, 0] : List Int).length = 8 ∧
    ∃ t, exec (.dtmfDecode 0 .hfc (chunk5 ++ chunk5)) solo = .next t ∧ Answered solo t (Response.digits 0 [] false) :=
  ⟨solo_inv, by decide +kernel, by decide +kernel, by decide, by decide, by decide, by decide,
    answers _ (by decide +kernel)⟩

/-- V-D1: three frames of digit 5, A-law. -/
def five : List Byte :=
  [0xD5, 0xB3, 0xB9, 0x8B, 0x6F, 0x02, 0x19, 0x52, 0x65, 0x02, 0x34, 0x1B, 0x8F, 0xB8, 0xBF, 0x96, 0x34] ++
  [0x3C, 0x08, 0xD7, 0x9D, 0xF3, 0x6F, 0xE5, 0x8B, 0xB3, 0x8C, 0x06, 0x39, 0x39, 0x07, 0x8D, 0xB1, 0x8C] ++
  [0xF3, 0x72, 0x97, 0x85, 0x53, 0x35, 0x3F, 0x34, 0x90, 0xBF, 0xB9, 0x8D, 0x18, 0x0B, 0x07, 0x75, 0x79] ++
  [0x01, 0x0E, 0x6F, 0xB5, 0xB8, 0xB3, 0x45, 0x33, 0x3F, 0x0F, 0xED, 0x87, 0x95, 0x71, 0xEF, 0x88, 0xB6] ++
  [0x9A, 0x09, 0x3B, 0x3C, 0x14, 0xB4, 0xB2, 0x8C, 0x5D, 0x6B, 0xF9, 0x91, 0x63, 0x34, 0x3D, 0x0F, 0x80] ++
  [0xB9, 0xBE, 0x85, 0x02, 0x37, 0x01, 0x4F, 0x44, 0x1B, 0x01, 0xC4, 0xB7, 0xB9, 0xB7, 0x1D, 0x3C, 0x3F] ++
  [0x00, 0x9E, 0x8C, 0x9C, 0xD5, 0xEE, 0x8F, 0x8A, 0xEC, 0x34, 0x3B, 0x33, 0xF5, 0xB0, 0xBD, 0x82, 0x63] ++
  [0x1F, 0x4B, 0xE0, 0x14, 0x34, 0x30, 0x1A, 0x8B, 0xBB, 0xBC, 0xE8, 0x35, 0x31, 0x00, 0xDF, 0xF2, 0x16] ++
  [0x1E, 0xE9, 0xB6, 0xBC, 0x8F, 0x03, 0x39, 0x3F, 0x18, 0x83, 0x8A, 0x9A, 0xDE, 0xE0, 0x80, 0x8D, 0x4A] ++
  [0x31, 0x38, 0x34, 0x9C, 0xBC, 0xBC, 0x86, 0x1D, 0x06, 0x6E, 0xC9, 0x11, 0x0A, 0x34, 0x6D, 0xB6, 0xBB] ++
  [0xB0, 0x72, 0x31, 0x33, 0x01, 0xE6, 0x95, 0x64, 0x6A, 0x92, 0xB6, 0xB3, 0x9A, 0x0A, 0x3B, 0x3D, 0x6D] ++
  [0x8B, 0xB7, 0x84, 0x5C, 0xCA, 0x85, 0x85, 0x14, 0x30, 0x3E, 0x0F, 0x82, 0xB9, 0xBD, 0x9C, 0x01, 0x0C] ++
  [0x11, 0xD4, 0x16, 0x0E, 0x0E, 0xF2, 0xB0, 0xBB, 0xB4, 0x1E, 0x3D, 0x32, 0x05, 0x90, 0x9E, 0xC5, 0x7F] ++
  [0x9E, 0xB7, 0xB6, 0xE3, 0x31, 0x3A, 0x30, 0xFB, 0xB6, 0xB1, 0x85, 0x7B, 0x71, 0x91, 0x91, 0x19, 0x30] ++
  [0x3D, 0x1A, 0xB5, 0xBB, 0xB2, 0xE6, 0x09, 0x0A, 0x1C, 0xD0, 0x69, 0x03, 0x06, 0x90, 0xB2, 0xB9, 0x8C] ++
  [0x0D, 0x3E, 0x32, 0x13, 0x84, 0x86, 0xE0, 0x5F, 0x9E, 0xB5, 0x8B, 0x65, 0x32, 0x3B, 0x34, 0x99, 0xB2] ++
  [0xB0, 0x9E, 0x14, 0x15, 0xE7, 0xE7, 0x04, 0x30, 0x31, 0x66, 0xB1, 0xBA, 0xB1, 0x64, 0x37, 0x34, 0x1C] ++
  [0xF1, 0x7D, 0x05, 0x12, 0x85, 0xB2, 0xBC, 0x98, 0x34, 0x38, 0x30, 0x78, 0x8C, 0x8C, 0x95, 0xD7, 0x9D]

/-- V-D1's 305 and 306 bytes: the digit comes with the last byte, and one digit is exactly what `DIGITS_CAP = 1` holds. -/
theorem witness_DtmfSplitInvisible :
    Fmt.aLaw ≠ .hfc ∧
    (let c : Config := { std with digitsCap := 1 }
     let a := dtmfPayload c .aLaw (five.take 305) ⟨Dtmf.fresh, [], false⟩
     let b := dtmfPayload c .aLaw (five.drop 305) ⟨a.d, [], false⟩
     a.digits.length + b.digits.length = c.digitsCap) := by decide +kernel

/-- The recurrence on one sample, at the two sides of the warning limit. -/
theorem witness_GoertzelFollowsRecurrence :
    ∀ x ∈ [(32767 : Int), 32768], ∃ f : Nat → Int, f 0 = 0 ∧ f 1 = 0 ∧
      ∀ n (h : n < [x].length), f (n + 2) = (55959 * f (n + 1)) / 32768 - f n + [x][n] := by
  intro x _
  refine ⟨fun n => if n = 2 then x else 0, rfl, rfl, fun n h => ?_⟩
  have e : n = 0 := by simpa using h
  subst e
  simp

/-- V-D7: no candidate; a power in the forbidden band; one bin of each group; two of one. -/
theorem witness_FrameDecision :
    ([0, 199999, 0, 0, 0, 199999, 0, 0] : List Int).length = 8 ∧
    (∀ v ∈ ([0, 199999, 0, 0, 0, 199999, 0, 0] : List Int), ¬(200000 ≤ v ∧ 0 ≤ v)) ∧
    (∀ p ∈ [([0, 1000000, 0, 0, 0, 249999, 0, 0] : List Int), [0, 1000000, 0, 0, 0, 250000, 0, 0],
        [0, 1000000, 1000000, 0, 0, 1000000, 0, 0]],
      p.length = 8 ∧ (1000000 : Int) ∈ p ∧ ∀ v ∈ p, 200000 ≤ v → 0 ≤ v → v ≤ 1000000) ∧
    (∃ v ∈ ([0, 1000000, 0, 0, 0, 249999, 0, 0] : List Int), 1000000 / 8 ≤ v ∧ v < 1000000 / 4) ∧
    (∀ v ∈ ([0, 1000000, 0, 0, 0, 250000, 0, 0] : List Int), ¬(1000000 / 8 ≤ v ∧ v < 1000000 / 4)) := by decide

/-- V-D6 traces a and b, from the reset state; a decoder that has just decided a digit; one at count 2 that emits. -/
theorem witness_DebounceThreeFrames :
    0 < 15 ∧ (0x35 : Byte) ≠ 0 ∧ Dtmf.fresh.lastWhat ≠ 0x35 ∧ Dtmf.fresh.lastDigit ≠ 0x35 ∧
    ({ Dtmf.fresh with lastWhat := 0x35, lastDigit := 0x35, count := 2 } : Dtmf).lastWhat ≠ 0 ∧
    ({ Dtmf.fresh with lastWhat := 0x35, count := 2 } : Dtmf).count.toNat = 2 ∧
    (0x35 : Byte) ≠ ({ Dtmf.fresh with lastWhat := 0x35, count := 2 } : Dtmf).lastDigit := by decide

/-! #### Whole-machine rules -/

theorem witness_StepKeepsInvariant :
    (pair.present (encode (.reconfigure 2))).Inv ∧ ∃ t, step (pair.present (encode (.reconfigure 2))) = .next t :=
  ⟨inv_of_check std_valid (by decide +kernel) (by decide +kernel) (by decide +kernel), steps (by decide +kernel)⟩

theorem witness_StepNeverStops : (pair.present (encode (.reconfigure 2))).Inv := witness_StepKeepsInvariant.1

theorem witness_StepKeepsPointersInRing :
    0 < (pair.present (encode (.receive 0 [0xD4]))).cfg.buffSize ∧
    (pair.present (encode (.receive 0 [0xD4]))).PointersInRing ∧
    ∃ t, step (pair.present (encode (.receive 0 [0xD4]))) = .next t := by
  refine ⟨by decide +kernel, ⟨?_, by decide +kernel⟩, steps (by decide +kernel)⟩
  intro k hk
  have h := pair_inv.chans k hk
  exact ⟨h.wRx, h.rRx, h.wTx, h.rTx⟩

/-- A leader and a laggard of one conference. -/
theorem witness_EnvelopeOrdersMembers :
    (ahead320 320).Inv ∧ ∃ k ∈ (ahead320 320).confs, 0 ∈ k.members ∧ 1 ∈ k.members ∧
      ((ahead320 320).slot 0).wRx ≠ ((ahead320 320).slot 1).wRx :=
  ⟨ahead320_inv, by decide +kernel⟩

/-- A CH_INIT that succeeds and a RECEIVE that writes the record. -/
theorem witness_OnlyReconfigureChangesMembership :
    pair.Inv ∧ (Instr.chInit 2 .u).op ≠ 3 ∧ (Instr.receive 0 [0xD4]).op ≠ 3 ∧
    (∃ t, exec (.chInit 2 .u) pair = .next t ∧ Answered pair t (Response.okay opChInit 2)) ∧
    (∃ t, exec (.receive 0 [0xD4]) pair = .next t ∧ Answered pair t (Response.okay opReceive 0)) :=
  ⟨pair_inv, by decide, by decide, answers _ (by decide +kernel), answers _ (by decide +kernel)⟩

/-- Each status of the table. -/
theorem witness_StatusTable :
    (pair.Inv ∧ ∃ t, exec (.chInit 2 .u) pair = .next t ∧ Answered pair t (Response.okay opChInit 2)) ∧
    (∃ t, exec (.chInit 0 .u) pair = .next t ∧ Answered pair t (Response.raised opChInit 0 .invalidArgument)) ∧
    (full.Inv ∧ ∃ t, exec (.reconfigure 3) full = .next t ∧
      Answered full t (Response.reconfigured 3 .resourceExhausted [])) ∧
    (wrapped.Inv ∧ ∃ t, exec (.transmit 0 (List.replicate 108 0xEE)) wrapped = .next t ∧
      Answered wrapped t (Response.truncated 0)) :=
  ⟨⟨pair_inv, answers _ (by decide +kernel)⟩, answers _ (by decide +kernel), ⟨full_inv, answers _ (by decide +kernel)⟩,
    ⟨wrapped_inv, answers _ (by decide +kernel)⟩⟩

theorem witness_InvalidArgumentChangesNothing :
    pair.Inv ∧ (Response.raised opChInit 0 .invalidArgument).status = .invalidArgument ∧
    ∃ t, exec (.chInit 0 .u) pair = .next t ∧ Answered pair t (Response.raised opChInit 0 .invalidArgument) :=
  ⟨pair_inv, rfl, answers _ (by decide +kernel)⟩

/-- A whole command, and a stream that ends inside one. -/
theorem witness_StepFrame :
    (∃ t, step (pair.present (encode (.receive 0 [0xD4]))) = .next t) ∧
    decode (pair.present (encode (.receive 0 [0xD4]))).input ≠ .incomplete ∧
    (∃ t, step (pair.present [0x01]) = .next t) ∧ decode (pair.present [0x01]).input = .incomplete :=
  ⟨steps (by decide +kernel), by decide +kernel, steps (by decide +kernel), by decide +kernel⟩

theorem witness_OtherSlotsUntouched :
    ∃ t, exec (.reconfigure 0) full = .next t ∧
      Answered full t (Response.reconfigured 0 .resourceExhausted []) :=
  answers _ (by decide +kernel)

end Sys2Proof.Tests
end

section
/-! Scope (00_scope.md): one step is one decoded command, whole (R6, R93), and the integer readings of R16 (`sat16`,
`wrap32`). -/

namespace Sys2Proof.Machine

/-! ### A step on a decoded command -/

/-- A step that fetches a legal command consumes it and is its meaning (R93). -/
theorem step_of_decode {s : State} {i : Instr} {rest : List Byte} (h : decode s.input = .instr i rest) :
    step s = exec i (s.consumed rest) := by
  simp only [step, State.fetched, h]

/-- The decoder reads a well-formed command back from its encoding and leaves what follows (R81, R93). -/
theorem decode_encode {i : Instr} (h : i.WellFormed) (rest : List Byte) : decode (encode i ++ rest) = .instr i rest := by
  have words : decode (encode i ++ rest) = decodeWords i.word0 i.x (i.payload ++ rest) := by
    rw [encode, List.append_assoc, decode_words]
  have long_enough : ¬(i.payload ++ rest).length < i.payload.length := by simp
  rw [words, decodeWords]
  simp only [i.headerOp_word0, i.headerCh_word0, i.headerArg_word0, i.payloadLen_eq h, if_neg long_enough,
    List.take_left, List.drop_left, decodeCommand_self]

/-- Settles O6: the second half is the first on the stream that `decode_encode` reads back. -/
theorem stepRunsDecodedInstruction : Obligations.StepRunsDecodedInstruction := by
  refine ⟨fun _ _ _ h => step_of_decode h, fun s i rest wf h => ?_⟩
  have decoded : decode s.input = .instr i rest := by rw [h, decode_encode wf]
  exact step_of_decode decoded

/-! ### Saturation and exact sums -/

/-- `sat16` is the clamp to the signed 16-bit range (R16). -/
theorem sat16_eq_clamp (v : Int) : sat16 v = if v < -32768 then -32768 else if 32767 < v then 32767 else v := by
  unfold sat16
  split
  · omega
  · split <;> omega

/-- A 32-bit cell reads back a sum inside the signed 32-bit range exactly. -/
theorem toInt_wrap32 {v : Int} (lo : -(2 ^ 31) ≤ v) (hi : v < 2 ^ 31) : (wrap32 v).toInt = v :=
  BitVec.toInt_ofInt_eq_self (by decide) lo hi

/-- At most three samples sum to a value of magnitude at most 3 * 2^15. -/
theorem three_samples_sum_bounds {xs : List Int} (len : xs.length ≤ 3) (range : ∀ x ∈ xs, -32768 ≤ x ∧ x ≤ 32768) :
    -98304 ≤ xs.sum ∧ xs.sum ≤ 98304 := by
  have lower := List.card_nsmul_le_sum xs (-32768) fun x hx => (range x hx).1
  have upper := List.sum_le_card_nsmul xs 32768 fun x hx => (range x hx).2
  rw [nsmul_eq_mul] at lower upper
  omega

/-- Settles O14: the clamp is `sat16`, and a sum of these terms is below 2^31 in magnitude. -/
theorem mixSaturates : Obligations.MixSaturates := by
  refine ⟨fun c l ts => by rw [mixLaw, sat16_eq_clamp], fun cell xs cellLo cellHi len range => ?_⟩
  obtain ⟨sumLo, sumHi⟩ := three_samples_sum_bounds len range
  exact toInt_wrap32 (by omega) (by omega)

end Sys2Proof.Machine
end

section
/-! State (10_state.md): what a command and a step can do, said once (`exec_cases`, `exec_kept`, `step_cases`); from it that
every step keeps the invariant (R41 to R44), the ring indices (R41), the configuration and both streams (R40, R88). Then
power-on (R45), the order the envelope puts on the members (R42, R44), the tx queue (R28), the reset values of a slot (R46,
R48) and the creation of a record (R47). -/

namespace Sys2Proof.Machine

variable {s t : State} {i : Instr} {ch : ChIx}

/-! ### What a command can do -/

/-- The slot that a command which writes no record leaves in place of the one it names. -/
inductive Rewrites (s : State) : Instr → Channel → Prop
  | chInit (ch : ChIx) (law : Law) (outside : (s.slot ch).valid = true → (s.slot ch).conference = none) :
      Rewrites s (.chInit ch law) (Channel.fresh s.cfg law)
  | chSet (ch : ChIx) (st : Setting) : Rewrites s (.chSet ch st) ((s.slot ch).apply st)
  | receive (ch : ChIx) (frame : List Byte) (outside : (s.slot ch).conference = none)
      (short : frame.length ≤ s.cfg.maxLen) :
      Rewrites s (.receive ch frame)
        ((s.slot ch).received s.cfg.buffSize (max (s.slot ch).largest (2 * frame.length)) frame)
  | transmit (ch : ChIx) (frame : List Byte) :
      Rewrites s (.transmit ch frame)
        ((s.slot ch).queued s.cfg.buffSize (frame.take (min frame.length (txFree s.cfg.buffSize (s.slot ch)))))
  | send (ch : ChIx) (len : BitVec 16) (tag : Word) (found : Option Conf) (hf : sendConf s ch = .ok found) :
      Rewrites s (.send ch len tag)
        ((s.slot ch).sent
          (readPointers s.cfg.buffSize (s.slot ch).rRx (readLimit (s.slot ch) found) len.toNat).2
          (sendTx s.cfg (s.slot ch) len.toNat (s.slot ch).rTx))
  | sendTone (ch : ChIx) (tag : Word) (tone : List Byte) (found : Option Conf) (hf : sendConf s ch = .ok found) :
      Rewrites s (.sendTone ch tag tone)
        ((s.slot ch).sent
          (readPointers s.cfg.buffSize (s.slot ch).rRx (readLimit (s.slot ch) found) tone.length).2 (s.slot ch).wTx)
  | dtmfInit (ch : ChIx) : Rewrites s (.dtmfInit ch) { s.slot ch with dtmfValid := true, dtmf := Dtmf.fresh }
  | dtmfDecode (ch : ChIx) (fmt : Fmt) (bytes : List Byte) :
      Rewrites s (.dtmfDecode ch fmt bytes)
        { s.slot ch with dtmf := (dtmfPayload s.cfg fmt bytes ⟨(s.slot ch).dtmf, [], false⟩).d }

/-- The next states a command can answer: nothing but a response, a rewritten slot, an accepted or dropped frame of a
conference member, or what RECONFIGURE came to. -/
inductive Effect (s : State) : Instr → State → Prop
  | refused (i : Instr) (r : Response) : Effect s i (s.respond r)
  | slot (i : Instr) (o : Channel) (r : Response) (hch : i.ch.toNat < s.cfg.nChan) (ho : Rewrites s i o) :
      Effect s i ((s.setSlot i.ch o).respond r)
  | member (ch : ChIx) (frame : List Byte) (k : Conf) (hch : ch.toNat < s.cfg.nChan) (short : frame.length ≤ s.cfg.maxLen)
      (named : (s.slot ch).conference = some k.id) (hk : k ∈ s.confs) :
      Effect s (.receive ch frame) (receiveMember s ch k frame)
  | reconfigured (ch : ChIx) (p : Progress) (r : Response) (hch : ch.toNat < s.cfg.nChan)
      (valid : (s.slot ch).valid = true) (hp : reconfigure s ch (s.slot ch).want = .ok p) :
      Effect s (.reconfigure ch) (p.state.respond r)

/-- Every next state a command answers is one of `Effect`. -/
theorem exec_cases (h : exec i s = .next t) : Effect s i t := by
  cases i with
  | chInit ch law =>
    simp only [exec, execChInit] at h
    split at h
    · cases h; exact .refused _ _
    split at h
    · cases h; exact .refused _ _
    · rename_i exists_ notMember
      cases h
      exact .slot (.chInit ch law) _ _ (Nat.not_le.mp exists_) (.chInit ch law fun hv => by simpa [hv] using notMember)
  | chSet ch st =>
    simp only [exec, execChSet] at h
    split at h <;> rename_i hu <;> cases h
    · exact .slot (.chSet ch st) _ _ (State.usable_iff.mp hu).1 (.chSet ch st)
    · exact .refused _ _
  | reconfigure ch =>
    simp only [exec, execReconfigure] at h
    split at h <;> rename_i hu
    · split at h <;> cases h
      exact .reconfigured ch _ _ (State.usable_iff.mp hu).1 (State.usable_iff.mp hu).2 ‹_›
    · cases h; exact .refused _ _
  | receive ch frame =>
    simp only [exec, execReceive] at h
    split at h <;> rename_i hu
    · split at h
      · cases h; exact .refused _ _
      split at h
      · cases h; exact .refused _ _
      rename_i long
      split at h
      · cases h
        exact .slot (.receive ch frame) _ _ (State.usable_iff.mp hu).1 (.receive ch frame ‹_› (Nat.not_lt.mp long))
      · rename_i id named
        split at h <;> cases h
        rename_i k found
        obtain ⟨hk, rfl⟩ := State.find_some found
        exact .member ch frame k (State.usable_iff.mp hu).1 (Nat.not_lt.mp long) named hk
    · cases h; exact .refused _ _
  | transmit ch frame =>
    simp only [exec, execTransmit] at h
    split at h <;> rename_i hu
    · split at h
      · cases h; exact .refused _ _
      · split at h <;> cases h <;>
          exact .slot (.transmit ch frame) _ _ (State.usable_iff.mp hu).1 (.transmit ch frame)
    · cases h; exact .refused _ _
  | send ch len tag =>
    simp only [exec, execSend] at h
    split at h <;> rename_i hu
    · split at h
      · cases h; exact .refused _ _
      split at h
      · cases h
      split at h <;> cases h
      exact .slot (.send ch len tag) _ _ (State.usable_iff.mp hu).1 (.send ch len tag _ ‹_›)
    · cases h; exact .refused _ _
  | sendTone ch tag tone =>
    simp only [exec, execSendTone] at h
    split at h <;> rename_i hu
    · split at h
      · cases h; exact .refused _ _
      split at h <;> cases h
      exact .slot (.sendTone ch tag tone) _ _ (State.usable_iff.mp hu).1 (.sendTone ch tag tone _ ‹_›)
    · cases h; exact .refused _ _
  | dtmfInit ch =>
    simp only [exec, execDtmfInit] at h
    split at h <;> rename_i hu <;> cases h
    · exact .slot (.dtmfInit ch) _ _ (State.usable_iff.mp hu).1 (.dtmfInit ch)
    · exact .refused _ _
  | dtmfDecode ch fmt bytes =>
    simp only [exec, execDtmfDecode] at h
    split at h <;> rename_i hu <;> cases h
    · exact .slot (.dtmfDecode ch fmt bytes) _ _ (State.usable_iff.mp hu.1).1 (.dtmfDecode ch fmt bytes)
    · exact .refused _ _

/-! ### Ring indices -/

/-- The scan for the earliest write index ends on a ring index (R174). -/
theorem scanMin_lt (hS : 0 < s.cfg.buffSize) (hp : s.PointersInRing) (l : List ChIx) {w : Nat} (hw : w < s.cfg.buffSize) :
    scanMin s ch l w < s.cfg.buffSize := by
  induction l generalizing w with
  | nil => exact hw
  | cons o os ih =>
    rw [scanMin]
    split
    · exact ih (hp.slot hS o).1
    · exact ih hw

/-- The tx index after any number of output bytes is a ring index (R206). -/
theorem sendTx_lt {c : Config} {me : Channel} (n : Nat) {x : Nat} (hx : x < c.buffSize) : sendTx c me n x < c.buffSize := by
  induction n generalizing x with
  | zero => exact hx
  | succ n ih => exact ih (nextTx_lt hx)

/-- The read limit of SEND and SEND_TONE is a ring index (R191). -/
theorem State.PointersInRing.readLimit_lt (hS : 0 < s.cfg.buffSize) (hp : s.PointersInRing) {found : Option Conf}
    (hf : sendConf s ch = .ok found) : readLimit (s.slot ch) found < s.cfg.buffSize := by
  unfold sendConf at hf
  split at hf
  · cases hf; exact (hp.slot hS ch).1
  · split at hf <;> cases hf
    exact (hp.2 _ (State.find_some ‹_›).1).1

/-- A rewritten slot has its ring indices in the ring. -/
theorem Rewrites.inRing {o : Channel} (h : Rewrites s i o) (hS : 0 < s.cfg.buffSize) (hp : s.PointersInRing) :
    o.InRing s.cfg.buffSize := by
  obtain ⟨wRx, rRx, wTx, rTx⟩ := hp.slot hS i.ch
  cases h with
  | chInit => exact ⟨hS, hS, hS, hS⟩
  | chSet ch st => cases st <;> exact ⟨wRx, rRx, wTx, rTx⟩
  | receive ch frame => exact ⟨adv_lt hS (s.slot ch).wRx frame.length, rRx, wTx, rTx⟩
  | transmit ch frame => exact ⟨wRx, rRx, adv_lt hS (s.slot ch).wTx (frame.take _).length, rTx⟩
  | send ch len tag found hf => exact ⟨wRx, readPointers_lt hS (hp.readLimit_lt hS hf), wTx, sendTx_lt _ rTx⟩
  | sendTone ch tag tone found hf => exact ⟨wRx, readPointers_lt hS (hp.readLimit_lt hS hf), wTx, wTx⟩
  | dtmfInit => exact ⟨wRx, rRx, wTx, rTx⟩
  | dtmfDecode => exact ⟨wRx, rRx, wTx, rTx⟩

/-- What RECEIVE does for a member, accepted or dropped: one slot and one record are replaced, and what they say of the
membership and the offload is kept; ring indices stay in the ring. -/
theorem receiveMember_cases (s : State) (ch : ChIx) (k : Conf) (frame : List Byte) :
    ∃ o q r, receiveMember s ch k frame = ((s.setSlot ch o).setConf q).respond r ∧
      o.conference = (s.slot ch).conference ∧
      q.id = k.id ∧ q.members = k.members ∧ q.solution = k.solution ∧ q.hwId = k.hwId ∧
      (0 < s.cfg.buffSize → s.PointersInRing → k ∈ s.confs →
        o.InRing s.cfg.buffSize ∧ q.wMin < s.cfg.buffSize ∧ q.wMax < s.cfg.buffSize) := by
  unfold receiveMember
  simp only
  split
  · refine ⟨_, _, _, rfl, rfl, rfl, rfl, rfl, rfl, fun hS hp hk => ?_⟩
    exact ⟨hp.slot hS ch, scanMin_lt hS hp _ (adv_lt hS _ _), (hp.2 k hk).2⟩
  · refine ⟨_, _, _, rfl, rfl, rfl, rfl, rfl, rfl, fun hS hp hk => ?_⟩
    obtain ⟨-, rRx, wTx, rTx⟩ := hp.slot hS ch
    exact ⟨⟨adv_lt hS (s.slot ch).wRx frame.length, rRx, wTx, rTx⟩, scanMin_lt hS hp _ (adv_lt hS _ _),
      later_lt (adv_lt hS _ _) (hp.2 k hk).2⟩

/-- A command that answers a next state adds one response to a state that keeps the configuration, both streams, the number
of slots, every slot but the one named, and ring indices in the ring. -/
theorem exec_kept (h : exec i s = .next t) : ∃ u r, t = u.respond r ∧ Kept s u i.ch := by
  cases exec_cases h with
  | refused _ r => exact ⟨s, r, rfl, Kept.refl⟩
  | slot _ o r _ ho => exact ⟨_, r, rfl, Kept.refl.setSlot fun hS hp _ => ho.inRing hS hp⟩
  | member ch frame k _ _ _ hk =>
    obtain ⟨o, q, r, e, -, -, -, -, -, ring⟩ := receiveMember_cases s ch k frame
    refine ⟨_, r, e, Kept.setConf (Kept.refl.setSlot fun hS hp _ => ?_) fun hS hp => ?_⟩
    · exact (ring hS hp hk).1
    · exact (ring hS hp hk).2
  | reconfigured ch p r _ _ hp => exact ⟨_, r, rfl, (reconfigure_kept hp).1⟩

/-! ### What a step can do -/

/-- What the decoder leaves of a stream that holds a whole command is the stream's end (R93). -/
theorem decode_rest (bytes : List Byte) : decode bytes = .incomplete ∨
    ∃ n, (∃ i, decode bytes = .instr i (bytes.drop n)) ∨
      ∃ why op ch, decode bytes = .illegal why op ch (bytes.drop n) := by
  rcases decode_cases bytes with ⟨-, h⟩ | ⟨w0, w1, l, rfl, h⟩
  · exact .inl h
  · have tail : ∀ n, (bytesOfWord w0 ++ bytesOfWord w1 ++ l).drop (8 + n) = l.drop n := fun n => by
      rw [← List.drop_drop]; rfl
    rw [h, decodeWords]
    split
    · exact .inl rfl
    · refine .inr ⟨8 + payloadLen (headerOp w0) (headerArg w0), ?_⟩
      rw [tail]
      split
      · exact .inl ⟨_, rfl⟩
      · exact .inr ⟨_, _, _, rfl⟩

/-- A step waits, unchanged; or it consumes the head of the stream and either answers it or runs its command (R87, R93). -/
theorem step_cases (h : step s = .next t) :
    (decode s.input = .incomplete ∧ t = s) ∨
      (decode s.input ≠ .incomplete ∧ ∃ n, (∃ r, t = (s.consumed (s.input.drop n)).respond r) ∨
        ∃ i, exec i (s.consumed (s.input.drop n)) = .next t) := by
  rcases decode_rest s.input with hd | ⟨n, ⟨i, hd⟩ | ⟨why, op, ch, hd⟩⟩ <;> simp only [step, State.fetched, hd] at h
  · cases h; exact .inl ⟨hd, rfl⟩
  · exact .inr ⟨by simp [hd], n, .inr ⟨i, h⟩⟩
  · cases h; exact .inr ⟨by simp [hd], n, .inl ⟨_, rfl⟩⟩

/-- A step that does not wait adds one response to a state that keeps what `Kept` says of the state with the head of the
stream consumed. -/
theorem step_kept (h : step s = .next t) :
    (decode s.input = .incomplete ∧ t = s) ∨
      (decode s.input ≠ .incomplete ∧
        ∃ n u r ch, t = u.respond r ∧ Kept (s.consumed (s.input.drop n)) u ch) := by
  rcases step_cases h with wait | ⟨whole, n, ⟨r, rfl⟩ | ⟨i, hi⟩⟩
  · exact .inl wait
  · exact .inr ⟨whole, n, _, r, 0, rfl, Kept.refl⟩
  · obtain ⟨u, r, e, kept⟩ := exec_kept hi
    exact .inr ⟨whole, n, u, r, i.ch, e, kept⟩

/-- Settles O58: `step_kept`, field by field. -/
theorem stepFrame : Obligations.StepFrame := by
  intro s t h
  rcases step_kept h with ⟨wait, rfl⟩ | ⟨whole, n, u, r, ch, rfl, kept⟩
  · exact ⟨rfl, rfl, ⟨0, rfl⟩, fun _ => rfl, fun whole => absurd wait whole⟩
  · refine ⟨kept.cfg, kept.length, ⟨n, kept.input⟩, fun wait => absurd wait whole, fun _ => ⟨r, ?_⟩⟩
    rw [Answered, State.respond_responses, kept.responses, State.consumed_responses]

/-- Settles O53: ring indices are a part of what `step_kept` says. -/
theorem stepKeepsPointersInRing : Obligations.StepKeepsPointersInRing := by
  intro s t hS hp h
  rcases step_kept h with ⟨-, rfl⟩ | ⟨-, n, u, r, ch, rfl, kept⟩
  · exact hp
  · exact kept.ring hS hp

/-! ### The invariant -/

/-- The invariant bounds every ring index (R41). -/
theorem State.Inv.pointersInRing (h : s.Inv) : s.PointersInRing :=
  ⟨fun k hk => ⟨(h.chans k hk).wRx, (h.chans k hk).rRx, (h.chans k hk).wTx, (h.chans k hk).rTx⟩,
    fun k hk => ⟨(h.confs k hk).wMin, (h.confs k hk).wMax⟩⟩

theorem State.Inv.buffSize_pos (h : s.Inv) : 0 < s.cfg.buffSize := by
  have := h.cfg.big
  omega

/-- A rewritten slot is in order. -/
theorem Rewrites.ok {o : Channel} (h : Rewrites s i o) (inv : s.Inv) (hch : i.ch.toNat < s.cfg.nChan) : o.Ok s.cfg := by
  have hS := inv.buffSize_pos
  have me := inv.slot_ok hch
  obtain ⟨wRx, rRx, wTx, rTx⟩ := h.inRing hS inv.pointersInRing
  cases h with
  | chInit => exact Channel.fresh_ok inv.cfg _
  | chSet ch st => cases st <;> exact { me with }
  | receive ch frame outside short =>
    refine { me with wRx, rxWf := ringWrite_wf hS _ me.rxWf _, largest := ?_ }
    exact Nat.max_le.mpr ⟨me.largest, by omega⟩
  | transmit => exact { me with wTx, txWf := ringWrite_wf hS _ me.txWf _ }
  | send => exact me.sent rRx rTx
  | sendTone => exact me.sent rRx rTx
  | dtmfInit => exact { me with dtmfWf := Mem.wf_filled _ _, size := inv.cfg.points, decoder := fun _ => rfl }
  | dtmfDecode ch fmt bytes =>
    have none_yet : DigitsOk s.cfg [] := ⟨Nat.zero_le _, by simp⟩
    obtain ⟨dtmfWf, size⟩ := (dtmfPayload_ok fmt bytes ⟨(s.slot ch).dtmf, [], false⟩ none_yet).2 ⟨me.dtmfWf, me.size⟩
    exact { me with dtmfWf, size }

/-- No command rewrites a slot's conference: CH_INIT finds the slot in none and leaves it in none. -/
theorem Rewrites.conference {o : Channel} (h : Rewrites s i o) (inv : s.Inv) (hch : i.ch.toNat < s.cfg.nChan) :
    o.conference = (s.slot i.ch).conference := by
  cases h with
  | chInit ch law outside =>
    cases hv : (s.slot ch).valid with
    | true => exact (outside hv).symm
    | false => exact ((inv.slot_ok hch).outside hv).symm
  | chSet ch st => cases st <;> rfl
  | _ => rfl

/-- The write index of a conference member is rewritten by RECEIVE alone, with its record (`receiveMember`). -/
theorem Rewrites.wRx_of_member {o : Channel} (h : Rewrites s i o) (member : o.conference ≠ none) :
    o.wRx = (s.slot i.ch).wRx := by
  cases h with
  | chInit => exact absurd rfl member
  | receive ch frame outside => exact absurd outside member
  | chSet ch st => cases st <;> rfl
  | _ => rfl

/-- Every command keeps the invariant. -/
theorem exec_inv (inv : s.Inv) (h : exec i s = .next t) : t.Inv := by
  cases exec_cases h with
  | refused _ r => exact inv.respond r
  | slot _ o r hch ho => exact (inv.setSlot hch (ho.ok inv hch) (ho.conference inv hch) ho.wRx_of_member).respond r
  | member ch frame k hch short named hk => exact inv.receiveMember hk (inv.mem_of_named hch hk named) short
  | reconfigured ch p r hch valid hp =>
    obtain ⟨q, hq, part, -⟩ := reconfigure_ok inv hch valid
    obtain rfl : q = p := Except.ok.inj (hq.symm.trans hp)
    exact part.inv.respond r

/-- Settles O51: a step waits, answers or runs a command, and each keeps the invariant. -/
theorem stepKeepsInvariant : Obligations.StepKeepsInvariant := by
  intro s t inv h
  rcases step_cases h with ⟨-, rfl⟩ | ⟨-, n, ⟨r, rfl⟩ | ⟨i, hi⟩⟩
  · exact inv
  · exact (inv.consumed _).respond r
  · exact exec_inv (inv.consumed _) hi

/-- The default parameters meet their constraints. -/
theorem Config.standard_valid : Config.standard.Valid where
  pow := ⟨11, rfl⟩
  big := by decide
  points := by decide
  thresh := by decide
  encA := g711EncodeA_size
  encU := g711EncodeU_size
  chan := by decide
  conf := by decide
  members := by decide
  digits := by decide

/-- Every slot at power-on, and every index that is no slot, reads as never initialised (R45). -/
theorem State.slot_resetWith (c : Config) (ch : ChIx) : (State.resetWith c).slot ch = Channel.powerOn := by
  simp only [State.slot, State.resetWith, List.getD_eq_getElem?_getD, List.getElem?_replicate]
  split <;> rfl

/-- The slot log 2 chooses is in order. -/
theorem Channel.powerOn_ok {c : Config} (valid : c.Valid) : Channel.powerOn.Ok c := by
  have zero : 0 < c.buffSize := by have := valid.big; omega
  exact ⟨Mem.wf_filled _ _, Mem.wf_filled _ _, zero, zero, zero, zero, Nat.zero_le _, Mem.wf_filled _ _, valid.points,
    fun h => absurd h (by decide), fun _ => rfl⟩

/-- The invariant holds at power-on: no record, and no slot names one. -/
theorem State.resetWith_inv {c : Config} (valid : c.Valid) : (State.resetWith c).Inv where
  cfg := valid
  size := List.length_replicate
  chans := fun k hk => (List.eq_of_mem_replicate hk) ▸ Channel.powerOn_ok valid
  count := Nat.zero_le _
  ids := List.nodup_nil
  confs := fun _ hk => absurd hk List.not_mem_nil
  listed := fun _ hk => absurd hk List.not_mem_nil
  named := fun ch id _ named => by rw [State.slot_resetWith] at named; cases named
  envelope := fun _ hk => absurd hk List.not_mem_nil
  units := fun _ hk => absurd hk List.not_mem_nil

/-- Settles O16: the empty registry asks nothing of the slots but that each is in order. -/
theorem resetMeetsInvariant : Obligations.ResetMeetsInvariant :=
  ⟨Config.standard_valid, fun _ => State.resetWith_inv, State.resetWith_inv Config.standard_valid⟩

/-- A command that does not find its slot usable is refused, but for CH_INIT, which does not look (R24, R274). -/
theorem refuses_of_not_usable (notInit : i.op ≠ opChInit) (h : s.usable i.ch = false) : Refuses i s .invalidArgument := by
  have unusable : ¬s.usable i.ch = true := by simp [h]
  cases i with
  | chInit => exact absurd rfl notInit
  | dtmfDecode => exact if_neg fun both => unusable both.1
  | _ => exact if_neg unusable

/-- Settles O15: the slot check comes first in every command but CH_INIT. -/
theorem powerOnAndInvalidSlots : Obligations.PowerOnAndInvalidSlots := by
  refine ⟨fun c => ⟨rfl, List.length_replicate, fun ch => by rw [State.slot_resetWith]; rfl⟩, fun i s notInit h => ?_⟩
  refine refuses_of_not_usable notInit ?_
  rcases h with noSlot | invalid
  · simp [State.usable, Nat.not_lt.mpr noSlot]
  · simp [State.usable, invalid]

/-! ### The envelope -/

/-- Within half a ring of a base, of two ring indices one is less than half a ring past the other (R102). -/
theorem dist_lt_half_or {S b x y : Nat} (hb : b < S) (hx : x < S) (hy : y < S) (px : ringDist S x b < S / 2)
    (py : ringDist S y b < S / 2) : ringDist S x y < S / 2 ∨ ringDist S y x < S / 2 := by
  rw [dist_of_pos hb hx hy, dist_of_pos hb hy hx]
  split_ifs <;> omega

/-- A window is narrower than half a ring (R29, R44). -/
theorem Conf.Ok.window_lt_half {c : Config} {k : Conf} (h : k.Ok c) (valid : c.Valid) :
    ringDist c.buffSize k.wMax k.wMin < c.buffSize / 2 := by
  have window := h.window
  have largest := h.largest
  have big := valid.big
  simp only [Config.maxLen, Config.half] at largest
  omega

/-- Settles O54: every member stands in a window narrower than half a ring, so positions past `W_min` compare. -/
theorem envelopeOrdersMembers : Obligations.EnvelopeOrdersMembers := by
  intro s inv k hk m hm
  have ok := inv.confs k hk
  have narrow := ok.window_lt_half inv.cfg
  have inRing : ∀ o ∈ k.members, (s.slot o).wRx < s.cfg.buffSize := fun o ho => (inv.slot_ok (inv.listed k hk o ho).1).wRx
  have near : ∀ o ∈ k.members, ringDist s.cfg.buffSize (s.slot o).wRx k.wMin < s.cfg.buffSize / 2 := fun o ho =>
    (inv.envelope k hk o ho).trans_lt narrow
  have below : ringDist s.cfg.buffSize k.wMax (s.slot m).wRx < s.cfg.buffSize / 2 := by
    rw [dist_of_pos ok.wMin ok.wMax (inRing m hm), if_pos (inv.envelope k hk m hm)]
    omega
  exact ⟨decide_eq_true (near m hm), decide_eq_true below, near m hm, fun o ho =>
    dist_lt_half_or ok.wMin (inRing m hm) (inRing o ho) (near m hm) (near o ho)⟩

/-! ### The membership -/

/-- Replacing a record by one that a reading does not tell from it changes no record's reading. -/
theorem State.map_setConf {α : Type} {f : Conf → α} {k q : Conf} (ids : (s.confs.map (·.id)).Nodup) (hk : k ∈ s.confs)
    (hid : q.id = k.id) (hf : f q = f k) : (s.setConf q).confs.map f = s.confs.map f := by
  rw [State.setConf_confs, List.map_map]
  refine List.map_congr_left fun o ho => ?_
  by_cases same : o.id = q.id
  · obtain rfl := conf_eq_of_id ids ho hk (same.trans hid)
    simp [hid, hf]
  · simp [same]

/-- Replacing a slot by one in the same conference changes no slot's conference. -/
theorem State.conference_setSlot {o : Channel} (hlen : ch.toNat < s.chan.length)
    (ho : o.conference = (s.slot ch).conference) (x : ChIx) :
    ((s.setSlot ch o).slot x).conference = (s.slot x).conference := by
  rw [State.slot_setSlot hlen]
  split
  · subst_vars; exact ho
  · rfl

/-- Settles O55: a rewritten slot touches no record, and RECEIVE replaces a record by one of the same membership. -/
theorem onlyReconfigureChangesMembership : Obligations.OnlyReconfigureChangesMembership := by
  intro i s t inv notReconfigure h
  cases exec_cases h with
  | refused => exact ⟨rfl, fun _ _ => rfl⟩
  | slot _ o r hch ho =>
    exact ⟨rfl, fun x _ => State.conference_setSlot (inv.chan_lt hch) (ho.conference inv hch) x⟩
  | member ch frame k hch _ _ hk =>
    obtain ⟨o, q, r, e, conf, id, members, sol, hw, -⟩ := receiveMember_cases s ch k frame
    rw [e]
    refine ⟨State.map_setConf (s := s.setSlot ch o) inv.ids hk id ?_, fun x _ => ?_⟩
    · rw [id, members, sol, hw]
    · exact State.conference_setSlot (inv.chan_lt hch) conf x
  | reconfigured => exact absurd rfl notReconfigure

/-! ### Slots as CH_INIT, DTMF_INIT and TRANSMIT leave them -/

/-- Replacing a slot and responding touches the slots and the responses only. -/
theorem SlotsOnly.of_setSlot (s : State) (ch : ChIx) (o : Channel) (r : Response) :
    SlotsOnly s ((s.setSlot ch o).respond r) := ⟨rfl, rfl, rfl, List.length_set⟩

/-- Replacing a slot and responding keeps the other slots. -/
theorem OtherSlotsKept.of_setSlot (s : State) (ch : ChIx) (o : Channel) (r : Response) :
    OtherSlotsKept s ((s.setSlot ch o).respond r) ch := fun _ hx => State.slot_setSlot_ne hx

/-- Settles O17: the two tests of CH_INIT, and the fields of `Channel.fresh`. -/
theorem chInitResult : Obligations.ChInitResult := by
  intro s ch law size
  constructor
  · intro hch outside
    have completes : exec (.chInit ch law) s = .next ((s.setSlot ch (Channel.fresh s.cfg law)).okay opChInit ch) := by
      have notMember : ¬((s.slot ch).valid = true ∧ (s.slot ch).conference.isSome = true) := by
        rcases outside with h | h <;> simp [h]
      simp only [exec, execChInit]
      rw [if_neg (Nat.not_le.mpr hch), if_neg notMember]
    have slot : ((s.setSlot ch (Channel.fresh s.cfg law)).okay opChInit ch).slot ch = Channel.fresh s.cfg law :=
      State.slot_setSlot_same (size.symm ▸ hch)
    refine ⟨_, completes, rfl, .of_setSlot _ _ _ _, .of_setSlot _ _ _ _, ?_⟩
    rw [slot]
    exact ⟨rfl, rfl, rfl, rfl, rfl, rfl, rfl, rfl, rfl, rfl, rfl, rfl, rfl, rfl, rfl, rfl, rfl, rfl, fun _ => rfl,
      fun _ => ⟨rfl, rfl⟩⟩
  · unfold Refuses
    simp only [exec, execChInit]
    rintro (noSlot | ⟨valid, member⟩)
    · rw [if_pos noSlot]; rfl
    · have refused : (s.slot ch).valid = true ∧ (s.slot ch).conference.isSome = true :=
        ⟨valid, Option.isSome_iff_ne_none.mpr member⟩
      rw [if_pos refused, ite_self]; rfl

/-- Settles O43: the decoder of the slot becomes `Dtmf.fresh`. -/
theorem dtmfInitResult : Obligations.DtmfInitResult := by
  intro s ch size hch valid
  have completes : exec (.dtmfInit ch) s =
      .next ((s.setSlot ch { s.slot ch with dtmfValid := true, dtmf := Dtmf.fresh }).okay opDtmfInit ch) := by
    simp only [exec, execDtmfInit, State.usable_iff.mpr ⟨hch, valid⟩, if_true]
  exact ⟨_, Dtmf.fresh, completes, rfl, .of_setSlot _ _ _ _, .of_setSlot _ _ _ _,
    State.slot_setSlot_same (size.symm ▸ hch), rfl, rfl, rfl, rfl, fun _ => rfl⟩

/-- TRANSMIT of a nonempty frame appends the bytes that fit (R222 to R224). -/
theorem exec_transmit {frame : List Byte} (usable : s.usable ch = true) (nonempty : 0 < frame.length) :
    ∃ r, exec (.transmit ch frame) s = .next ((s.setSlot ch
      ((s.slot ch).queued s.cfg.buffSize
        (frame.take (min frame.length (txFree s.cfg.buffSize (s.slot ch)))))).respond r) := by
  simp only [exec, execTransmit, usable, if_true, if_neg (Nat.pos_iff_ne_zero.mp nonempty)]
  split
  · exact ⟨_, rfl⟩
  · exact ⟨_, rfl⟩

/-- Appended bytes lengthen the queue by their number while it stays shorter than the ring (R28). -/
theorem Channel.dist_queued {S : Nat} {k : Channel} (hw : k.wTx < S) (hr : k.rTx < S) {bytes : List Byte}
    (fits : ringDist S k.wTx k.rTx + bytes.length < S) :
    ringDist S (k.queued S bytes).wTx (k.queued S bytes).rTx = ringDist S k.wTx k.rTx + bytes.length :=
  pos_adv hr hw fits

/-- Settles O36: the free places and the queued ones are `S − 1` together, and as many bytes are appended as fit. -/
theorem transmitQueueLength : Obligations.TransmitQueueLength := by
  intro s ch frame inv hch valid
  have usable : s.usable ch = true := State.usable_iff.mpr ⟨hch, valid⟩
  have me := inv.slot_ok hch
  constructor
  · intro empty
    simp only [Refuses, exec, execTransmit, usable, if_true, empty]
    rfl
  · intro nonempty
    obtain ⟨r, completes⟩ := exec_transmit usable nonempty
    refine ⟨_, completes, ?_⟩
    have places := txFree_add me.wTx me.rTx
    have pos := inv.buffSize_pos
    rw [State.respond_slot, State.slot_setSlot_same (inv.chan_lt hch),
      Channel.dist_queued me.wTx me.rTx (by rw [List.length_take]; omega), List.length_take]
    omega

/-! ### A record is created -/

/-- RECONFIGURE of a channel in no conference that asks for one is its join half (R156). -/
theorem reconfigure_of_outside {id : ConfId} (outside : (s.slot ch).conference = none) :
    reconfigure s ch (some id) = joinPart s ch id := by
  simp only [reconfigure, reconfigureLeave, reconfigureJoin, outside]
  cases joinPart s ch id <;> rfl

/-- The answer of RECONFIGURE on a valid slot, from what its two halves come to (R158). -/
theorem exec_reconfigure {p : Progress} (usable : s.usable ch = true)
    (h : reconfigure s ch (s.slot ch).want = .ok p) :
    exec (.reconfigure ch) s =
      .next (p.state.respond (Response.reconfigured ch (p.raised.getD .ok) p.events)) := by
  simp only [exec, execReconfigure, usable, if_true, h]

/-- Settles O21: the join half on an id that no record has. -/
theorem joinCreatesConference : Obligations.JoinCreatesConference := by
  intro s ch inv hch valid outside active asks absent
  have usable : s.usable ch = true := State.usable_iff.mpr ⟨hch, valid⟩
  have want : (s.slot ch).want = some (s.slot ch).confId := if_pos ⟨active, asks⟩
  have run : reconfigure s ch (s.slot ch).want = joinPart s ch (s.slot ch).confId := by
    rw [want, reconfigure_of_outside outside]
  rcases joinPart_ok inv hch valid outside asks with
    ⟨noRoom, join⟩ | ⟨k, s', evs, sol, hw, join, -, -, cfg, input, responses, chan, -, found | created⟩
  · have full : s.confs.length = s.cfg.nConf := by
      rcases noRoom with ⟨-, full⟩ | ⟨k, found, -⟩
      · exact full
      · exact absurd (absent.symm.trans found) (by simp)
    exact ⟨fun room => absurd full room.ne, fun _ => exec_reconfigure usable (run.trans join)⟩
  · exact absurd (absent.symm.trans found.1) (by simp)
  · obtain ⟨-, room, rfl, rfl, -, -, confs⟩ := created
    refine ⟨fun _ => ?_, fun full => absurd full room.ne⟩
    have slots := slot_of_chan (inv.chan_lt hch) chan
    refine ⟨_, Mem.filled (silLaw s.cfg (s.slot ch).law), ((Conf.fresh (s.slot ch).confId).joined ch).confBuff,
      exec_reconfigure usable (run.trans join), ?_, cfg, input, fun o other => ?_, ?_, fun _ => rfl, fun _ => rfl, confs⟩
    · exact congrArg (· ++ _) responses
    · exact (slots o).trans (if_neg other)
    · exact (slots ch).trans (if_pos rfl)

end Sys2Proof.Machine
end

section
/-! Memory (20_memory.md): the chunks of hardware magnitudes as little-endian words (R66, R248), the slots a command does not
name (R61), and the words and bytes of a response (R66, R88 to R90). -/

namespace Sys2Proof.Machine

variable {s : State} {ch : ChIx} {c : Config}

/-! ### Hardware magnitudes, chunk by chunk -/

/-- DTMF_DECODE on a valid slot with an initialised decoder stores what the payload comes to, and answers its digits. -/
theorem exec_dtmfDecode (usable : s.usable ch = true) (decoder : (s.slot ch).dtmfValid = true) (fmt : Fmt)
    (bytes : List Byte) {q : DtmfRun} (run : dtmfPayload s.cfg fmt bytes ⟨(s.slot ch).dtmf, [], false⟩ = q) :
    exec (.dtmfDecode ch fmt bytes) s =
      .next ((s.setSlot ch { s.slot ch with dtmf := q.d }).respond (Response.digits ch q.digits q.warn)) := by
  subst run
  exact if_pos ⟨usable, decoder⟩

/-- The magnitudes of `n` bins are read from the first `4 * n` bytes. -/
theorem chunkBins_append {n : Nat} {bs : List Byte} (more : List Byte) (enough : 4 * n ≤ bs.length) :
    chunkBins n (bs ++ more) = chunkBins n bs := by
  induction n generalizing bs with
  | zero => rfl
  | succ n ih =>
    match bs, enough with
    | b0 :: b1 :: b2 :: b3 :: rest, enough =>
      exact congrArg (s32le b0 b1 b2 b3 :: ·) (ih (by simp only [List.length_cons] at enough; omega))

/-- The magnitudes are the little-endian words of the chunk, in order (R66, R248). -/
theorem eq_chunkBins {n : Nat} {bs : List Byte} {p : List Int} (enough : 4 * n ≤ bs.length) (count : p.length = n)
    (words : ∀ (k : Nat) (b0 b1 b2 b3 : Byte), k < n → bs[4 * k]? = some b0 → bs[4 * k + 1]? = some b1 →
      bs[4 * k + 2]? = some b2 → bs[4 * k + 3]? = some b3 → p[k]? = some (s32le b0 b1 b2 b3)) :
    p = chunkBins n bs := by
  induction n generalizing bs p with
  | zero => exact List.length_eq_zero_iff.mp count
  | succ n ih =>
    match bs, p, enough, count with
    | b0 :: b1 :: b2 :: b3 :: rest, v :: p, enough, count =>
      have first : v = s32le b0 b1 b2 b3 := Option.some.inj (words 0 b0 b1 b2 b3 (Nat.succ_pos n) rfl rfl rfl rfl)
      have others : p = chunkBins n rest :=
        ih (by simp only [List.length_cons] at enough; omega) (Nat.succ.inj count) fun k c0 c1 c2 c3 hk h0 h1 h2 h3 =>
          words (k + 1) c0 c1 c2 c3 (Nat.succ_lt_succ hk) h0 h1 h2 h3
      rw [first, others, chunkBins]

/-- `n` chunks are decided from the first `32 * n` bytes. -/
theorem hfcChunks_append {n : Nat} {bs : List Byte} (more : List Byte) (r : DtmfRun) (enough : 32 * n ≤ bs.length) :
    hfcChunks c n (bs ++ more) r = hfcChunks c n bs r := by
  induction n generalizing bs r with
  | zero => rfl
  | succ n ih =>
    rw [hfcChunks, hfcChunks, chunkBins_append more (by omega), List.drop_append_of_le_length (by omega)]
    exact ih _ (by rw [List.length_drop]; omega)

/-- The last of `n + 1` chunks is decided after the `n` before it. -/
theorem hfcChunks_succ (n : Nat) (bs : List Byte) (r : DtmfRun) :
    hfcChunks c (n + 1) bs r = (hfcChunks c n bs r).decided c (chunkBins 8 (bs.drop (32 * n))) := by
  induction n generalizing bs r with
  | zero => rfl
  | succ n ih =>
    rw [hfcChunks, ih, List.drop_drop, Nat.add_comm 32, ← Nat.mul_succ, hfcChunks]

/-- Stray bytes after the last whole chunk change nothing (R248). -/
theorem dtmfPayload_hfc_stray {bytes extra : List Byte} (whole : bytes.length % 32 = 0) (short : extra.length < 32)
    (r : DtmfRun) : dtmfPayload c .hfc (bytes ++ extra) r = dtmfPayload c .hfc bytes r := by
  have chunks : (bytes ++ extra).length / 32 = bytes.length / 32 := by rw [List.length_append]; omega
  simp only [dtmfPayload, chunks]
  exact hfcChunks_append extra r (Nat.mul_div_le _ _)

/-- One more chunk is one more decision, on its eight magnitudes (R248). -/
theorem dtmfPayload_hfc_chunk {bytes chunk : List Byte} (whole : bytes.length % 32 = 0) (full : chunk.length = 32)
    (r : DtmfRun) :
    dtmfPayload c .hfc (bytes ++ chunk) r = (dtmfPayload c .hfc bytes r).decided c (chunkBins 8 chunk) := by
  have chunks : (bytes ++ chunk).length / 32 = bytes.length / 32 + 1 := by rw [List.length_append]; omega
  have last : (bytes ++ chunk).drop (32 * (bytes.length / 32)) = chunk := List.drop_left' (by omega)
  simp only [dtmfPayload, chunks]
  rw [hfcChunks_succ, last, hfcChunks_append chunk r (Nat.mul_div_le _ _)]

/-- Hardware magnitudes raise no warning (R248). -/
theorem dtmfPayload_hfc_warn (bytes : List Byte) (d : Dtmf) : (dtmfPayload c .hfc bytes ⟨d, [], false⟩).warn = false := by
  obtain ⟨-, -, -, warn⟩ := hfcChunks_ok (c := c) (bytes.length / 32) bytes ⟨d, [], false⟩ ⟨Nat.zero_le _, by simp⟩
  exact warn

/-- Settles O46: the payload with the chunk is the payload before it and one decision, and the stray bytes after either
are not read. -/
theorem dtmfDecodeOneMoreChunk : Obligations.DtmfDecodeOneMoreChunk := by
  intro s t ch bytes chunk extra r inv hch valid whole full short h answered
  have usable : s.usable ch = true := State.usable_iff.mpr ⟨hch, valid⟩
  have completes := exec_dtmfDecode usable ((inv.slot_ok hch).decoder valid) .hfc
  have slot : ∀ o : Channel, (s.setSlot ch o).slot ch = o := fun _ => State.slot_setSlot_same (inv.chan_lt hch)
  rw [completes bytes rfl] at h
  cases h
  obtain rfl : Response.digits ch _ _ = r := List.singleton_inj.mp (List.append_cancel_left answered)
  refine ⟨fun p count words => ?_, completes _ (dtmfPayload_hfc_stray whole short _)⟩
  obtain rfl : p = chunkBins 8 chunk := eq_chunkBins full.ge count words
  have run : dtmfPayload s.cfg .hfc (bytes ++ chunk ++ extra) ⟨(s.slot ch).dtmf, [], false⟩ =
      (dtmfPayload s.cfg .hfc bytes ⟨(s.slot ch).dtmf, [], false⟩).decided s.cfg (chunkBins 8 chunk) :=
    (dtmfPayload_hfc_stray (by rw [List.length_append]; omega) short _).trans (dtmfPayload_hfc_chunk whole full _)
  refine ⟨_, completes _ run, ?_, ?_⟩
  · rw [State.respond_slot, State.respond_slot, slot, slot]
    rfl
  · have warn := dtmfPayload_hfc_warn (c := s.cfg) bytes (s.slot ch).dtmf
    rw [State.respond_slot, slot]
    simp only [Answered, State.respond, DtmfRun.decided, warn]
    rfl

/-! ### Other slots -/

/-- Settles O59: what `exec_kept` says of the slots; the response added touches none. -/
theorem otherSlotsUntouched : Obligations.OtherSlotsUntouched := by
  intro i s t h
  obtain ⟨u, r, rfl, kept⟩ := exec_kept h
  exact kept.slots

/-! ### The words and bytes of a response -/

/-- A one-bit field holds its flag. -/
theorem bitField_one (b : Bool) : bitField 1 b = BitVec.ofBool b := by cases b <;> rfl

/-- The fields of response word 0 (R88, R89), each reached by dropping the fields below it and above it. -/
theorem Response.word0_fields (r : Response) :
    r.word0.extractLsb' 28 4 = r.op ∧ r.word0.extractLsb' 16 12 = r.ch ∧ r.word0.extractLsb' 12 4 = 0 ∧
      r.word0.extractLsb' 8 4 = r.flags ∧ r.word0.extractLsb' 4 4 = 0 ∧ r.word0.extractLsb' 0 4 = r.status.code := by
  unfold Response.word0
  refine ⟨?_, ?_, ?_, ?_, ?_, ?_⟩ <;>
  · simp (disch := decide) only [BitVec.extractLsb'_append_eq_of_le, BitVec.extractLsb'_append_eq_of_add_le]
    exact BitVec.extractLsb'_eq_self

/-- The bits of `flags` (R89). -/
theorem Response.flags_bits (r : Response) :
    r.flags.getLsbD 3 = false ∧ r.flags.getLsbD 2 = r.ovfWarn ∧ r.flags.getLsbD 1 = r.trunc ∧
      r.flags.getLsbD 0 = r.drop := by
  unfold Response.flags
  refine ⟨?_, ?_, ?_, ?_⟩ <;>
  · simp only [BitVec.getLsbD_append, bitField_one]
    simp

/-- `flags` stands in word 0 from bit 8 (R89). -/
theorem Response.word0_flag (r : Response) {k : Nat} (hk : k < 4) : r.word0.getLsbD (8 + k) = r.flags.getLsbD k := by
  obtain ⟨-, -, -, flags, -⟩ := r.word0_fields
  rw [← flags, BitVec.getLsbD_extractLsb']
  simp [hk]

/-- The fields of a conference event (R90). -/
theorem Event.hwConference_fields (ch : ChIx) (u : Nat) :
    (Event.hwConference ch u).word.extractLsb' 28 4 = 1 ∧ (Event.hwConference ch u).word.extractLsb' 16 12 = ch ∧
      (Event.hwConference ch u).word.extractLsb' 4 12 = 0 ∧
      (Event.hwConference ch u).word.extractLsb' 0 4 = BitVec.ofNat 4 u := by
  unfold Event.word
  refine ⟨?_, ?_, ?_, ?_⟩ <;>
  · simp (disch := decide) only [BitVec.extractLsb'_append_eq_of_le, BitVec.extractLsb'_append_eq_of_add_le]
    exact BitVec.extractLsb'_eq_self

/-- The fields of a cross-connect event (R90). -/
theorem Event.hwCrossconnect_fields (a b : ChIx) (e : Bool) :
    (Event.hwCrossconnect a b e).word.extractLsb' 28 4 = 2 ∧ (Event.hwCrossconnect a b e).word.extractLsb' 16 12 = a ∧
      (Event.hwCrossconnect a b e).word.extractLsb' 4 12 = b ∧
      (Event.hwCrossconnect a b e).word.extractLsb' 1 3 = 0 ∧
      (Event.hwCrossconnect a b e).word.extractLsb' 0 1 = bitField 1 e := by
  unfold Event.word
  refine ⟨?_, ?_, ?_, ?_, ?_⟩ <;>
  · simp (disch := decide) only [BitVec.extractLsb'_append_eq_of_le, BitVec.extractLsb'_append_eq_of_add_le]
    exact BitVec.extractLsb'_eq_self

/-- Settles O10: the flags are bits 11:8 of word 0, a unit number fits in 4 bits, and `Response.bytes` lists the words in
this order. -/
theorem responseAndEventLayout : Obligations.ResponseAndEventLayout := by
  refine ⟨fun r => ?_, fun ch u hu => ?_, fun a b e => ?_, fun r => ?_⟩
  · obtain ⟨op, ch, high, -, low, code⟩ := r.word0_fields
    obtain ⟨zero, ovfWarn, trunc, drop⟩ := r.flags_bits
    exact ⟨op, ch, high, (r.word0_flag (k := 3) (by decide)).trans zero,
      (r.word0_flag (k := 2) (by decide)).trans ovfWarn, (r.word0_flag (k := 1) (by decide)).trans trunc,
      (r.word0_flag (k := 0) (by decide)).trans drop, low, code⟩
  · obtain ⟨kind, channel, zero, unit⟩ := Event.hwConference_fields ch u
    refine ⟨kind, channel, zero, ?_⟩
    rw [unit, BitVec.toNat_ofNat]
    exact Nat.mod_eq_of_lt (by omega)
  · obtain ⟨kind, first, second, zero, enable⟩ := Event.hwCrossconnect_fields a b e
    refine ⟨kind, first, second, zero, ?_⟩
    have bit : (bitField 1 e).getLsbD 0 = (Event.hwCrossconnect a b e).word.getLsbD 0 := by
      rw [← enable, BitVec.getLsbD_extractLsb']
      rfl
    exact bit.symm.trans (by rw [bitField_one]; simp)
  · rw [Response.bytes, List.flatMap_def]
    rfl

end Sys2Proof.Machine
end

section
/-! Encoding (30_encoding.md): the decoder on two header words, said once (`decodeWords_whole`); which headers it accepts,
in the words of R87 (`decodeCommand_isOk_iff`) and in those of the opcode table (`OpRow.legal_iff`, R83); what a step does
with them (R93); the one response of every command, said once (`exec_reply`: R88, R89); and CH_SET (R85). -/

namespace Sys2Proof

variable {i : Instr} {op : BitVec 4} {ch : ChIx} {arg : BitVec 16} {x w0 w1 : Word} {l p rest : List Byte}

/-! ### The decoder on two header words -/

/-- A header with its whole payload is the command that its fields decode to, or an illegal command (R93). -/
theorem decodeWords_whole (ch : ChIx) (x : Word) (rest : List Byte) (len : p.length = payloadLen op arg) :
    (∃ i, decodeCommand op ch arg x p = .ok i ∧ decodeWords (headerWord op ch arg) x (p ++ rest) = .instr i rest) ∨
      ∃ why, decodeCommand op ch arg x p = .error why ∧
        decodeWords (headerWord op ch arg) x (p ++ rest) = .illegal why op ch rest := by
  have enough : ¬(p ++ rest).length < p.length := by simp
  simp only [decodeWords, headerOp_headerWord, headerCh_headerWord, headerArg_headerWord, ← len, if_neg enough,
    List.take_left, List.drop_left]
  split
  · exact .inl ⟨_, ‹_›, rfl⟩
  · exact .inr ⟨_, ‹_›, rfl⟩

/-- Two header words that are not incomplete are a header with its whole payload and the bytes after it. -/
theorem exists_whole (h : decodeWords w0 x l ≠ .incomplete) : ∃ op ch arg p rest,
    w0 = headerWord op ch arg ∧ l = p ++ rest ∧ p.length = payloadLen op arg := by
  have enough : ¬l.length < payloadLen (headerOp w0) (headerArg w0) := fun short => h (if_pos short)
  exact ⟨_, _, _, _, _, (headerWord_fields w0).symm, (List.take_append_drop _ l).symm,
    List.length_take_of_le (Nat.not_lt.mp enough)⟩

/-- Two header words are incomplete exactly while payload bytes are missing (R93). -/
theorem decodeWords_incomplete_iff :
    decodeWords w0 x l = .incomplete ↔ l.length < payloadLen (headerOp w0) (headerArg w0) := by
  refine ⟨fun h => ?_, fun short => if_pos short⟩
  rw [decodeWords] at h
  by_contra enough
  rw [if_neg enough] at h
  split at h <;> cases h

/-- A command read from two header words is well formed and has those header words, and its payload comes first in the
bytes after them (R81, R82). -/
theorem decodeWords_instr (h : decodeWords w0 x l = .instr i rest) :
    i.WellFormed ∧ i.word0 = w0 ∧ i.x = x ∧ l = i.payload ++ rest := by
  obtain ⟨op, ch, arg, p, tail, rfl, rfl, len⟩ := exists_whole (by rw [h]; exact Decoded.noConfusion)
  rcases decodeWords_whole ch x tail len with ⟨j, ok, h'⟩ | ⟨why, -, h'⟩ <;> rw [h'] at h <;> cases h
  obtain ⟨rfl, rfl, rfl, rfl, rfl, wf⟩ := decodeCommand_ok len ok
  exact ⟨wf, rfl, rfl, rfl⟩

/-! ### Which headers are legal -/

/-- The bits of a word from bit `k` up are zero when it is below `2 ^ k`. -/
theorem extractLsb'_high_eq_zero_iff {n k m : Nat} (v : BitVec n) (width : n = k + m) :
    v.extractLsb' k m = 0 ↔ v.toNat < 2 ^ k := by
  have bound : v.toNat / 2 ^ k < 2 ^ m := by
    rw [Nat.div_lt_iff_lt_mul (by positivity), ← pow_add, Nat.add_comm, ← width]
    exact v.isLt
  rw [← BitVec.toNat_inj, BitVec.extractLsb'_toNat, Nat.shiftRight_eq_div_pow, Nat.mod_eq_of_lt bound]
  simp [Nat.div_eq_zero_iff]

/-- A word under the mask of the bits from bit `k` up is zero when it is below `2 ^ k`. -/
theorem and_high_eq_zero_iff {n : Nat} (v : BitVec n) (k : Nat) :
    v &&& (BitVec.allOnes n <<< k) = 0 ↔ v.toNat < 2 ^ k := by
  constructor
  · intro h
    refine Nat.lt_pow_two_of_testBit v.toNat fun j hj => ?_
    have bit := congrArg (·.getLsbD j) h
    by_cases hn : j < n
    · rw [← BitVec.getLsbD]
      simpa [hn, hj, Nat.not_lt.mpr hj, show j - k < n by omega] using bit
    · exact v.getLsbD_of_ge j (Nat.not_lt.mp hn)
  · intro h
    refine BitVec.eq_of_getLsbD_eq fun j hn => ?_
    by_cases hj : j < k
    · simp [hj]
    · have clear : v.getLsbD j = false :=
        Nat.testBit_lt_two_pow (h.trans_le (Nat.pow_le_pow_right (by decide) (Nat.not_lt.mp hj)))
      rw [BitVec.getLsbD_and, clear]
      simp

/-- The headers that R87 calls illegal, in the words of `Obligations.IllegalHeadersAreRefused`. -/
def IllegalHeader (op : BitVec 4) (arg : BitVec 16) (x : Word) : Prop :=
  op = 0 ∨ 10 ≤ op.toNat ∨
    (op = 1 ∧ (2 ≤ arg.toNat ∨ x ≠ 0)) ∨
    (op = 2 ∧ (16 ≤ arg.toNat ∨ (arg.toNat ≤ 3 ∧ 2 ≤ x.toNat) ∨ (arg.toNat = 5 ∧ 65536 ≤ x.toNat) ∨ 6 ≤ arg.toNat)) ∨
    ((op = 3 ∨ op = 8) ∧ (arg ≠ 0 ∨ x ≠ 0)) ∨
    ((op = 4 ∨ op = 5) ∧ x ≠ 0) ∨
    (op = 9 ∧ 3 ≤ x.toNat)

/-- CH_INIT is accepted when only its law bit can be set (R84). -/
theorem decodeChInit_isOk_iff : (∃ i, decodeChInit ch arg x = .ok i) ↔ arg.toNat < 2 ∧ x = 0 := by
  have high := extractLsb'_high_eq_zero_iff (k := 1) (m := 15) arg rfl
  unfold decodeChInit
  split <;> simp_all

/-- A one-bit value is accepted when it is 0 or 1 (R85). -/
theorem decodeBit_isOk_iff (f : Bool → Setting) : (∃ st, decodeBit x f = .ok st) ↔ x.toNat < 2 := by
  have high := extractLsb'_high_eq_zero_iff (k := 1) (m := 31) x rfl
  unfold decodeBit
  split <;> simp_all

/-- A setting is accepted when its selector is 0 to 5 and the value fits it (R85). -/
theorem decodeSetting_isOk_iff {sel : BitVec 4} : (∃ st, decodeSetting sel x = .ok st) ↔
    (sel.toNat ≤ 3 ∧ x.toNat < 2) ∨ sel.toNat = 4 ∨ (sel.toNat = 5 ∧ x.toNat < 65536) := by
  have high := extractLsb'_high_eq_zero_iff (k := 16) (m := 16) x rfl
  unfold decodeSetting
  split_ifs with law echo txMix active confId hwId fits
  · simp [law, decodeBit_isOk_iff]
  · simp [echo, decodeBit_isOk_iff]
  · simp [txMix, decodeBit_isOk_iff]
  · simp [active, decodeBit_isOk_iff]
  · simp [confId]
  · simpa [hwId] using high.mp fits
  · simpa [hwId] using high.not.mp fits
  · exact iff_of_false (by simp) (by bv_omega)

/-- Mapping a result does not change whether there is one. -/
theorem map_isOk_iff {ε α β : Type} (e : Except ε α) (f : α → β) : (∃ b, e.map f = .ok b) ↔ ∃ a, e = .ok a := by
  cases e <;> simp [Except.map]

/-- CH_SET is accepted when all of `arg` is a selector that `decodeSetting` accepts with its value (R84, R85). -/
theorem decodeChSet_isOk_iff : (∃ i, decodeChSet ch arg x = .ok i) ↔
    (arg.toNat ≤ 3 ∧ x.toNat < 2) ∨ arg.toNat = 4 ∨ (arg.toNat = 5 ∧ x.toNat < 65536) := by
  have high := extractLsb'_high_eq_zero_iff (k := 4) (m := 12) arg rfl
  unfold decodeChSet
  split <;> rename_i h <;> rw [high] at h
  · have selector : (arg.extractLsb' 0 4).toNat = arg.toNat := by
      rw [BitVec.extractLsb'_toNat]
      exact Nat.mod_eq_of_lt h
    rw [map_isOk_iff, decodeSetting_isOk_iff, selector]
  · simp only [reduceCtorEq, exists_false, false_iff]
    omega

/-- RECONFIGURE and DTMF_INIT are accepted when both fields are zero (R84). -/
theorem decodePlain_isOk_iff : (∃ j, decodePlain arg x i = .ok j) ↔ arg = 0 ∧ x = 0 := by
  unfold decodePlain
  split <;> simp_all

/-- RECEIVE and TRANSMIT are accepted when `x` is zero (R84). -/
theorem decodeFrame_isOk_iff : (∃ j, decodeFrame x i = .ok j) ↔ x = 0 := by
  unfold decodeFrame
  split <;> simp_all

/-- The formats are 0, 1 and 2 (R86). -/
theorem decodeFmt_isOk_iff : (∃ f, decodeFmt x = .ok f) ↔ x.toNat < 3 := by
  constructor
  · rintro ⟨f, h⟩
    rw [← decodeFmt_ok h]
    cases f <;> decide
  · intro h
    have code : ∃ f : Fmt, f.code = x := by
      obtain h | h | h : x = 0 ∨ x = 1 ∨ x = 2 := by bv_omega
      · exact ⟨.aLaw, h.symm⟩
      · exact ⟨.uLaw, h.symm⟩
      · exact ⟨.hfc, h.symm⟩
    obtain ⟨f, rfl⟩ := code
    exact ⟨f, decodeFmt_self f⟩

/-! ### R87, opcode by opcode -/

theorem legal_chInit : ¬IllegalHeader opChInit arg x ↔ arg.toNat < 2 ∧ x = 0 := by
  simp [IllegalHeader, opChInit]

theorem legal_chSet : ¬IllegalHeader opChSet arg x ↔
    (arg.toNat ≤ 3 ∧ x.toNat < 2) ∨ arg.toNat = 4 ∨ (arg.toNat = 5 ∧ x.toNat < 65536) := by
  simp only [IllegalHeader, opChSet, BitVec.ofNat_eq_ofNat, BitVec.reduceEq, BitVec.reduceToNat, Nat.reduceLeDiff,
    false_and, true_and, or_self, or_false, false_or]
  omega

theorem legal_plain (h : op = opReconfigure ∨ op = opDtmfInit) : ¬IllegalHeader op arg x ↔ arg = 0 ∧ x = 0 := by
  rcases h with rfl | rfl <;> simp [IllegalHeader, opReconfigure, opDtmfInit]

theorem legal_frame (h : op = opReceive ∨ op = opTransmit) : ¬IllegalHeader op arg x ↔ x = 0 := by
  rcases h with rfl | rfl <;> simp [IllegalHeader, opReceive, opTransmit]

theorem legal_send (h : op = opSend ∨ op = opSendTone) : ¬IllegalHeader op arg x := by
  rcases h with rfl | rfl <;> simp [IllegalHeader, opSend, opSendTone]

theorem legal_dtmfDecode : ¬IllegalHeader opDtmfDecode arg x ↔ x.toNat < 3 := by
  simp [IllegalHeader, opDtmfDecode]

/-- Header fields decode to a command exactly when R87 does not call them illegal. -/
theorem decodeCommand_isOk_iff : (∃ i, decodeCommand op ch arg x p = .ok i) ↔ ¬IllegalHeader op arg x := by
  unfold decodeCommand
  split
  · subst_vars; exact decodeChInit_isOk_iff.trans legal_chInit.symm
  split
  · subst_vars; exact decodeChSet_isOk_iff.trans legal_chSet.symm
  split
  · exact decodePlain_isOk_iff.trans (legal_plain (.inl ‹_›)).symm
  split
  · exact decodeFrame_isOk_iff.trans (legal_frame (.inl ‹_›)).symm
  split
  · exact decodeFrame_isOk_iff.trans (legal_frame (.inr ‹_›)).symm
  split
  · exact iff_of_true ⟨_, rfl⟩ (legal_send (.inl ‹_›))
  split
  · exact iff_of_true ⟨_, rfl⟩ (legal_send (.inr ‹_›))
  split
  · exact decodePlain_isOk_iff.trans (legal_plain (.inr ‹_›)).symm
  split
  · subst_vars; exact (map_isOk_iff _ _).trans (decodeFmt_isOk_iff.trans legal_dtmfDecode.symm)
  · have reserved : op = 0 ∨ 10 ≤ op.toNat := by bv_omega
    exact iff_of_false (by simp) (not_not_intro (reserved.imp_right .inl))

/-- A header that R87 does not call illegal, with its payload, is a command of its fields. -/
theorem decodeWords_legal (ch : ChIx) (rest : List Byte) (len : p.length = payloadLen op arg)
    (legal : ¬IllegalHeader op arg x) :
    ∃ i : Instr, i.op = op ∧ i.ch = ch ∧ i.payload = p ∧
      decodeWords (headerWord op ch arg) x (p ++ rest) = .instr i rest := by
  obtain ⟨i, ok⟩ := decodeCommand_isOk_iff (ch := ch) (p := p) |>.mpr legal
  rcases decodeWords_whole ch x rest len with ⟨j, ok', h⟩ | ⟨why, error, -⟩
  · obtain ⟨hop, hch, -, -, hp, -⟩ := decodeCommand_ok len ok'
    exact ⟨j, hop, hch, hp, h⟩
  · rw [ok] at error; cases error

/-- A header that R87 calls illegal, with its payload, is an illegal command. -/
theorem decodeWords_illegal (ch : ChIx) (rest : List Byte) (len : p.length = payloadLen op arg)
    (illegal : IllegalHeader op arg x) :
    ∃ why, decodeWords (headerWord op ch arg) x (p ++ rest) = .illegal why op ch rest := by
  rcases decodeWords_whole ch x rest len with ⟨i, ok, -⟩ | ⟨why, -, h⟩
  · exact absurd illegal (decodeCommand_isOk_iff.mp ⟨i, ok⟩)
  · exact ⟨why, h⟩

/-! ### The opcode table -/

/-- The opcode a row fixes (R83). -/
def OpRow.opcode (r : OpRow) : BitVec 4 := headerOp r.match0

/-- The bits of `arg` a row fixes, all to zero (R83). -/
def OpRow.argMask (r : OpRow) : BitVec 16 := headerArg r.mask0

/-- Every row fixes the opcode, no bit of `ch`, and some bits of `arg` and of `x` to zero. -/
theorem OpRow.shape : ∀ row ∈ opcodeRows,
    row.match0 = headerWord row.opcode 0 0 ∧ row.mask0 = headerWord 0xF 0 row.argMask ∧ row.match1 = 0 := by decide

/-- A command bears a row's mnemonic exactly when it has the row's opcode. -/
theorem Instr.mnemonic_eq_iff (i : Instr) : ∀ row ∈ opcodeRows, i.mnemonic = row.mnemonic ↔ i.op = row.opcode := by
  cases i <;> simp only [Instr.mnemonic, Instr.op] <;> decide

/-- Header words are equal when their fields are. -/
theorem headerWord_eq_iff {o o' : BitVec 4} {c c' : ChIx} {a a' : BitVec 16} :
    headerWord o c a = headerWord o' c' a' ↔ o = o' ∧ c = c' ∧ a = a' := by
  refine ⟨fun h => ?_, by rintro ⟨rfl, rfl, rfl⟩; rfl⟩
  have op := congrArg headerOp h
  have ch := congrArg headerCh h
  have arg := congrArg headerArg h
  simp only [headerOp_headerWord, headerCh_headerWord, headerArg_headerWord] at op ch arg
  exact ⟨op, ch, arg⟩

/-- A header fits a row when it has the row's opcode and the fixed bits of `arg` and `x` are zero. -/
theorem OpRow.fits_iff {row : OpRow} (hr : row ∈ opcodeRows) : row.fits w0 w1 = true ↔
    headerOp w0 = row.opcode ∧ headerArg w0 &&& row.argMask = 0 ∧ w1 &&& row.mask1 = 0 := by
  obtain ⟨match0, mask0, match1⟩ := OpRow.shape row hr
  have word0 : w0 &&& row.mask0 = row.match0 ↔ headerOp w0 = row.opcode ∧ headerArg w0 &&& row.argMask = 0 := by
    have op : headerOp w0 &&& 0xF = headerOp w0 := BitVec.and_allOnes
    have masked := headerWord_and (headerOp w0) (headerCh w0) (headerArg w0) 0xF row.argMask
    rw [headerWord_fields, op] at masked
    rw [mask0, match0, masked, headerWord_eq_iff]
    simp
  simp only [OpRow.fits, Bool.and_eq_true, beq_iff_eq, word0, match1, and_assoc]

/-- On a row's opcode R87 asks for the zero bits of the row, for CH_SET's selectors and against format 3. -/
theorem OpRow.legal_iff {row : OpRow} (hr : row ∈ opcodeRows) : ¬IllegalHeader row.opcode arg x ↔
    (arg &&& row.argMask = 0 ∧ x &&& row.mask1 = 0) ∧
      (row.mnemonic = "CH_SET" →
        (arg.toNat ≤ 3 ∧ x.toNat < 2) ∨ arg.toNat = 4 ∨ (arg.toNat = 5 ∧ x.toNat < 65536)) ∧
      (row.mnemonic = "DTMF_DECODE" → x.toNat ≠ 3) := by
  have law : arg &&& 0xFFFE#16 = 0#16 ↔ arg.toNat < 2 := and_high_eq_zero_iff arg 1
  have selector : arg &&& 0xFFF0#16 = 0#16 ↔ arg.toNat < 16 := and_high_eq_zero_iff arg 4
  have fmt : x &&& 0xFFFFFFFC#32 = 0#32 ↔ x.toNat < 4 := and_high_eq_zero_iff x 2
  have allArg : arg &&& 0xFFFF#16 = arg := BitVec.and_allOnes
  have allX : x &&& 0xFFFFFFFF#32 = x := BitVec.and_allOnes
  simp only [opcodeRows, List.cons_append, List.nil_append, List.mem_cons, List.not_mem_nil, or_false] at hr
  rcases hr with rfl | rfl | rfl | rfl | rfl | rfl | rfl | rfl | rfl
  · refine legal_chInit.trans ?_
    simp [OpRow.argMask, headerArg, law, allX]
  · refine legal_chSet.trans ?_
    simp only [OpRow.argMask, headerArg, BitVec.reduceExtractLsb', BitVec.ofNat_eq_ofNat, selector, BitVec.and_zero,
      and_true, forall_const, String.reduceEq, IsEmpty.forall_iff]
    omega
  · refine (legal_plain (.inl rfl)).trans ?_
    simp [OpRow.argMask, headerArg, allArg, allX]
  · refine (legal_frame (.inl rfl)).trans ?_
    simp [OpRow.argMask, headerArg, allX]
  · refine (legal_frame (.inr rfl)).trans ?_
    simp [OpRow.argMask, headerArg, allX]
  · refine iff_of_true (legal_send (.inl rfl)) ?_
    simp [OpRow.argMask, headerArg]
  · refine iff_of_true (legal_send (.inr rfl)) ?_
    simp [OpRow.argMask, headerArg]
  · refine (legal_plain (.inr rfl)).trans ?_
    simp [OpRow.argMask, headerArg, allArg, allX]
  · refine legal_dtmfDecode.trans ?_
    simp only [OpRow.argMask, headerArg, BitVec.reduceExtractLsb', BitVec.ofNat_eq_ofNat, fmt, BitVec.and_zero,
      true_and, forall_const, String.reduceEq, IsEmpty.forall_iff]
    omega

/-- A header pair with its payload is a command of a row exactly when it has the row's opcode and R87 does not call it
illegal. -/
theorem decodeWords_row_iff {row : OpRow} (hr : row ∈ opcodeRows)
    (whole : payloadLen (headerOp w0) (headerArg w0) ≤ l.length) :
    (∃ i rest, decodeWords w0 x l = .instr i rest ∧ i.mnemonic = row.mnemonic) ↔
      headerOp w0 = row.opcode ∧ ¬IllegalHeader row.opcode (headerArg w0) x := by
  constructor
  · rintro ⟨i, rest, h, name⟩
    obtain ⟨-, rfl, rfl, -⟩ := decodeWords_instr h
    have legal := decodeCommand_isOk_iff.mp ⟨i, decodeCommand_self i⟩
    rw [i.headerOp_word0, i.headerArg_word0, ← (i.mnemonic_eq_iff row hr).mp name]
    exact ⟨rfl, legal⟩
  · rintro ⟨hop, legal⟩
    have complete : decodeWords w0 x l ≠ .incomplete := fun h =>
      absurd (decodeWords_incomplete_iff.mp h) (Nat.not_lt.mpr whole)
    obtain ⟨op, ch, arg, p, rest, rfl, rfl, len⟩ := exists_whole complete
    rw [headerOp_headerWord] at hop
    rw [headerArg_headerWord, ← hop] at legal
    obtain ⟨i, iop, -, -, h⟩ := decodeWords_legal ch rest len legal
    exact ⟨i, rest, h, (i.mnemonic_eq_iff row hr).mpr (iop.trans hop)⟩

end Sys2Proof

namespace Sys2Proof.Machine

variable {s t : State} {i : Instr} {ch : ChIx} {r : Response}

/-! ### Bytes, words and commands -/

/-- Settles O2: `decode_encode`, which holds as the fields of a command decode to it (`decodeCommand_self`). -/
theorem decodeEncodeRoundTrip : Obligations.DecodeEncodeRoundTrip := fun _ wf rest => decode_encode wf rest

/-- Settles O3: the header words of a decoded command are the two words read. -/
theorem legalBytesAreTheEncoding : Obligations.LegalBytesAreTheEncoding := by
  intro bytes rest i h
  rcases decode_cases bytes with ⟨-, short⟩ | ⟨w0, w1, l, rfl, words⟩
  · rw [short] at h; cases h
  · obtain ⟨wf, rfl, rfl, rfl⟩ := decodeWords_instr (words.symm.trans h)
    exact ⟨wf, by rw [encode]; simp only [List.append_assoc]⟩

/-- Settles O1: each stream evaluates. -/
theorem writtenWordsDecode : Obligations.WrittenWordsDecode := by
  unfold Obligations.WrittenWordsDecode
  decide

/-- Settles O4: the opcode of the row, and R87 on that opcode in the row's masks. -/
theorem opcodeRowsGovernDecoding : Obligations.OpcodeRowsGovernDecoding := by
  intro w0 w1 bytes whole row hr
  rw [decodeWords_row_iff hr whole, OpRow.fits_iff hr, OpRow.legal_iff hr]
  simp only [and_assoc]

/-! ### Steps on headers -/

/-- A step on an illegal command consumes it and answers `InvalidArgument` (R87). -/
theorem step_of_illegal {why : Illegal} {op : BitVec 4} {rest : List Byte}
    (h : decode s.input = .illegal why op ch rest) :
    step s = .next ((s.consumed rest).raise op ch .invalidArgument) := by
  simp only [step, State.fetched, h]

/-- A step waits on a stream that holds no whole command (R93, R300). -/
theorem step_of_incomplete (h : decode s.input = .incomplete) : step s = .next s := by
  simp only [step, State.fetched, h]

/-- Settles O5: R87's condition decides between `decodeWords_illegal` and `decodeWords_legal`. -/
theorem illegalHeadersAreRefused : Obligations.IllegalHeadersAreRefused := by
  intro s op ch arg x payload rest input len
  have read : decode s.input = decodeWords (headerWord op ch arg) x (payload ++ rest) := by
    rw [input, List.append_assoc, decode_words]
  refine ⟨fun illegal => ?_, fun legal => ?_⟩
  · obtain ⟨why, h⟩ := decodeWords_illegal ch rest len illegal
    exact step_of_illegal (read.trans h)
  · obtain ⟨i, hop, hch, hp, h⟩ := decodeWords_legal ch rest len legal
    exact ⟨i, hop, hch, hp, read.trans h⟩

/-- A stream shorter than a header is incomplete. -/
theorem decode_of_length_lt {bytes : List Byte} (short : bytes.length < 8) : decode bytes = .incomplete := by
  rcases decode_cases bytes with ⟨-, h⟩ | ⟨w0, w1, l, rfl, -⟩
  · exact h
  · simp only [bytesOfWord, List.cons_append, List.nil_append, List.length_cons] at short
    omega

/-- A well-formed command cut short is incomplete: with its header there it announces the whole payload. -/
theorem decode_of_cut_short {bytes more : List Byte} (wf : i.WellFormed) (proper : more ≠ [])
    (h : encode i = bytes ++ more) : decode bytes = .incomplete := by
  rcases decode_cases bytes with ⟨-, short⟩ | ⟨w0, w1, l, rfl, read⟩
  · exact short
  · have whole : decodeWords w0 w1 (l ++ more) = .instr i [] := by
      rw [← decode_words, ← List.append_assoc, ← h, ← decode_encode wf [], List.append_nil]
    obtain ⟨-, rfl, rfl, payload⟩ := decodeWords_instr whole
    rw [List.append_nil] at payload
    rw [read, decodeWords_incomplete_iff, i.headerOp_word0, i.headerArg_word0, i.payloadLen_eq wf, ← payload,
      List.length_append]
    exact Nat.lt_add_of_pos_right (List.length_pos_iff.mpr proper)

/-- Settles O7: a step waits exactly on the streams the decoder calls incomplete. -/
theorem stepWaitsForWholeCommand : Obligations.StepWaitsForWholeCommand := by
  refine fun s => ⟨fun short => step_of_incomplete (decode_of_length_lt short), fun w0 w1 bytes input => ?_,
    fun i more wf proper h => step_of_incomplete (decode_of_cut_short wf proper h)⟩
  have read : decode s.input = .incomplete ↔ bytes.length < payloadLen (headerOp w0) (headerArg w0) := by
    rw [input, decode_words, decodeWords_incomplete_iff]
  exact ⟨fun short => step_of_incomplete (read.mpr short), fun enough wait => Nat.not_lt.mpr enough (read.mp wait)⟩

/-! ### The response of a command -/

/-- The responses a command can give (R88, R89, R271): a refusal, a plain OK (never of SEND or SEND_TONE), or its own. -/
inductive Reply : Instr → Response → Prop
  | refused (i : Instr) : Reply i (Response.raised i.op i.ch .invalidArgument)
  | okay (i : Instr) (untagged : decide (i.op = opSend ∨ i.op = opSendTone) = false) :
      Reply i (Response.okay i.op i.ch)
  | dropped (ch : ChIx) (frame : List Byte) : Reply (.receive ch frame) (Response.dropped ch)
  | truncated (ch : ChIx) (frame : List Byte) : Reply (.transmit ch frame) (Response.truncated ch)
  | sent (ch : ChIx) (len : BitVec 16) (tag : Word) (out : List Byte) :
      Reply (.send ch len tag) (Response.frame opSend ch tag out)
  | toned (ch : ChIx) (tag : Word) (tone : List Byte) :
      Reply (.sendTone ch tag tone) (Response.frame opSendTone ch tag tone)
  | digits (ch : ChIx) (fmt : Fmt) (bytes digits : List Byte) (warn : Bool) :
      Reply (.dtmfDecode ch fmt bytes) (Response.digits ch digits warn)
  | reconfigured (ch : ChIx) (raised : Option Status) (evs : List Event) (h : Raisable raised) :
      Reply (.reconfigure ch) (Response.reconfigured ch (raised.getD .ok) evs)

/-- What RECEIVE answers a conference member. -/
theorem receiveMember_reply (s : State) (ch : ChIx) (k : Conf) (frame : List Byte) :
    ∃ r, Reply (.receive ch frame) r ∧ Answered s (receiveMember s ch k frame) r := by
  simp only [receiveMember]
  split
  · exact ⟨_, .dropped ch frame, rfl⟩
  · exact ⟨_, .okay (.receive ch frame) rfl, rfl⟩

/-- Every command that completes adds one of its replies. -/
theorem exec_reply (h : exec i s = .next t) : ∃ r, Reply i r ∧ Answered s t r := by
  cases i with
  | chInit ch law =>
    simp only [exec, execChInit] at h
    split at h
    · cases h; exact ⟨_, .refused (.chInit ch law), rfl⟩
    split at h <;> cases h
    · exact ⟨_, .refused (.chInit ch law), rfl⟩
    · exact ⟨_, .okay (.chInit ch law) rfl, rfl⟩
  | chSet ch st =>
    simp only [exec, execChSet] at h
    split at h <;> cases h
    · exact ⟨_, .okay (.chSet ch st) rfl, rfl⟩
    · exact ⟨_, .refused (.chSet ch st), rfl⟩
  | reconfigure ch =>
    simp only [exec, execReconfigure] at h
    split at h
    · split at h <;> cases h
      obtain ⟨kept, raised⟩ := reconfigure_kept ‹_›
      exact ⟨_, .reconfigured ch _ _ raised, by rw [Answered, State.respond_responses, kept.responses]⟩
    · cases h; exact ⟨_, .refused (.reconfigure ch), rfl⟩
  | receive ch frame =>
    simp only [exec, execReceive] at h
    split at h
    · split at h
      · cases h; exact ⟨_, .refused (.receive ch frame), rfl⟩
      split at h
      · cases h; exact ⟨_, .dropped ch frame, rfl⟩
      split at h
      · cases h; exact ⟨_, .okay (.receive ch frame) rfl, rfl⟩
      split at h <;> cases h
      exact receiveMember_reply s ch _ frame
    · cases h; exact ⟨_, .refused (.receive ch frame), rfl⟩
  | transmit ch frame =>
    simp only [exec, execTransmit] at h
    split at h
    · split at h
      · cases h; exact ⟨_, .refused (.transmit ch frame), rfl⟩
      split at h <;> cases h
      · exact ⟨_, .truncated ch frame, rfl⟩
      · exact ⟨_, .okay (.transmit ch frame) rfl, rfl⟩
    · cases h; exact ⟨_, .refused (.transmit ch frame), rfl⟩
  | send ch len tag =>
    simp only [exec, execSend] at h
    split at h
    · split at h
      · cases h; exact ⟨_, .refused (.send ch len tag), rfl⟩
      split at h
      · cases h
      split at h <;> cases h
      exact ⟨_, .sent ch len tag _, rfl⟩
    · cases h; exact ⟨_, .refused (.send ch len tag), rfl⟩
  | sendTone ch tag tone =>
    simp only [exec, execSendTone] at h
    split at h
    · split at h
      · cases h; exact ⟨_, .refused (.sendTone ch tag tone), rfl⟩
      split at h <;> cases h
      exact ⟨_, .toned ch tag tone, rfl⟩
    · cases h; exact ⟨_, .refused (.sendTone ch tag tone), rfl⟩
  | dtmfInit ch =>
    simp only [exec, execDtmfInit] at h
    split at h <;> cases h
    · exact ⟨_, .okay (.dtmfInit ch) rfl, rfl⟩
    · exact ⟨_, .refused (.dtmfInit ch), rfl⟩
  | dtmfDecode ch fmt bytes =>
    simp only [exec, execDtmfDecode] at h
    split at h <;> cases h
    · exact ⟨_, .digits ch fmt bytes _ _, rfl⟩
    · exact ⟨_, .refused (.dtmfDecode ch fmt bytes), rfl⟩

/-- A reply copies the command's `op` and `ch` (R88). -/
theorem Reply.copies (h : Reply i r) : r.op = i.op ∧ r.ch = i.ch := by
  cases h <;> exact ⟨rfl, rfl⟩

/-- Only an OK reply to SEND or SEND_TONE is tagged (R88). -/
theorem Reply.tag (h : Reply i r) : r.tag = if (i.op = 6 ∨ i.op = 7) ∧ r.status = .ok then i.x else 0 := by
  cases h with
  | refused => exact (if_neg fun both => Status.noConfusion both.2).symm
  | okay i untagged => exact (if_neg fun both => of_decide_eq_false untagged both.1).symm
  | sent | toned => rfl
  | dropped | truncated | digits | reconfigured => rfl

/-- Only an OK reply to SEND, SEND_TONE or DTMF_DECODE has a payload (R88). -/
theorem Reply.payload (h : Reply i r) (nonempty : r.payload ≠ []) : (i.op = 6 ∨ i.op = 7 ∨ i.op = 9) ∧ r.status = .ok := by
  cases h with
  | sent => exact ⟨.inl rfl, rfl⟩
  | toned => exact ⟨.inr (.inl rfl), rfl⟩
  | digits => exact ⟨.inr (.inr rfl), rfl⟩
  | refused | okay | dropped | truncated | reconfigured => exact absurd rfl nonempty

/-- Only a reply to RECONFIGURE has events (R90). -/
theorem Reply.events (h : Reply i r) (nonempty : r.events ≠ []) : i.op = 3 := by
  cases h with
  | reconfigured => rfl
  | _ => exact absurd rfl nonempty

/-- Settles O8: `exec_reply` for a legal command; an illegal one is raised with the fields of its header. -/
theorem oneResponsePerCommand : Obligations.OneResponsePerCommand := by
  refine ⟨fun i s t h => ?_, fun s t w0 w1 bytes input whole h => ?_⟩
  · obtain ⟨r, reply, answered⟩ := exec_reply h
    exact ⟨r, answered, reply.copies.1, reply.copies.2, reply.tag, reply.payload, reply.events⟩
  · have read : decode s.input = decodeWords w0 w1 bytes := by rw [input, decode_words]
    rw [read] at whole
    obtain ⟨op, ch, arg, p, rest, rfl, rfl, len⟩ := exists_whole whole
    have hop : (headerWord op ch arg).extractLsb' 28 4 = op := headerOp_headerWord op ch arg
    have hch : (headerWord op ch arg).extractLsb' 16 12 = ch := headerCh_headerWord op ch arg
    rw [hop, hch]
    rcases decodeWords_whole ch w1 rest len with ⟨i, ok, legal⟩ | ⟨why, -, illegal⟩
    · have decoded := read.trans legal
      rw [step_of_decode decoded] at h
      obtain ⟨r, reply, answered⟩ := exec_reply h
      obtain ⟨iop, ich, -⟩ := decodeCommand_ok len ok
      exact ⟨r, answered, reply.copies.1.trans iop, reply.copies.2.trans ich, fun illegal =>
        absurd decoded (illegal i rest)⟩
    · rw [step_of_illegal (read.trans illegal)] at h
      cases h
      exact ⟨_, rfl, rfl, rfl, fun _ => ⟨rfl, rfl, rfl, rfl⟩⟩

/-- RECONFIGURE is never busy. -/
theorem Raisable.ne_busy {raised : Option Status} (h : Raisable raised) : raised.getD .ok ≠ .busy := by
  rcases h with rfl | rfl | rfl | rfl | rfl <;> decide

/-- Busy, and its flags, are RECEIVE's and TRANSMIT's; the overflow warning comes with digits (R89). -/
theorem Reply.flags (h : Reply i r) :
    (r.drop = true ↔ i.op = 4 ∧ r.status = .busy) ∧ (r.trunc = true ↔ i.op = 5 ∧ r.status = .busy) ∧
      (r.ovfWarn = true → i.op = 9 ∧ r.status = .ok) ∧ (r.status = .busy → i.op = 4 ∨ i.op = 5) := by
  cases h with
  | dropped => simp [Response.dropped, Response.raised, Instr.op, opReceive]
  | truncated => simp [Response.truncated, Response.raised, Instr.op, opTransmit]
  | digits => simp [Response.digits, Response.okay, Response.raised, Instr.op, opDtmfDecode]
  | reconfigured _ _ _ raisable => simp [Response.reconfigured, Response.raised, raisable.ne_busy]
  | refused => simp [Response.raised]
  | okay => simp [Response.okay, Response.raised]
  | sent | toned => simp [Response.frame, Response.okay, Response.raised]

/-- A command adds one response only. -/
theorem Answered.unique {q : Response} (h : Answered s t r) (h' : Answered s t q) : r = q :=
  List.singleton_inj.mp (List.append_cancel_left (h.symm.trans h'))

/-- Settles O9: the one response is a reply. -/
theorem flagsAccompanyBusy : Obligations.FlagsAccompanyBusy := by
  intro i s t r h answered
  obtain ⟨q, reply, answered'⟩ := exec_reply h
  rw [answered.unique answered']
  exact reply.flags

/-! ### CH_SET -/

/-- Settles O18: `Channel.apply` writes the one field that the setting names. -/
theorem chSetResult : Obligations.ChSetResult := by
  intro s ch st size hch valid
  have completes : exec (.chSet ch st) s = .next ((s.setSlot ch ((s.slot ch).apply st)).okay opChSet ch) :=
    if_pos (State.usable_iff.mpr ⟨hch, valid⟩)
  refine ⟨_, completes, rfl, .of_setSlot _ _ _ _, .of_setSlot _ _ _ _, ?_⟩
  have slot : ((s.setSlot ch ((s.slot ch).apply st)).okay opChSet ch).slot ch = (s.slot ch).apply st :=
    State.slot_setSlot_same (size.symm ▸ hch)
  rw [slot]
  cases st <;> rfl

end Sys2Proof.Machine
end

section
/-! Ring indices (40_ring_companding.md R100 to R103): `adv` and `ringDist` as residues, `adv` as a mask, the two distances
around the ring, and `ahead`, `behind` and `later` in terms of the distance. -/

namespace Sys2Proof.Machine

/-! ### Advancing (R100) -/

/-- The result differs from the sum by whole laps. -/
theorem adv_congr {S : Nat} (hS : 0 < S) (i : Nat) (n : Int) : ((adv S i n : Int) - (i + n)) % S = 0 := by
  rw [← Int.emod_eq_emod_iff_emod_sub_eq_zero, adv_cast hS, Int.emod_emod]

/-- A two's-complement word of at least `k` bits keeps the residue mod `2 ^ k`. -/
theorem toNat_ofInt_mod_two_pow {k w : Nat} (hk : k ≤ w) (z : Int) :
    (BitVec.ofInt w z).toNat % 2 ^ k = (z % (2 ^ k : Nat)).toNat := by
  have dvd : ((2 ^ k : Nat) : Int) ∣ (2 ^ w : Nat) := Int.natCast_dvd_natCast.mpr (Nat.pow_dvd_pow 2 hk)
  have pos : (0 : Int) < (2 ^ w : Nat) := by exact_mod_cast Nat.two_pow_pos w
  apply Int.natCast_inj.mp
  rw [Int.toNat_of_nonneg (Int.emod_nonneg _ (by exact_mod_cast (Nat.two_pow_pos k).ne')), Int.natCast_emod,
    BitVec.toNat_ofInt, Int.toNat_of_nonneg (Int.emod_nonneg _ pos.ne'), Int.emod_emod_of_dvd z dvd]

/-- In a ring of `2 ^ k` places `adv` masks the two's-complement sum by `BUFF_MASK`. -/
theorem adv_eq_mask {k w : Nat} (hk : k ≤ w) (i : Nat) (n : Int) :
    adv (2 ^ k) i n = (BitVec.ofInt w ((i : Int) + n) &&& BitVec.ofNat w (2 ^ k - 1)).toNat := by
  have mask : 2 ^ k - 1 < 2 ^ w :=
    (Nat.sub_one_lt (Nat.two_pow_pos k).ne').trans_le (Nat.pow_le_pow_right (by decide) hk)
  rw [BitVec.toNat_and, BitVec.toNat_ofNat, Nat.mod_eq_of_lt mask, Nat.and_two_pow_sub_one_eq_mod,
    toNat_ofInt_mod_two_pow hk, adv]

/-- A whole lap comes back. -/
theorem adv_lap {S i : Nat} (hi : i < S) : adv S i S = i := by
  rw [adv_nat hi le_rfl, if_neg (by omega), Nat.add_sub_cancel]

/-- One step up from the last index is the first. -/
theorem adv_last_one {S : Nat} (hS : 0 < S) : adv S (S - 1) 1 = 0 := by
  have h := adv_nat (i := S - 1) (n := 1) (by omega) hS
  rw [if_neg (by omega)] at h
  exact h.trans (by omega)

/-- One step down from the first index is the last. -/
theorem adv_first_neg_one {S : Nat} (hS : 0 < S) : adv S 0 (-1) = S - 1 := by
  have h := adv_neg (i := 0) (n := 1) hS hS
  rw [if_neg (by omega), Nat.zero_add] at h
  exact h

/-- Settles O11: `adv` is a residue, which a power of two turns into a mask. -/
theorem advanceLaws : Obligations.AdvanceLaws := by
  intro S i hi
  have hS : 0 < S := by omega
  refine ⟨fun n => ⟨adv_lt hS i n, adv_congr hS i n⟩, adv_zero hi, adv_lap hi, adv_last_one hS, adv_first_neg_one hS,
    adv_adv hS i, ?_⟩
  rintro w k n rfl hk
  exact adv_eq_mask hk i n

/-! ### Distance (R101) -/

/-- The distance differs from the difference by whole laps. -/
theorem dist_congr {S : Nat} (hS : 0 < S) (a b : Nat) : ((ringDist S a b : Int) - ((a : Int) - b)) % S = 0 := by
  rw [← Int.emod_eq_emod_iff_emod_sub_eq_zero, dist_cast hS, Int.emod_emod]

/-- The ways from one index to another and back make one lap. -/
theorem dist_add_dist {S a b : Nat} (ha : a < S) (hb : b < S) (hab : a ≠ b) : ringDist S a b + ringDist S b a = S := by
  rw [dist_nat ha hb, dist_nat hb ha]
  split_ifs <;> omega

/-- The distance from `b` to `a` is the number of steps that take `b` to `a`. -/
theorem adv_dist {S a b : Nat} (ha : a < S) (hb : b < S) : adv S b (ringDist S a b) = a := by
  rw [adv_nat hb (dist_lt (by omega) a b).le, dist_nat ha hb]
  split_ifs <;> omega

/-- Settles O12: `ringDist` is a residue, and advancing by it closes the distance. -/
theorem distanceLaws : Obligations.DistanceLaws := by
  intro S a b ha hb
  have hS : 0 < S := by omega
  exact ⟨dist_lt hS a b, dist_congr hS a b, (dist_eq_zero ha ha).mpr rfl, dist_add_dist ha hb, adv_dist ha hb⟩

/-! ### Ordering (R102, R103) -/

theorem ahead_iff {S a b : Nat} : ahead S a b = true ↔ ringDist S a b < S / 2 := decide_eq_true_iff

theorem not_ahead_iff {S a b : Nat} : ahead S a b = false ↔ S / 2 ≤ ringDist S a b :=
  decide_eq_false_iff_not.trans Nat.not_lt

theorem behind_iff {S a b : Nat} : behind S a b = true ↔ S / 2 ≤ ringDist S a b := by
  rw [behind, Bool.not_eq_true', not_ahead_iff]

/-- Off the tie one of two indices is ahead of the other: the two distances make one lap. -/
theorem ahead_iff_not_ahead {S a b : Nat} (even : S % 2 = 0) (ha : a < S) (hb : b < S) (hab : a ≠ b)
    (offTie : ringDist S a b ≠ S / 2) : ahead S a b = true ↔ ahead S b a = false := by
  have lap := dist_add_dist ha hb hab
  rw [ahead_iff, not_ahead_iff]
  omega

/-- At the tie neither index is ahead: the way back is half a ring too. -/
theorem not_ahead_of_tie {S a b : Nat} (even : S % 2 = 0) (ha : a < S) (hb : b < S) (tie : ringDist S a b = S / 2) :
    ahead S a b = false ∧ ahead S b a = false := by
  have hab : a ≠ b := by
    rintro rfl
    rw [(dist_eq_zero ha ha).mpr rfl] at tie
    omega
  have lap := dist_add_dist ha hb hab
  rw [not_ahead_iff, not_ahead_iff]
  omega

/-- Settles O13: `ahead` compares the distance with half a ring, and the two distances make one lap. -/
theorem orderingLaws : Obligations.OrderingLaws := by
  intro S a b hS even ha hb
  have self : ahead S a a = true := ahead_iff.mpr (by rw [(dist_eq_zero ha ha).mpr rfl]; omega)
  exact ⟨ahead_iff, self, ahead_iff_not_ahead even ha hb, not_ahead_of_tie even ha hb, behind_iff,
    fun h => if_pos h, fun h => if_neg (ne_true_of_eq_false h)⟩

end Sys2Proof.Machine
end

section
/-! Registry membership (41_registry_membership.md): joining a record that exists (R124, R125), the refusal of a join for
which there is no room (R124, R158), and leaving one (R126, R123), alone or in a move whose join then fails (R158). -/

namespace Sys2Proof.Machine

variable {s t : State} {ch : ChIx} {k q : Conf} {evs : List Event} {raised : Option Status}

/-! ### The registry after a record is replaced or deleted -/

theorem OtherConfsKept.of_replaced (h : t.confs = replaced s.confs q) (hid : q.id = k.id) : OtherConfsKept s t k.id := by
  rw [OtherConfsKept, h, ← hid]
  exact filter_replaced s.confs q

/-- The new record is found under the id it shares with the one it replaces. -/
theorem find_of_replaced (inv : s.Inv) (hk : k ∈ s.confs) (h : t.confs = replaced s.confs q) (hid : q.id = k.id) :
    t.find k.id = some q := by
  have replaces : t.find k.id = (s.setConf q).find k.id := congrArg (List.find? _) h
  rw [replaces, State.find_setConf, if_pos hid.symm, State.find_mem inv.ids hk]
  rfl

theorem OtherConfsKept.of_deleted (h : t.confs = s.confs.filter fun o => o.id ≠ k.id) : OtherConfsKept s t k.id := by
  simp [OtherConfsKept, h]

theorem find_of_deleted (h : t.confs = s.confs.filter fun o => o.id ≠ k.id) : t.find k.id = none := by
  simp [State.find, h]

/-- Another id finds the record it found before. -/
theorem OtherConfsKept.find_eq {id c : ConfId} (h : OtherConfsKept s t c) (other : id ≠ c) : t.find id = s.find id := by
  have through : ∀ u : State, u.find id = (u.confs.filter fun o => o.id ≠ c).find? fun o => o.id == id := fun u => by
    rw [List.find?_filter, State.find]
    congr 1
    funext o
    by_cases same : o.id = id <;> simp [same, other]
  rw [through t, through s, h]

/-! ### Joining -/

/-- A join on `id` has no room: the record would have to be made and the registry is full (R122), or it has `MAX_MEMBERS`
members (R124). -/
def NoRoom (s : State) (id : ConfId) : Prop :=
  (s.find id = none ∧ s.confs.length = s.cfg.nConf) ∨ ∃ k, s.find id = some k ∧ k.members.length = s.cfg.maxMembers

/-- A join half without room raises `ResourceExhausted` before it writes anything (R158). -/
theorem joinPart_of_noRoom {id : ConfId} (asks : id ≠ 0) (outside : (s.slot ch).conference = none) (h : NoRoom s id) :
    joinPart s ch id = .ok ⟨s, [], some .resourceExhausted⟩ := by
  rcases h with ⟨absent, full⟩ | ⟨k, found, full⟩
  · have refused : create s id = .error .resourceExhausted := by
      rw [create, if_neg asks]
      simp [absent, full]
    simp [joinPart, findOrCreate, absent, refused]
  · simp [joinPart, findOrCreate, addMember, found, outside, full]

/-- Settles O22: the join half on a record with `MAX_MEMBERS` members. -/
theorem fullConferenceRefusesJoin : Obligations.FullConferenceRefusesJoin := by
  intro s ch k inv hch valid outside active hk hid full
  have usable : s.usable ch = true := State.usable_iff.mpr ⟨hch, valid⟩
  have asks : (s.slot ch).confId ≠ 0 := hid ▸ (inv.confs k hk).idNonzero
  have want : (s.slot ch).want = some (s.slot ch).confId := if_pos ⟨active, asks⟩
  have noRoom : NoRoom s (s.slot ch).confId := .inr ⟨k, hid ▸ State.find_mem inv.ids hk, full⟩
  have run : reconfigure s ch (s.slot ch).want = .ok ⟨s, [], some .resourceExhausted⟩ := by
    rw [want, reconfigure_of_outside outside]
    exact joinPart_of_noRoom asks outside noRoom
  exact exec_reconfigure usable run

/-- Settles O20: the join half on a record with room. -/
theorem joinExistingConference : Obligations.JoinExistingConference := by
  intro s ch k inv hch valid outside active hk hid room
  have usable : s.usable ch = true := State.usable_iff.mpr ⟨hch, valid⟩
  have nonzero : k.id ≠ 0 := (inv.confs k hk).idNonzero
  have present : s.find k.id = some k := State.find_mem inv.ids hk
  have run : reconfigure s ch (s.slot ch).want = joinPart s ch k.id := by
    have want : (s.slot ch).want = some k.id := hid ▸ if_pos ⟨active, hid ▸ nonzero⟩
    rw [want, reconfigure_of_outside outside]
  rcases joinPart_ok inv hch valid outside nonzero with
    ⟨⟨absent, -⟩ | ⟨o, found, full⟩, -⟩ | ⟨o, t, evs, sol, hw, join, -, -, cfg, input, responses, chan, -, met | new⟩
  · exact absurd (present.symm.trans absent) (by simp)
  · obtain rfl := Option.some.inj (present.symm.trans found)
    exact absurd full room.ne
  · obtain ⟨found, -, confs, dispatched⟩ := met
    obtain rfl := Option.some.inj (present.symm.trans found)
    have slots := slot_of_chan (inv.chan_lt hch) chan
    refine ⟨_, evs, Mem.filled (silLaw s.cfg (s.slot ch).law), (k.joined ch).solved sol hw,
      exec_reconfigure usable (run.trans join), congrArg (· ++ _) responses, cfg, input,
      fun o other => (slots o).trans (if_neg other), OtherConfsKept.of_replaced confs rfl, (slots ch).trans (if_pos rfl),
      fun _ => rfl, find_of_replaced inv hk confs rfl, rfl, rfl, rfl, rfl, dispatched, fun two _ => ?_, fun notTwo => ?_⟩
    · simp [Conf.solved, Conf.joined, two]
    · simp [Conf.solved, Conf.joined, notTwo]
  · exact absurd (present.symm.trans new.1) (by simp)

/-! ### Leaving -/

/-- `t` is `s` after `ch` left its record `k`, with the events `evs` (R126, R123, R127): the record deleted if it is left
empty, else a dispatch's answer stored in it. -/
structure Left (s t : State) (ch : ChIx) (k : Conf) (evs : List Event) : Prop where
  cfg : t.cfg = s.cfg
  input : t.input = s.input
  responses : t.responses = s.responses
  otherSlots : OtherSlotsKept s t ch
  otherConfs : OtherConfsKept s t k.id
  slot : t.slot ch = { s.slot ch with conference := none }
  emptied : k.members = [ch] → t.find k.id = none ∧ evs = []
  remaining : k.members ≠ [ch] → ∃ sol hw,
    Dispatched s { k with members := k.members.filter (fun o => o ≠ ch) } k.members (.removed ch) sol hw evs ∧
    t.find k.id = some { k with members := k.members.filter (fun o => o ≠ ch), solution := sol, hwId := hw }
  count : k.members ≠ [ch] → t.confs.length = s.confs.length

/-- The leave half of a member leaves its record, and raises nothing. -/
theorem leavePart_left (inv : s.Inv) (hk : k ∈ s.confs) (listed : ch ∈ k.members) :
    ∃ t evs, leavePart s ch k = .ok ⟨t, evs, none⟩ ∧ Left s t ch k evs := by
  have others : k.members.erase ch = k.members.filter fun o => o ≠ ch := by
    rw [(inv.confs k hk).nodup.erase_eq_filter]
    exact List.filter_congr fun o _ => by by_cases same : o = ch <;> simp [same]
  obtain ⟨t, evs, run, -, cfg, input, responses, chan, deleted, rest⟩ := leavePart_ok inv hk listed
  rw [others] at rest
  have slots := slot_of_chan (inv.chan_lt (inv.listed k hk ch listed).1) chan
  have otherSlots : OtherSlotsKept s t ch := fun o other => (slots o).trans (if_neg other)
  have slot := (slots ch).trans (if_pos rfl)
  by_cases alone : k.members = [ch]
  · obtain ⟨rfl, confs⟩ := deleted alone
    exact ⟨t, [], run, cfg, input, responses, otherSlots, .of_deleted confs, slot, fun _ => ⟨find_of_deleted confs, rfl⟩,
      fun more => absurd alone more, fun more => absurd alone more⟩
  · obtain ⟨sol, hw, dispatched, confs⟩ := rest alone
    exact ⟨t, evs, run, cfg, input, responses, otherSlots, .of_replaced confs rfl, slot, fun one => absurd one alone,
      fun _ => ⟨sol, hw, dispatched, find_of_replaced inv hk confs rfl⟩,
      fun _ => (congrArg List.length confs).trans (List.length_map _)⟩

/-- A leave makes no room for a join on another id, unless it deletes a record that a full registry lacks. -/
theorem Left.noRoom {id : ConfId} (left : Left s t ch k evs) (other : id ≠ k.id)
    (h : (k.members ≠ [ch] ∧ s.find id = none ∧ s.confs.length = s.cfg.nConf) ∨
      ∃ o, s.find id = some o ∧ o.members.length = s.cfg.maxMembers) : NoRoom t id := by
  rw [NoRoom, left.otherConfs.find_eq other, left.cfg]
  rcases h with ⟨more, absent, full⟩ | crowded
  · exact .inl ⟨absent, (left.count more).trans full⟩
  · exact .inr crowded

/-- RECONFIGURE of a member that asks for something else is the leave half and then the join half (R156). -/
theorem reconfigure_of_left {want : Option ConfId} {p : Progress} (named : (s.slot ch).conference = some k.id)
    (found : s.find k.id = some k) (elsewhere : want ≠ some k.id) (leave : leavePart s ch k = .ok ⟨t, evs, none⟩)
    (join : reconfigureJoin t ch want = .ok p) :
    reconfigure s ch want = .ok ⟨p.state, evs ++ p.events, p.raised⟩ := by
  simp [reconfigure, reconfigureLeave, named, elsewhere, found, leave, join]

/-- RECONFIGURE of a member that asks for something else and whose join half writes nothing answers the leave's events. -/
theorem exec_reconfigure_left (inv : s.Inv) (hch : ch.toNat < s.cfg.nChan) (valid : (s.slot ch).valid = true)
    (hk : k ∈ s.confs) (named : (s.slot ch).conference = some k.id) (elsewhere : (s.slot ch).want ≠ some k.id)
    (stops : ∀ t evs, Left s t ch k evs → reconfigureJoin t ch (s.slot ch).want = .ok ⟨t, [], raised⟩) :
    ∃ t evs, Left s t ch k evs ∧
      exec (.reconfigure ch) s = .next (t.respond (Response.reconfigured ch (raised.getD .ok) evs)) := by
  obtain ⟨t, evs, leave, left⟩ := leavePart_left inv hk (inv.mem_of_named hch hk named)
  have run := reconfigure_of_left named (State.find_mem inv.ids hk) elsewhere leave (stops t evs left)
  rw [List.append_nil] at run
  exact ⟨t, evs, left, exec_reconfigure (State.usable_iff.mpr ⟨hch, valid⟩) run⟩

/-- Settles O23: the leave half, with nothing to join. -/
theorem leaveConference : Obligations.LeaveConference := by
  intro s ch k inv hch valid hk named asksNone
  have want : (s.slot ch).want = none := by rcases asksNone with h | h <;> simp [Channel.want, h]
  obtain ⟨t, evs, left, completes⟩ := exec_reconfigure_left (raised := none) inv hch valid hk named (by simp [want])
    fun t evs left => by simp [reconfigureJoin, left.slot, want]
  exact ⟨_, evs, completes, congrArg (· ++ _) left.responses, left.cfg, left.input, left.otherSlots, left.otherConfs,
    left.slot, left.emptied, left.remaining⟩

/-- Settles O24: the leave half, then a join half without room. -/
theorem failedMoveStillLeaves : Obligations.FailedMoveStillLeaves := by
  intro s ch k inv hch valid hk named active asks other full
  have want : (s.slot ch).want = some (s.slot ch).confId := if_pos ⟨active, asks⟩
  have noRoom : (k.members ≠ [ch] ∧ s.find (s.slot ch).confId = none ∧ s.confs.length = s.cfg.nConf) ∨
      ∃ o, s.find (s.slot ch).confId = some o ∧ o.members.length = s.cfg.maxMembers :=
    full.imp_right fun ⟨o, ho, hid, crowded⟩ => ⟨o, hid ▸ State.find_mem inv.ids ho, crowded⟩
  have refused : ∀ t evs, Left s t ch k evs →
      reconfigureJoin t ch (s.slot ch).want = .ok ⟨t, [], some .resourceExhausted⟩ := fun t evs left => by
    have outside : (t.slot ch).conference = none := by rw [left.slot]
    simp only [reconfigureJoin, outside, want]
    exact joinPart_of_noRoom asks outside (left.noRoom other noRoom)
  obtain ⟨t, evs, left, completes⟩ := exec_reconfigure_left inv hch valid hk named (by simp [want, other]) refused
  exact ⟨_, evs, completes, congrArg (· ++ _) left.responses, left.cfg, left.input, left.otherSlots, left.otherConfs,
    left.slot, left.emptied, left.remaining⟩

end Sys2Proof.Machine
end

section
/-! Reconfiguration (42_reconfigure.md): the classifier (R141 to R144), what a dispatch stores and emits (R149 to R155), the
completion of RECONFIGURE (R156 to R158), a run that changes no membership (R157 cases 4 and 5), and a second run (R159). -/

namespace Sys2Proof.Machine

variable {s t : State} {ch m0 : ChIx} {k : Conf} {h : HwId} {u : Nat} {rest : List ChIx}

/-! ### The classifier -/

/-- The three tests of R141 pass exactly when the members can all be on the hardware of the first one. -/
theorem onHardware_iff_tests (hm : k.members = m0 :: rest) :
    OnHardware s k (s.slot m0).hwId ↔
      (k.members.any fun x => (s.slot x).txMix) = false ∧ (k.members.any fun x => (s.slot x).hwId == 0) = false ∧
        (k.members.any fun x => (s.slot x).hwId != (s.slot m0).hwId) = false := by
  simp only [OnHardware, List.any_eq_false, Bool.not_eq_true, beq_iff_eq, bne_eq_false_iff_eq]
  constructor
  · rintro ⟨nonzero, same⟩
    exact ⟨fun x hx => (same x hx).1, fun x hx lacks => nonzero ((same x hx).2.symm.trans lacks), fun x hx => (same x hx).2⟩
  · rintro ⟨noMix, allHw, oneHw⟩
    exact ⟨allHw m0 (by simp [hm]), fun x hx => ⟨noMix x hx, oneHw x hx⟩⟩

/-- Members that can all be on one hardware id get a crossconnect if they are two, else what `pickUnit` finds (R142). -/
theorem classify_of_onHardware (two : 2 ≤ k.members.length) (on : OnHardware s k h) :
    classify s k = if k.members.length = 2 then .hwCrossconnect else pickUnit s k h := by
  match hm : k.members with
  | [] | [_] => simp [hm] at two
  | m0 :: m1 :: rest =>
    obtain rfl : (s.slot m0).hwId = h := (on.2 m0 (by simp [hm])).2
    obtain ⟨noMix, allHw, oneHw⟩ := (onHardware_iff_tests hm).mp on
    rw [hm] at noMix allHw oneHw
    simp only [classify, hm, noMix, allHw, oneHw, Bool.false_eq_true, if_false]

/-- Members that cannot, or fewer than two, are mixed in software (R141). -/
theorem classify_of_not_onHardware (no : ¬∃ g, 2 ≤ k.members.length ∧ OnHardware s k g) : classify s k = .software := by
  match hm : k.members with
  | [] | [_] => simp [classify, hm]
  | m0 :: m1 :: rest =>
    by_contra hard
    refine no ⟨_, by simp [hm], (onHardware_iff_tests hm).mpr ?_⟩
    simp only [classify, hm] at hard ⊢
    exact ⟨Bool.eq_false_iff.mpr fun mix => hard (by simp only [mix, if_true]),
      Bool.eq_false_iff.mpr fun noHw => hard (by simp only [noHw, if_true, ite_self]),
      Bool.eq_false_iff.mpr fun other => hard (by simp only [other, if_true, ite_self])⟩

/-- A record keeps its unit while no other record holds it (R143). -/
theorem pickUnit_of_current (unit : k.solution = .hwConference u) (here : k.hwId = h) (free : u ∉ claimed s k h) :
    pickUnit s k h = .hwConference u := by
  simp [pickUnit, unit, here, free]

/-- A record that has no unit there, or one that another record holds, gets the first free one (R143). -/
theorem pickUnit_of_no_current (lost : ∀ u, k.solution = .hwConference u → k.hwId = h → u ∈ claimed s k h) :
    pickUnit s k h = ((List.range' 1 8).find? fun u => u ∉ claimed s k h).elim .software .hwConference := by
  have search : pickUnit s k h =
      match (List.range' 1 8).find? fun u => u ∉ claimed s k h with
      | some u => .hwConference u
      | none => .software := by
    unfold pickUnit
    split
    · rename_i u unit
      exact if_neg fun ⟨here, free⟩ => free (lost u unit here)
    · rfl
  rw [search]
  cases (List.range' 1 8).find? fun u => u ∉ claimed s k h <;> rfl

/-- Settles O28: the classifier's two outcomes, then the two of the choice of a unit. -/
theorem classifierCases : Obligations.ClassifierCases := by
  intro s k h held onHardware
  have claims : ∀ u, u ∈ claimed s k h ↔ held u := fun u => mem_claimed
  refine ⟨classify_of_not_onHardware, fun ⟨two, on⟩ pair => ?_, fun ⟨two, on⟩ three => ?_⟩
  · rw [classify_of_onHardware two on, if_pos pair]
  · have choice : classify s k = pickUnit s k h := by rw [classify_of_onHardware two on, if_neg (by omega)]
    rw [choice]
    refine ⟨fun u unit here free => pickUnit_of_current unit here (mt (claims u).mp free), fun lost => ?_⟩
    rw [pickUnit_of_no_current fun u unit here => (claims u).mpr (lost u unit here)]
    refine ⟨fun u low high free below => ?_, fun full => ?_⟩
    · have first : ((List.range' 1 8).find? fun u => u ∉ claimed s k h) = some u := by
        simp only [List.find?_range'_eq_some, claims, List.mem_range'_1]
        exact ⟨by simpa using free, by omega, fun v hv hlt => by simpa using below v hv hlt⟩
      rw [first]; rfl
    · have noneFree : ((List.range' 1 8).find? fun u => u ∉ claimed s k h) = none := by
        simp only [List.find?_range'_eq_none, claims]
        exact fun v hv hlt => by simpa using full v hv (by omega)
      rw [noneFree]; rfl

/-- Settles O29: no one hardware id is both members'. -/
theorem mismatchedHardwareDemotes : Obligations.MismatchedHardwareDemotes := by
  intro s k x y hx hy differ
  refine classify_of_not_onHardware fun ⟨_, _, _, same⟩ => differ ?_
  rw [(same x hx).2, (same y hy).2]

/-! ### Dispatch -/

/-- Settles O30: a dispatch from a solution that fits the members before answers (R151), and has done what
`dispatch_cases` says. -/
theorem dispatchEvents : Obligations.DispatchEvents := by
  intro s k before change pair
  obtain ⟨evs, run⟩ := dispatch_ok pair
  exact ⟨_, _, _, evs, run, (dispatch_cases pair run).2, rfl⟩

/-! ### Completion -/

/-- Settles O19: what both halves come to, as one response. -/
theorem reconfigureCompletes : Obligations.ReconfigureCompletes := by
  intro s ch inv hch valid
  obtain ⟨p, run, part, outcome⟩ := reconfigure_ok inv hch valid
  refine ⟨_, p.raised.getD .ok, p.events, exec_reconfigure (State.usable_iff.mpr ⟨hch, valid⟩) run,
    congrArg (· ++ _) part.responses, ?_, part.cfg, part.input, part.others, part.slot⟩
  rcases outcome with ⟨raised, conference, -⟩ | ⟨raised, conference, -⟩
  · exact .inl ⟨by rw [raised]; rfl, conference⟩
  · exact .inr ⟨by rw [raised]; rfl, conference⟩

/-! ### Staying -/

/-- RECONFIGURE of a channel in the conference it asks for is its re-classification (R157 case 4). -/
theorem reconfigure_of_inside {id : ConfId} (inside : (s.slot ch).conference = some id) :
    reconfigure s ch (some id) = stayPart s id := by
  simp only [reconfigure, reconfigureLeave, reconfigureJoin, inside, if_true]
  cases stayPart s id <;> rfl

/-- RECONFIGURE of a channel in no conference that asks for none does nothing (R157 case 5). -/
theorem reconfigure_of_idle (outside : (s.slot ch).conference = none) : reconfigure s ch none = .ok ⟨s, [], none⟩ := by
  simp only [reconfigure, reconfigureLeave, reconfigureJoin, outside]
  rfl

/-- Settles O26: the re-classification, and the idle run. -/
theorem reclassifyKeepsMembership : Obligations.ReclassifyKeepsMembership := by
  intro s ch inv hch valid
  have usable : s.usable ch = true := State.usable_iff.mpr ⟨hch, valid⟩
  refine ⟨fun k hk named active same => ?_, fun outside asksNone => ?_⟩
  · have want : (s.slot ch).want = some k.id := same ▸ if_pos ⟨active, same ▸ (inv.confs k hk).idNonzero⟩
    obtain ⟨sol, hw, evs, stay, -, -, dispatched⟩ := stayPart_ok inv hk
    have run : reconfigure s ch (s.slot ch).want = .ok ⟨s.setConf (k.solved sol hw), evs, none⟩ := by
      rw [want, reconfigure_of_inside named, stay]
    exact ⟨_, sol, hw, evs, exec_reconfigure usable run, rfl, dispatched, rfl, rfl, rfl,
      OtherConfsKept.of_replaced (q := k.solved sol hw) rfl rfl, find_of_replaced inv hk rfl rfl⟩
  · have want : (s.slot ch).want = none := by rcases asksNone with h | h <;> simp [Channel.want, h]
    exact exec_reconfigure usable (want ▸ reconfigure_of_idle outside)

/-! ### A second run -/

/-- A dispatch of a settled record with nobody added or removed changes and emits nothing (R154). -/
theorem dispatch_of_settled {before : List ChIx} (ids : (s.confs.map (·.id)).Nodup) (hk : k ∈ s.confs)
    (settled : Settled s k) : dispatch s k before .none = .ok (s, []) := by
  obtain ⟨solution, hardware⟩ := settled
  have stored : s.setConf k = s := by
    have same := State.map_setConf (f := id) ids hk rfl rfl
    simp only [List.map_id] at same
    rw [State.setConf, ← State.setConf_confs, same]
  have quiet : stayEvents k.solution .none = [] := by cases k.solution <;> rfl
  simp only [dispatch, solution, hardware, and_self, if_true]
  exact congrArg Except.ok (Prod.ext stored quiet)

/-- A join half that raised `ResourceExhausted` and changed nothing had no room. -/
theorem noRoom_of_exhausted {id : ConfId} (inv : s.Inv) (hch : ch.toNat < s.cfg.nChan) (valid : (s.slot ch).valid = true)
    (outside : (s.slot ch).conference = none) (asks : id ≠ 0)
    (full : joinPart s ch id = .ok ⟨s, [], some .resourceExhausted⟩) : NoRoom s id := by
  rcases joinPart_ok inv hch valid outside asks with ⟨noRoom, -⟩ | ⟨_, _, _, _, _, joined, -⟩
  · exact noRoom
  · cases full.symm.trans joined

/-- RECONFIGURE once more, after the first one's response (R159): the same status, nothing emitted, nothing changed. -/
theorem reconfigure_again (inv : s.Inv) (hch : ch.toNat < s.cfg.nChan) (valid : (s.slot ch).valid = true) {p : Progress}
    (run : reconfigure s ch (s.slot ch).want = .ok p) (r : Response) :
    reconfigure (p.state.respond r) ch (s.slot ch).want = .ok ⟨p.state.respond r, [], p.raised⟩ := by
  obtain ⟨q, again, part, outcome⟩ := reconfigure_ok inv hch valid
  obtain rfl : q = p := Except.ok.inj (again.symm.trans run)
  obtain ⟨_, _, _, _, slot⟩ := part.slot
  rcases outcome with ⟨raised, conference, settled⟩ | ⟨raised, outside, id, want, full⟩
  · cases want : (s.slot ch).want with
    | none => rw [raised, reconfigure_of_idle (s := q.state.respond r) (conference.trans want)]
    | some id =>
      obtain ⟨k, hk, rfl, settled⟩ := settled id want
      have inv' := part.inv.respond r
      have quiet : dispatch (q.state.respond r) k k.members .none = .ok (q.state.respond r, []) :=
        dispatch_of_settled inv'.ids hk settled
      rw [raised, reconfigure_of_inside (s := q.state.respond r) (conference.trans want)]
      simp only [stayPart, State.find_mem inv'.ids hk, quiet]
  · have asks := Channel.want_ne want
    have noRoom : NoRoom q.state id :=
      noRoom_of_exhausted part.inv (part.cfg ▸ hch) (slot ▸ valid) outside asks full
    rw [want, raised, reconfigure_of_outside (s := q.state.respond r) outside,
      joinPart_of_noRoom (s := q.state.respond r) asks outside noRoom]

/-- Settles O27: the first run leaves the slot usable and its request as it was. -/
theorem reconfigureIdempotent : Obligations.ReconfigureIdempotent := by
  intro s t ch r inv hch valid first answered
  obtain ⟨p, run, part, -⟩ := reconfigure_ok inv hch valid
  obtain ⟨_, _, _, _, slot⟩ := part.slot
  obtain rfl : p.state.respond (Response.reconfigured ch (p.raised.getD .ok) p.events) = t :=
    Host.Outcome.next.inj ((exec_reconfigure (State.usable_iff.mpr ⟨hch, valid⟩) run).symm.trans first)
  obtain rfl : Response.reconfigured ch (p.raised.getD .ok) p.events = r := by
    rw [Answered, State.respond_responses, part.responses] at answered
    exact List.singleton_injective (List.append_cancel_left answered)
  refine exec_reconfigure (State.usable_iff.mpr ⟨part.cfg ▸ hch, slot ▸ valid⟩) (p := ⟨_, [], p.raised⟩) ?_
  have want : (p.state.slot ch).want = (s.slot ch).want := by rw [slot]; rfl
  rw [State.respond_slot, want]
  exact reconfigure_again inv hch valid run _

end Sys2Proof.Machine
end

section
/-! A move as two commands (42_reconfigure.md R156, R157 case 1): the two halves of RECONFIGURE read neither `active` nor
the responses, so that each does the same after a CH_SET of `active` and after another command's response. -/

namespace Sys2Proof.Machine

variable {s t : State} {ch : ChIx} {k : Conf} {b : Bool} {rs : List Response}

/-! ### A state with another `active` and other responses -/

/-- The state with `active` of one slot and the response stream replaced. -/
def State.recast (s : State) (ch : ChIx) (b : Bool) (rs : List Response) : State :=
  { s.setSlot ch { s.slot ch with active := b } with responses := rs }

@[simp] theorem State.recast_cfg : (s.recast ch b rs).cfg = s.cfg := rfl
@[simp] theorem State.recast_confs : (s.recast ch b rs).confs = s.confs := rfl
@[simp] theorem State.recast_find (id : ConfId) : (s.recast ch b rs).find id = s.find id := rfl

theorem State.recast_setConf : (s.recast ch b rs).setConf k = (s.setConf k).recast ch b rs := rfl

theorem State.slot_recast (hlen : ch.toNat < s.chan.length) :
    (s.recast ch b rs).slot ch = { s.slot ch with active := b } :=
  State.slot_setSlot_same hlen

theorem State.conference_recast (hlen : ch.toNat < s.chan.length) :
    ((s.recast ch b rs).slot ch).conference = (s.slot ch).conference := by
  rw [State.slot_recast hlen]

/-- Replacing `active` commutes with every update of the slot that does not read it. -/
theorem State.recast_setSlot (hlen : ch.toNat < s.chan.length) (f : Channel → Channel)
    (blind : ∀ o, f { o with active := b } = { f o with active := b }) :
    (s.recast ch b rs).setSlot ch (f ((s.recast ch b rs).slot ch)) = (s.setSlot ch (f (s.slot ch))).recast ch b rs := by
  rw [State.slot_recast hlen, blind, State.recast, State.recast, State.slot_setSlot_same hlen]
  simp [State.setSlot]

/-- The last `active` written stands. -/
theorem State.recast_again {a : Bool} {r : Response} (hlen : ch.toNat < s.chan.length) :
    ((s.recast ch a rs).respond r).setSlot ch { ((s.recast ch a rs).respond r).slot ch with active := b } =
      s.recast ch b (rs ++ [r]) := by
  rw [State.respond_slot, State.slot_recast hlen]
  simp [State.recast, State.setSlot, State.respond]

/-- With the `active` it has, only the responses are replaced. -/
theorem State.recast_self (hlen : ch.toNat < s.chan.length) (same : (s.slot ch).active = b) :
    s.recast ch b rs = { s with responses := rs } := by
  subst same
  exact congrArg (fun t : State => { t with responses := rs }) (State.setSlot_self hlen)

theorem State.usable_recast (hlen : ch.toNat < s.chan.length) : (s.recast ch b rs).usable ch = s.usable ch := by
  rw [State.usable, State.slot_recast hlen]
  rfl

/-- What the classifier reads of a slot (R140). -/
theorem State.recast_reads (hlen : ch.toNat < s.chan.length) (x : ChIx) :
    ((s.recast ch b rs).slot x).txMix = (s.slot x).txMix ∧ ((s.recast ch b rs).slot x).hwId = (s.slot x).hwId := by
  have slots : (s.recast ch b rs).slot x = if x = ch then { s.slot ch with active := b } else s.slot x :=
    State.slot_setSlot hlen x
  rw [slots]
  split
  · subst_vars; exact ⟨rfl, rfl⟩
  · exact ⟨rfl, rfl⟩

/-! ### The halves of RECONFIGURE on such a state -/

theorem dispatch_recast {before : List ChIx} {change : Change} (hlen : ch.toNat < s.chan.length) :
    dispatch (s.recast ch b rs) k before change =
      (dispatch s k before change).map fun p => (p.1.recast ch b rs, p.2) := by
  have reads := State.recast_reads (b := b) (rs := rs) hlen
  have sol : classify (s.recast ch b rs) k = classify s k := classify_congr rfl rfl rfl reads fun _ => rfl
  have hw : ∀ sol, solutionHw (s.recast ch b rs) sol k.members = solutionHw s sol k.members := fun sol => by
    simp only [solutionHw, fun x => (reads x).2]
  simp only [dispatch, sol, hw, State.recast_setConf]
  split
  · rfl
  · cases leaveEvents k.solution before <;> rfl

theorem removeMember_recast (hlen : ch.toNat < s.chan.length) :
    removeMember (s.recast ch b rs) ch = (removeMember s ch).map fun p => (p.1.recast ch b rs, p.2) := by
  have named := State.conference_recast (b := b) (rs := rs) hlen
  have slot := State.recast_setSlot (b := b) (rs := rs) hlen (fun o => { o with conference := none }) fun _ => rfl
  rw [removeMember, removeMember, named]
  cases (s.slot ch).conference with
  | none => rfl
  | some id =>
    simp only [State.recast_find]
    cases s.find id with
    | none => rfl
    | some k =>
      simp only
      split
      · rw [slot]; rfl
      · rfl

theorem leavePart_recast (hlen : ch.toNat < s.chan.length) :
    leavePart (s.recast ch b rs) ch k =
      (leavePart s ch k).map fun p => { p with state := p.state.recast ch b rs } := by
  rw [leavePart, leavePart, removeMember_recast hlen]
  cases removed : removeMember s ch with
  | error st => rfl
  | ok p =>
    obtain ⟨t, q⟩ := p
    have hlen' : ch.toNat < t.chan.length := (removeMember_kept removed).1.length ▸ hlen
    simp only [Except.map, dispatch_recast hlen']
    split
    · rename_i empty
      simp only [destroy, empty, if_true]
      rfl
    · cases dispatch t q k.members (.removed ch) <;> rfl

theorem create_recast (id : ConfId) :
    create (s.recast ch b rs) id = (create s id).map fun t => t.recast ch b rs := by
  simp only [create, apply_ite (Except.map fun t : State => t.recast ch b rs)]
  rfl

theorem findOrCreate_recast (id : ConfId) :
    findOrCreate (s.recast ch b rs) id = (findOrCreate s id).map fun p => (p.1.recast ch b rs, p.2) := by
  rw [findOrCreate, findOrCreate, create_recast, State.recast_find]
  cases s.find id with
  | some k => rfl
  | none => cases create s id <;> rfl

theorem addMember_recast (hlen : ch.toNat < s.chan.length) :
    addMember (s.recast ch b rs) ch k = (addMember s ch k).map fun t => t.recast ch b rs := by
  have named := State.conference_recast (b := b) (rs := rs) hlen
  have slot := State.recast_setSlot (b := b) (rs := rs) hlen (fun o => o.joined s.cfg k) fun _ => rfl
  simp only [addMember, named, State.recast_cfg, slot]
  split_ifs <;> rfl

/-- An add replaces a slot and a record. -/
theorem addMember_length (added : addMember s ch k = .ok t) : t.chan.length = s.chan.length := by
  unfold addMember at added
  split_ifs at added
  cases added
  simp

theorem joinPart_recast (hlen : ch.toNat < s.chan.length) (id : ConfId) :
    joinPart (s.recast ch b rs) ch id =
      (joinPart s ch id).map fun p => { p with state := p.state.recast ch b rs } := by
  rw [joinPart, joinPart, findOrCreate_recast]
  cases found : findOrCreate s id with
  | error st => rfl
  | ok p =>
    obtain ⟨t, k⟩ := p
    have hlen' : ch.toNat < t.chan.length := (findOrCreate_kept (ch := ch) found).1.length ▸ hlen
    simp only [Except.map, addMember_recast hlen']
    cases added : addMember t ch k with
    | error st => rfl
    | ok u =>
      simp only [dispatch_recast (addMember_length added ▸ hlen')]
      cases dispatch u (k.joined ch) k.members (.added ch) <;> rfl

/-! ### The move -/

/-- A leave half that answers keeps the invariant. -/
theorem leavePart_inv {p : Progress} (inv : s.Inv) (hk : k ∈ s.confs) (listed : ch ∈ k.members)
    (leave : leavePart s ch k = .ok p) : p.state.Inv := by
  obtain ⟨_, _, leave', inv', -⟩ := leavePart_ok inv hk listed
  cases leave.symm.trans leave'
  exact inv'

/-- The join half of a valid slot in no conference always answers. -/
theorem joinPart_answers {id : ConfId} (inv : s.Inv) (hch : ch.toNat < s.cfg.nChan) (valid : (s.slot ch).valid = true)
    (outside : (s.slot ch).conference = none) (asks : id ≠ 0) : ∃ p, joinPart s ch id = .ok p := by
  rcases joinPart_ok inv hch valid outside asks with ⟨-, full⟩ | ⟨_, _, _, _, _, joined, -⟩
  · exact ⟨_, full⟩
  · exact ⟨_, joined⟩

/-- The first of the two commands: with `active` at 0 a member leaves, and joins nothing. -/
theorem exec_reconfigure_inactive {evs : List Event} (hlen : ch.toNat < s.chan.length) (usable : s.usable ch = true)
    (named : (s.slot ch).conference = some k.id) (found : s.find k.id = some k)
    (leave : leavePart s ch k = .ok ⟨t, evs, none⟩) (tlen : ch.toNat < t.chan.length)
    (outside : (t.slot ch).conference = none) :
    exec (.reconfigure ch) (s.recast ch false rs) =
      .next ((t.recast ch false rs).respond (Response.reconfigured ch .ok evs)) := by
  have want : ((s.recast ch false rs).slot ch).want = none := by simp [State.slot_recast hlen, Channel.want]
  have leave' : leavePart (s.recast ch false rs) ch k = .ok ⟨t.recast ch false rs, evs, none⟩ := by
    rw [leavePart_recast hlen, leave]
    rfl
  have idle : reconfigureJoin (t.recast ch false rs) ch none = .ok ⟨t.recast ch false rs, [], none⟩ := by
    simp only [reconfigureJoin, State.conference_recast tlen, outside]
  have run := reconfigure_of_left ((State.conference_recast hlen).trans named) found (by simp) leave' idle
  rw [List.append_nil] at run
  exact exec_reconfigure ((State.usable_recast hlen).trans usable) (want ▸ run)

/-- The second of the two commands: with `active` back at 1 the channel joins. -/
theorem exec_reconfigure_active {p : Progress} (hlen : ch.toNat < s.chan.length) (usable : s.usable ch = true)
    (outside : (s.slot ch).conference = none) (asks : (s.slot ch).confId ≠ 0)
    (join : joinPart s ch (s.slot ch).confId = .ok p) :
    exec (.reconfigure ch) (s.recast ch true rs) =
      .next ((p.state.recast ch true rs).respond (Response.reconfigured ch (p.raised.getD .ok) p.events)) := by
  have want : ((s.recast ch true rs).slot ch).want = some (s.slot ch).confId := by
    rw [State.slot_recast hlen]
    exact if_pos ⟨rfl, asks⟩
  have run : reconfigure (s.recast ch true rs) ch ((s.recast ch true rs).slot ch).want =
      .ok { p with state := p.state.recast ch true rs } := by
    rw [want, reconfigure_of_outside ((State.conference_recast hlen).trans outside), joinPart_recast hlen, join]
    rfl
  exact exec_reconfigure ((State.usable_recast hlen).trans usable) run

/-- Settles O25: the first command is the move's leave half, the second one its join half. -/
theorem moveIsLeaveThenJoin : Obligations.MoveIsLeaveThenJoin := by
  intro s ch k inv hch valid hk named active asks other
  have hlen := inv.chan_lt hch
  have usable : s.usable ch = true := State.usable_iff.mpr ⟨hch, valid⟩
  have found := State.find_mem inv.ids hk
  have want : (s.slot ch).want = some (s.slot ch).confId := if_pos ⟨active, asks⟩
  have listed := inv.mem_of_named hch hk named
  obtain ⟨u, off, leave, left⟩ := leavePart_left inv hk listed
  have inv' : u.Inv := leavePart_inv inv hk listed leave
  have hch' : ch.toNat < u.cfg.nChan := left.cfg ▸ hch
  have hlen' := inv'.chan_lt hch'
  have valid' : (u.slot ch).valid = true := by rw [left.slot]; exact valid
  have outside : (u.slot ch).conference = none := by rw [left.slot]
  have request : (u.slot ch).confId = (s.slot ch).confId := by rw [left.slot]
  obtain ⟨q, join⟩ := joinPart_answers inv' hch' valid' outside asks
  have move : reconfigure s ch (s.slot ch).want = .ok ⟨q.state, off ++ q.events, q.raised⟩ :=
    reconfigure_of_left named found (by simpa [want] using other) leave
      (by simp only [reconfigureJoin, outside, want, join])
  have part : PartOk s q.state ch := by
    obtain ⟨p, run, part, -⟩ := reconfigure_ok inv hch valid
    cases move.symm.trans run
    exact part
  have unmoved : ∀ rs, q.state.recast ch true rs = { q.state with responses := rs } := fun rs => by
    obtain ⟨_, _, _, _, slot⟩ := part.slot
    exact State.recast_self (part.inv.chan_lt (part.cfg ▸ hch)) (by rw [slot]; exact active)
  have first := exec_reconfigure_inactive (rs := s.responses) hlen usable named found leave hlen' outside
  have second := exec_reconfigure_active (rs := s.responses ++ [Response.reconfigured ch .ok off]) hlen'
    (State.usable_iff.mpr ⟨hch', valid'⟩) outside (request ▸ asks) (request ▸ join)
  refine ⟨_, _, _, _, first, rfl, (State.conference_recast hlen').trans outside,
    (congrArg (exec _) (State.recast_again hlen')).trans second, rfl, ?_⟩
  rw [exec_reconfigure usable move, unmoved, State.respond, part.responses]
  rfl

end Sys2Proof.Machine
end

section
/-! RECEIVE (43_receive.md): the length checks (R171), an accepted frame of a channel in no conference (R173), the two
outcomes of a member's frame, each said once (`receiveMember_dropped`, `receiveMember_accepted`: R172 to R178, R181), and
the cells of the mix buffer (R179, R180). -/

namespace Sys2Proof.Machine

variable {s : State} {ch : ChIx} {k : Conf} {frame : List Byte}

/-! ### The path a frame takes -/

/-- Settles O31: the two length checks come right after the slot check. -/
theorem receiveLengthChecks : Obligations.ReceiveLengthChecks := by
  intro s ch frame hch valid
  have usable : s.usable ch = true := State.usable_iff.mpr ⟨hch, valid⟩
  constructor
  · intro empty
    simp only [Refuses, exec, execReceive, usable, if_true, empty]
    rfl
  · intro (long : s.cfg.maxLen < frame.length)
    have nonempty : frame.length ≠ 0 := by omega
    simp only [exec, execReceive, usable, if_true, if_neg nonempty, if_pos long]
    rfl

/-- A frame within the length limits of a channel in no conference takes the path of R173. -/
theorem exec_receive_of_outside (usable : s.usable ch = true) (nonempty : 0 < frame.length)
    (short : frame.length ≤ s.cfg.maxLen) (outside : (s.slot ch).conference = none) :
    exec (.receive ch frame) s = .next (receiveSolo s ch frame) := by
  simp only [exec, execReceive, usable, if_true, if_neg nonempty.ne', if_neg short.not_gt, outside]

/-- A frame within the length limits of a channel in a conference takes steps 2 to 6 on its record (R172 to R181). -/
theorem exec_receive_of_member (inv : s.Inv) (hch : ch.toNat < s.cfg.nChan) (valid : (s.slot ch).valid = true)
    (hk : k ∈ s.confs) (named : (s.slot ch).conference = some k.id) (nonempty : 0 < frame.length)
    (short : frame.length ≤ s.cfg.maxLen) :
    exec (.receive ch frame) s = .next (receiveMember s ch k frame) := by
  have usable : s.usable ch = true := State.usable_iff.mpr ⟨hch, valid⟩
  simp only [exec, execReceive, usable, if_true, if_neg nonempty.ne', if_neg short.not_gt, named,
    State.find_mem inv.ids hk]

/-- A frame within the length limits fits the ring (R7, R171). -/
theorem length_le_buffSize (short : frame.length ≤ s.cfg.maxLen) : frame.length ≤ s.cfg.buffSize := by
  simp only [Config.maxLen, Config.half] at short
  omega

/-- Settles O32: the slot becomes `Channel.received`, whose buffer is one ring write. -/
theorem receiveSolo_accepts : Obligations.ReceiveSolo := by
  intro s ch frame inv hch valid outside nonempty short
  have me := inv.slot_ok hch
  exact ⟨_, _, exec_receive_of_outside (State.usable_iff.mpr ⟨hch, valid⟩) nonempty short outside, rfl,
    .of_setSlot _ _ _ _, .of_setSlot _ _ _ _, State.slot_setSlot_same (inv.chan_lt hch),
    ringWrite_frame me.wRx me.rxWf (length_le_buffSize short)⟩

/-! ### The two outcomes of a member's frame -/

/-- `largest` of the channel and of its record after step 2 (R172). -/
def raisedLargest (s : State) (ch : ChIx) (k : Conf) (frame : List Byte) : Nat :=
  max (max (s.slot ch).largest (2 * frame.length)) k.largest

/-- The channel's write index after the frame (R174). -/
def newWrite (s : State) (ch : ChIx) (frame : List Byte) : Nat := adv s.cfg.buffSize (s.slot ch).wRx frame.length

/-- The earliest of the new write index and the other members' (R174). -/
def newMin (s : State) (ch : ChIx) (k : Conf) (frame : List Byte) : Nat :=
  scanMin s ch k.members (newWrite s ch frame)

/-- The later of the new write index and the old `W_max` (R175). -/
def newMax (s : State) (ch : ChIx) (k : Conf) (frame : List Byte) : Nat :=
  later s.cfg.buffSize (newWrite s ch frame) k.wMax

/-- A frame that would widen the window past `largest` is dropped: both `largest` and `W_min` are kept (R176, R177). -/
theorem receiveMember_dropped (inv : s.Inv) (hch : ch.toNat < s.cfg.nChan) (hk : k ∈ s.confs)
    (wide : raisedLargest s ch k frame < ringDist s.cfg.buffSize (newMax s ch k frame) (newMin s ch k frame)) :
    Answered s (receiveMember s ch k frame) (Response.dropped ch) ∧
      (receiveMember s ch k frame).slot ch = { s.slot ch with largest := raisedLargest s ch k frame } ∧
      (receiveMember s ch k frame).find k.id =
        some { k with largest := raisedLargest s ch k frame, wMin := newMin s ch k frame } := by
  have drop : receiveMember s ch k frame =
      ((s.setSlot ch ((s.slot ch).raised (raisedLargest s ch k frame))).setConf
        { k with largest := raisedLargest s ch k frame, wMin := newMin s ch k frame }).respond (Response.dropped ch) :=
    if_pos wide
  rw [drop]
  exact ⟨rfl, State.slot_setSlot_same (inv.chan_lt hch), find_of_replaced inv hk rfl rfl⟩

/-- Any other frame is accepted: it is stored and both leading indices move (R178, R179, R181). -/
theorem receiveMember_accepted (inv : s.Inv) (hch : ch.toNat < s.cfg.nChan) (hk : k ∈ s.confs)
    (narrow : ringDist s.cfg.buffSize (newMax s ch k frame) (newMin s ch k frame) ≤ raisedLargest s ch k frame) :
    Answered s (receiveMember s ch k frame) (Response.okay opReceive ch) ∧
      (receiveMember s ch k frame).slot ch =
        (s.slot ch).received s.cfg.buffSize (raisedLargest s ch k frame) frame ∧
      (receiveMember s ch k frame).find k.id =
        some { k with
          confBuff := k.mixed s.cfg (s.slot ch).law (s.slot ch).wRx frame
          largest := raisedLargest s ch k frame
          wMin := newMin s ch k frame
          wMax := newMax s ch k frame } := by
  have accept : receiveMember s ch k frame =
      ((s.setSlot ch ((s.slot ch).received s.cfg.buffSize (raisedLargest s ch k frame) frame)).setConf
        { k with
          confBuff := k.mixed s.cfg (s.slot ch).law (s.slot ch).wRx frame
          largest := raisedLargest s ch k frame
          wMin := newMin s ch k frame
          wMax := newMax s ch k frame }).respond (Response.okay opReceive ch) :=
    if_neg narrow.not_gt
  rw [accept]
  exact ⟨rfl, State.slot_setSlot_same (inv.chan_lt hch), find_of_replaced inv hk rfl rfl⟩

/-- Either outcome replaces no record but the channel's own. -/
theorem receiveMember_otherConfs (s : State) (ch : ChIx) (k : Conf) (frame : List Byte) :
    OtherConfsKept s (receiveMember s ch k frame) k.id := by
  obtain ⟨o, q, r, run, -, hid, -⟩ := receiveMember_cases s ch k frame
  rw [run]
  exact .of_replaced rfl hid

/-- Of two indices within half a ring past a base, the farther one is ahead (R102). -/
theorem ahead_of_pos_le {S b x y : Nat} (hb : b < S) (hx : x < S) (hy : y < S) (le : ringDist S x b ≤ ringDist S y b)
    (near : ringDist S y b < S / 2) : ahead S y x = true := by
  rw [ahead_iff, dist_of_pos hb hy hx, if_pos le]
  omega

/-- What step 3 stores is a ring index at or before the new write index and the other members', and one of them (R174). -/
theorem newMin_earliest (inv : s.Inv) (hk : k ∈ s.confs) (listed : ch ∈ k.members)
    (short : frame.length ≤ s.cfg.maxLen) :
    newMin s ch k frame < s.cfg.buffSize ∧
      ahead s.cfg.buffSize (newWrite s ch frame) (newMin s ch k frame) = true ∧
      (∀ o ∈ k.members, o ≠ ch → ahead s.cfg.buffSize (s.slot o).wRx (newMin s ch k frame) = true) ∧
      (newMin s ch k frame = newWrite s ch frame ∨ ∃ o ∈ k.members, o ≠ ch ∧ newMin s ch k frame = (s.slot o).wRx) := by
  have win := inv.window hk listed short
  have base := (inv.confs k hk).wMin
  obtain ⟨nearNew, nearMax⟩ := win.near
  refine ⟨win.minLt, ?_, fun o ho other => ?_, win.found⟩
  · exact ahead_of_pos_le base win.minLt (adv_lt inv.buffSize_pos _ _) (win.posNew ▸ win.minNew) (win.posNew ▸ nearNew)
  · have inRing : (s.slot o).wRx < s.cfg.buffSize := (inv.slot_ok (inv.listed k hk o ho).1).wRx
    exact ahead_of_pos_le base win.minLt inRing (win.minOthers o ho other) ((inv.envelope k hk o ho).trans_lt nearMax)

/-- What step 4 computes, with the distance written out (R102, R103, R175). -/
theorem newMax_eq_ite : newMax s ch k frame =
    if ringDist s.cfg.buffSize (newWrite s ch frame) k.wMax < s.cfg.buffSize / 2 then newWrite s ch frame else k.wMax := by
  simp only [newMax, later, ahead_iff]

/-- Settles O33: the scan, then the two outcomes. -/
theorem receiveInConference : Obligations.ReceiveInConference := by
  intro s ch k frame inv hch valid hk named nonempty short S m wNew wMax
  have completes := exec_receive_of_member inv hch valid hk named nonempty short
  obtain ⟨u, r, run, kept⟩ := exec_kept completes
  have me := inv.slot_ok hch
  obtain ⟨minLt, newAhead, othersAhead, found⟩ := newMin_earliest inv hk (inv.mem_of_named hch hk named) short
  have max_eq : newMax s ch k frame = wMax := newMax_eq_ite
  refine ⟨receiveMember s ch k frame, newMin s ch k frame, ringWrite S (s.slot ch).rxBuff (s.slot ch).wRx frame,
    k.mixed s.cfg (s.slot ch).law (s.slot ch).wRx frame, minLt, newAhead, othersAhead, found, completes, ?_, ?_, ?_,
    receiveMember_otherConfs s ch k frame, fun narrow => ?_, fun wide => ?_⟩
  · rw [run]; exact kept.cfg
  · rw [run]; exact kept.input
  · rw [run]; exact kept.slots
  · obtain ⟨answered, slot, record⟩ := receiveMember_accepted inv hch hk (max_eq ▸ narrow)
    exact ⟨answered, slot, max_eq ▸ record, ringWrite_frame me.wRx me.rxWf (length_le_buffSize short)⟩
  · exact receiveMember_dropped inv hch hk (max_eq ▸ wide)

/-! ### The mix buffer -/

/-- An assigned cell reads back as the decoded sample: no sample wraps (R180). -/
theorem toInt_wrap32_decLaw (c : Config) (law : Law) (b : Byte) : (wrap32 (decLaw c law b)).toInt = decLaw c law b := by
  have sample : ∀ v : Sample, (wrap32 v.toInt).toInt = v.toInt := fun v => by
    have lo := v.le_toInt
    have hi := v.toInt_lt
    exact toInt_wrap32 (by omega) (by omega)
  cases law
  · exact sample _
  · exact sample _

/-- A frame in the mix buffer, cell by cell: the first `a` samples are added, the rest assigned, every other cell is kept
(R179, R180). -/
theorem mixFrame_cells {c : Config} {law : Law} {m : Mem Word} {w a : Nat} (hm : m.wf c.buffSize) (hw : w < c.buffSize)
    (fits : frame.length ≤ c.buffSize) :
    (∀ (n : Nat) b, frame[n]? = some b →
      (n < a → (mixFrame c law m w a frame).read (adv c.buffSize w n) =
        wrap32 ((m.read (adv c.buffSize w n)).toInt + decLaw c law b)) ∧
      (a ≤ n → ((mixFrame c law m w a frame).read (adv c.buffSize w n)).toInt = decLaw c law b)) ∧
      ∀ j, j < c.buffSize → frame.length ≤ ringDist c.buffSize j w → (mixFrame c law m w a frame).read j = m.read j := by
  refine ⟨fun n b hb => ?_, fun j hj beyond => ?_⟩
  · have hn : n < frame.length := (List.getElem?_eq_some_iff.mp hb).1
    have cell := mixFrame_read law frame hm a hw (adv_lt (by omega) w n) fits
    rw [dist_adv hw (by omega), hb] at cell
    exact ⟨fun added => cell.trans (if_pos added), fun assigned =>
      (congrArg BitVec.toInt (cell.trans (if_neg assigned.not_gt))).trans (toInt_wrap32_decLaw c law b)⟩
  · rw [mixFrame_read law frame hm a hw hj fits, List.getElem?_eq_none beyond]

/-- A member's write index is at or behind the old `W_max`, so that the samples before it are the added ones (R42, R179). -/
theorem addCount_of_member (inv : s.Inv) (hk : k ∈ s.confs) (listed : ch ∈ k.members) (len : Nat) :
    addCount s.cfg.buffSize k.wMax (s.slot ch).wRx len = min (ringDist s.cfg.buffSize k.wMax (s.slot ch).wRx) len := by
  obtain ⟨-, below, -⟩ := envelopeOrdersMembers s inv k hk ch listed
  exact if_pos (ahead_iff.mp below)

/-- An `OK` from a member's frame is an accepted frame: it leaves the mix buffer of `Conf.mixed`. -/
theorem receiveMember_confBuff (inv : s.Inv) (hch : ch.toNat < s.cfg.nChan) (hk : k ∈ s.confs) {k' : Conf}
    (answered : Answered s (receiveMember s ch k frame) (Response.okay opReceive ch))
    (record : (receiveMember s ch k frame).find k.id = some k') :
    k'.confBuff = k.mixed s.cfg (s.slot ch).law (s.slot ch).wRx frame := by
  rcases Nat.lt_or_ge (raisedLargest s ch k frame)
    (ringDist s.cfg.buffSize (newMax s ch k frame) (newMin s ch k frame)) with wide | narrow
  · obtain ⟨dropped, -⟩ := receiveMember_dropped inv hch hk wide
    have same : Response.okay opReceive ch = Response.dropped ch :=
      List.singleton_inj.mp (List.append_cancel_left (answered.symm.trans dropped))
    cases congrArg Response.status same
  · obtain ⟨-, -, accepted⟩ := receiveMember_accepted inv hch hk narrow
    rw [← Option.some.inj (accepted.symm.trans record)]

/-- Settles O34: with three members the mix buffer is one `mixFrame`, with fewer the old one. -/
theorem receiveMixBuffer : Obligations.ReceiveMixBuffer := by
  intro s t ch k k' frame inv hch valid hk named nonempty short h answered record S w
  rw [exec_receive_of_member inv hch valid hk named nonempty short] at h
  cases h
  rw [receiveMember_confBuff inv hch hk answered record, Conf.mixed]
  refine ⟨fun three => ?_, fun few => if_neg few.not_ge⟩
  rw [if_pos three, addCount_of_member inv hk (inv.mem_of_named hch hk named)]
  refine (mixFrame_cells (inv.confs k hk).buffWf (inv.slot_ok hch).wRx (length_le_buffSize short)).imp_left
    fun written n b hb => ?_
  have hn : n < frame.length := (List.getElem?_eq_some_iff.mp hb).1
  obtain ⟨added, assigned⟩ := written n b hb
  exact ⟨fun before => added (lt_min before hn), fun past => assigned (min_le_of_left_le past)⟩

end Sys2Proof.Machine
end

section
/-! SEND and SEND_TONE (44_send.md): the length check (R190), what a completed command answers and writes (R191 to R193,
R206, R207), the output bytes branch by branch (R195 to R204), and what neither command reads (R208): both commute with
`State.sendView`. -/

namespace Sys2Proof.Machine

variable {s t : State} {ch : ChIx} {k : Conf} {found : Option Conf} {src : Source} {c : Config} {me : Channel}

/-! ### The length check -/

/-- Settles O37: the length check comes right after the slot check. -/
theorem sendRefusesLongRead : Obligations.SendRefusesLongRead := by
  intro s ch len tag tone hch valid
  have usable : s.usable ch = true := State.usable_iff.mpr ⟨hch, valid⟩
  constructor
  · intro (long : s.cfg.half ≤ len.toNat)
    simp only [Refuses, exec, execSend, usable, if_true, if_pos long]
    rfl
  · intro (long : s.cfg.half ≤ tone.length)
    simp only [Refuses, exec, execSendTone, usable, if_true, if_pos long]
    rfl

/-! ### The conference found -/

/-- SEND finds no record but the one the channel names. -/
theorem SendFinds.eq_some (finds : SendFinds s ch found) (inv : s.Inv) (hk : k ∈ s.confs)
    (named : (s.slot ch).conference = some k.id) : found = some k ∧ ch ∈ k.members := by
  rcases finds with ⟨outside, -⟩ | ⟨q, hq, named', listed, rfl⟩
  · cases outside.symm.trans named
  · obtain rfl := conf_eq_of_id inv.ids hq hk (Option.some.inj (named'.symm.trans named))
    exact ⟨rfl, listed⟩

/-- A channel in no conference finds none. -/
theorem SendFinds.eq_none (finds : SendFinds s ch found) (outside : (s.slot ch).conference = none) : found = none := by
  rcases finds with ⟨-, rfl⟩ | ⟨q, -, named, -⟩
  · rfl
  · cases outside.symm.trans named

/-- The read limit is the channel's `W_rx`, in a conference its `W_min` (R191). -/
theorem SendFinds.readLimit_eq (finds : SendFinds s ch found) (inv : s.Inv) :
    ((s.slot ch).conference = none → readLimit (s.slot ch) found = (s.slot ch).wRx) ∧
      ∀ k ∈ s.confs, (s.slot ch).conference = some k.id → readLimit (s.slot ch) found = k.wMin :=
  ⟨fun outside => by rw [finds.eq_none outside]; rfl, fun k hk named => by rw [(finds.eq_some inv hk named).1]; rfl⟩

/-! ### What a completed command does -/

/-- SEND of fewer than half a ring of bytes completes, with the conference and the source it finds (R191, R195). -/
theorem exec_send (inv : s.Inv) (hch : ch.toNat < s.cfg.nChan) (valid : (s.slot ch).valid = true) {len : BitVec 16}
    (short : len.toNat < s.cfg.half) (tag : Word) :
    ∃ found src, SendFinds s ch found ∧ sendSource s ch found = .ok src ∧
      exec (.send ch len tag) s = .next (sendFrame s ch found src len.toNat tag) := by
  have usable : s.usable ch = true := State.usable_iff.mpr ⟨hch, valid⟩
  obtain ⟨found, conf, finds⟩ := sendConf_ok inv hch
  obtain ⟨src, source⟩ := sendSource_ok inv finds
  refine ⟨found, src, finds, source, ?_⟩
  simp only [exec, execSend, usable, if_true, if_neg short.not_ge, conf, source]

/-- SEND_TONE of fewer than half a ring of bytes completes, with the pointer set-up of SEND (R196). -/
theorem exec_sendTone (inv : s.Inv) (hch : ch.toNat < s.cfg.nChan) (valid : (s.slot ch).valid = true)
    {tone : List Byte} (short : tone.length < s.cfg.half) (tag : Word) :
    ∃ found, SendFinds s ch found ∧ exec (.sendTone ch tag tone) s =
      .next ((s.setSlot ch ((s.slot ch).sent
        (readPointers s.cfg.buffSize (s.slot ch).rRx (readLimit (s.slot ch) found) tone.length).2
        (s.slot ch).wTx)).respond (Response.frame opSendTone ch tag tone)) := by
  have usable : s.usable ch = true := State.usable_iff.mpr ⟨hch, valid⟩
  obtain ⟨found, conf, finds⟩ := sendConf_ok inv hch
  refine ⟨found, finds, ?_⟩
  simp only [exec, execSendTone, usable, if_true, if_neg short.not_ge, conf]

/-- The slot SEND leaves (R192, R193, R206). -/
theorem sendFrame_slot (inv : s.Inv) (hch : ch.toNat < s.cfg.nChan) (len : Nat) (tag : Word) :
    (sendFrame s ch found src len tag).slot ch =
      (s.slot ch).sent (readPointers s.cfg.buffSize (s.slot ch).rRx (readLimit (s.slot ch) found) len).2
        (sendTx s.cfg (s.slot ch) len (s.slot ch).rTx) :=
  State.slot_setSlot_same (inv.chan_lt hch)

/-- Settles O38: the slot is `Channel.sent`, at the two indices in closed form. -/
theorem sendCompletes : Obligations.SendCompletes := by
  intro s ch len tag inv hch valid short S me
  obtain ⟨found, src, finds, -, completes⟩ := exec_send inv hch valid short tag
  obtain ⟨outside, member⟩ := finds.readLimit_eq inv
  have ok := inv.slot_ok hch
  refine ⟨_, _, readLimit me found, completes, rfl, sendBytes_length _ _ _ _ _, .of_setSlot _ _ _ _,
    .of_setSlot _ _ _ _, outside, member, ?_⟩
  rw [sendFrame_slot inv hch, readPointers_snd inv.buffSize_pos (readLimit_lt inv hch finds),
    sendTx_eq ok.wTx len.toNat ok.rTx, Nat.cast_min]
  rfl

/-- Settles O41: the slot is `Channel.sent`, with the tx index at the end of the queue. -/
theorem sendToneResult : Obligations.SendToneResult := by
  intro s ch tag tone inv hch valid short S me
  obtain ⟨found, finds, completes⟩ := exec_sendTone inv hch valid short tag
  obtain ⟨outside, member⟩ := finds.readLimit_eq inv
  refine ⟨_, readLimit me found, completes, rfl, .of_setSlot _ _ _ _, .of_setSlot _ _ _ _, outside, member, ?_⟩
  rw [State.respond_slot, State.slot_setSlot_same (inv.chan_lt hch),
    readPointers_snd inv.buffSize_pos (readLimit_lt inv hch finds)]
  rfl

/-! ### The output bytes, branch by branch -/

/-- Branch X: a queued byte is sent as it is when `tx_mix` is 0 (R197). -/
theorem sendByte_of_queued {tx : Option Byte} {b : Byte} (queued : tx = some b) (unmixed : me.txMix = false)
    (ri : Nat) : sendByte c me src tx ri = b := by
  simp only [sendByte, queued, unmixed]

/-- The byte of the mix branches A, B and C (R195). -/
def mixByte (c : Config) (me : Channel) (tx : Option Byte) (ri : Nat) : Source → Byte
  | .solo => soloByte c me tx (me.rxBuff.read ri)
  | .pair peer => pairByte c me peer tx (me.rxBuff.read ri) (peer.rxBuff.read ri)
  | .group cells => groupByte c me tx (me.rxBuff.read ri) (cells.read ri)

/-- Without a queued byte or with `tx_mix` the byte is the mix branch's (R195). -/
theorem sendByte_of_mix {tx : Option Byte} (mix : ¬(tx.isSome = true ∧ me.txMix = false)) (ri : Nat) :
    sendByte c me src tx ri = mixByte c me tx ri src := by
  unfold sendByte
  split
  · rename_i unmixed
    exact absurd ⟨rfl, unmixed⟩ mix
  · cases src <;> rfl

/-- Branch A with echo off: the queued byte or silence (R198). -/
theorem soloByte_of_echo_off (echo : me.echo = false) (tx : Option Byte) (rx : Byte) :
    soloByte c me tx rx = tx.getD (silLaw c me.law) := by
  cases tx <;> simp only [soloByte, echo] <;> rfl

/-- Branch A with echo on: the received byte, mixed with the queued byte if there is one (R199). -/
theorem soloByte_of_echo_on (echo : me.echo = true) (tx : Option Byte) (rx : Byte) :
    soloByte c me tx rx = tx.elim rx fun b => mixLaw c me.law [decLaw c me.law b, decLaw c me.law rx] := by
  cases tx <;> simp only [soloByte, echo] <;> rfl

/-- With echo off a solo channel sends the queued byte or silence, whatever `tx_mix` is (R197, R198). -/
theorem sendByte_solo_of_echo_off (echo : me.echo = false) (tx : Option Byte) (ri : Nat) :
    sendByte c me .solo tx ri = tx.getD (silLaw c me.law) := by
  by_cases queued : tx.isSome = true ∧ me.txMix = false
  · obtain ⟨b, rfl⟩ := Option.isSome_iff_exists.mp queued.1
    exact sendByte_of_queued rfl queued.2 ri
  · exact (sendByte_of_mix queued ri).trans (soloByte_of_echo_off echo tx _)

/-- Branch B as one sum (R201, R202). -/
theorem pairByte_eq (peer : Channel) (tx : Option Byte) (rx peerRx : Byte) :
    pairByte c me peer tx rx peerRx = encLaw c me.law (sat16 (decLaw c peer.law peerRx +
      (if me.echo = true then decLaw c me.law rx else 0) + (txTerm c me tx).sum)) := by
  cases echo : me.echo <;> simp [pairByte, mixLaw, echo, Int.add_assoc]

/-- Branch C as one sum (R203, R204). -/
theorem groupByte_eq (tx : Option Byte) (rx : Byte) (cell : Word) :
    groupByte c me tx rx cell = encLaw c me.law (sat16 (cell.toInt -
      (if me.echo = true then 0 else decLaw c me.law rx) + (txTerm c me tx).sum)) := by
  cases echo : me.echo <;> simp [groupByte, mixLaw, echo, Int.add_assoc, Int.sub_eq_add_neg]

/-- The queued byte of output byte `n` is there while `n` is less than the number queued (R206). -/
theorem queuedAt_of_lt {x n : Nat} (queued : n < ringDist c.buffSize me.wTx x) :
    queuedAt c me x n = some (me.txBuff.read (adv c.buffSize x n)) := if_pos queued

theorem queuedAt_of_not_lt {x n : Nat} (empty : ¬n < ringDist c.buffSize me.wTx x) : queuedAt c me x n = none :=
  if_neg empty

theorem queuedAt_isSome {x n : Nat} : (queuedAt c me x n).isSome = true ↔ n < ringDist c.buffSize me.wTx x := by
  simp [queuedAt]

/-- The tx term of output byte `n` (R201, R202, R204). -/
theorem txTerm_queuedAt (x n : Nat) : (txTerm c me (queuedAt c me x n)).sum =
    if n < ringDist c.buffSize me.wTx x then decLaw c me.law (me.txBuff.read (adv c.buffSize x n)) else 0 := by
  unfold queuedAt
  split
  · exact List.sum_singleton
  · rfl

/-! ### The bytes of a completed SEND -/

/-- The outbound frame of SEND (R190, R192, R195). -/
def sentBytes (s : State) (ch : ChIx) (found : Option Conf) (src : Source) (len : Nat) : List Byte :=
  sendBytes s.cfg (s.slot ch) src
    (readPointers s.cfg.buffSize (s.slot ch).rRx (readLimit (s.slot ch) found) len).1 len 0 (s.slot ch).rTx

/-- The one response of SEND carries the outbound frame (R207). -/
theorem sendFrame_answered (s : State) (ch : ChIx) (found : Option Conf) (src : Source) (len : Nat) (tag : Word) :
    Answered s (sendFrame s ch found src len tag)
      (Response.frame opSend ch tag (sentBytes s ch found src len)) := rfl

/-- Output byte `n` reads the index that far from the `R_rx` stored, less `len` (R192, R195). -/
theorem sentBytes_getElem? (inv : s.Inv) (hch : ch.toNat < s.cfg.nChan) (finds : SendFinds s ch found) (src : Source)
    {len n : Nat} (hn : n < len) :
    (sentBytes s ch found src len)[n]? =
      some (sendByte s.cfg (s.slot ch) src (queuedAt s.cfg (s.slot ch) (s.slot ch).rTx n)
        (adv s.cfg.buffSize (readPointers s.cfg.buffSize (s.slot ch).rRx (readLimit (s.slot ch) found) len).2
          ((n : Int) - len))) := by
  have ok := inv.slot_ok hch
  have start := readPointers_fst ok.rRx _ len (readLimit_lt inv hch finds)
  rw [sentBytes, sendBytes_getElem? ok.wTx src _ len 0 ok.rTx hn, start, adv_adv inv.buffSize_pos, Nat.zero_add,
    neg_add_eq_sub]

/-- A channel alone has no source to mix (R198, R199). -/
theorem sendSource_of_alone (inv : s.Inv) (finds : SendFinds s ch found)
    (alone : (s.slot ch).conference = none ∨
      ∃ k ∈ s.confs, (s.slot ch).conference = some k.id ∧ k.members.length = 1) :
    sendSource s ch found = .ok .solo := by
  rcases alone with outside | ⟨k, hk, named, one⟩
  · rw [finds.eq_none outside]; rfl
  · obtain ⟨rfl, listed⟩ := finds.eq_some inv hk named
    obtain ⟨solo, -, -⟩ := sendSource_cases inv hk listed
    exact solo one.le

/-- The source of a pair is the other member (R200). -/
theorem sendSource_of_pair (inv : s.Inv) (finds : SendFinds s ch found) (hk : k ∈ s.confs)
    (named : (s.slot ch).conference = some k.id) (two : k.members.length = 2) {o : ChIx} (ho : o ∈ k.members)
    (other : o ≠ ch) : sendSource s ch found = .ok (.pair (s.slot o)) := by
  obtain ⟨rfl, listed⟩ := finds.eq_some inv hk named
  obtain ⟨-, pair, -⟩ := sendSource_cases inv hk listed
  obtain ⟨x, -, -, only, source⟩ := pair two
  rw [source, only o ho other]

/-- The source of a group is its mix buffer (R203). -/
theorem sendSource_of_group (inv : s.Inv) (finds : SendFinds s ch found) (hk : k ∈ s.confs)
    (named : (s.slot ch).conference = some k.id) (three : 3 ≤ k.members.length) :
    sendSource s ch found = .ok (.group k.confBuff) := by
  obtain ⟨rfl, listed⟩ := finds.eq_some inv hk named
  obtain ⟨-, -, group⟩ := sendSource_cases inv hk listed
  exact group three

/-- Settles O39: byte `n` is one `sendByte`, whose source the member count decides. -/
theorem sendProducesBytes : Obligations.SendProducesBytes := by
  intro s t ch len tag out inv hch valid short h answered n hn S me ri own queued tx left
  obtain ⟨found, src, finds, source, completes⟩ := exec_send inv hch valid short tag
  cases h.symm.trans completes
  have frame : out = sentBytes s ch found src len.toNat :=
    congrArg Response.payload (List.singleton_inj.mp (List.append_cancel_left
      (answered.symm.trans (sendFrame_answered s ch found src len.toNat tag))))
  have byte : out[n]? = some (sendByte s.cfg me src (queuedAt s.cfg me me.rTx n) ri) := by
    rw [frame, sentBytes_getElem? inv hch finds src hn]
    simp only [ri, sendFrame_slot inv hch]
    rfl
  have source_eq : ∀ {src'}, sendSource s ch found = .ok src' → src = src' := fun e =>
    Except.ok.inj (source.symm.trans e)
  refine ⟨fun more unmixed => ?_, fun notX => ?_⟩
  · rw [byte, sendByte_of_queued (queuedAt_of_lt more) unmixed]
  rw [sendByte_of_mix (by rwa [queuedAt_isSome])] at byte
  refine ⟨fun alone => ?_, fun k hk o ho named two other => ?_, fun k hk named three => ?_⟩
  · rw [source_eq (sendSource_of_alone inv finds alone), mixByte] at byte
    refine ⟨fun echo more => ?_, fun echo drained => ?_, fun echo more => ?_, fun echo drained => ?_⟩
    · rw [byte, soloByte_of_echo_off echo, queuedAt_of_lt more]; rfl
    · rw [byte, soloByte_of_echo_off echo, queuedAt_of_not_lt drained]; rfl
    · rw [byte, soloByte_of_echo_on echo, queuedAt_of_lt more]; rfl
    · rw [byte, soloByte_of_echo_on echo, queuedAt_of_not_lt drained]; rfl
  · rw [byte, source_eq (sendSource_of_pair inv finds hk named two ho other), mixByte, pairByte_eq, txTerm_queuedAt]
  · rw [byte, source_eq (sendSource_of_group inv finds hk named three), mixByte, groupByte_eq, txTerm_queuedAt]

/-- With echo off a solo channel sends the queued bytes, then silence (R197, R198). -/
theorem sentBytes_solo_of_echo_off (inv : s.Inv) (hch : ch.toNat < s.cfg.nChan) (finds : SendFinds s ch found)
    (echo : (s.slot ch).echo = false) (len : Nat) :
    sentBytes s ch found .solo len = (List.range len).map fun n =>
      (queuedAt s.cfg (s.slot ch) (s.slot ch).rTx n).getD (silLaw s.cfg (s.slot ch).law) := by
  refine List.ext_getElem (by simp [sentBytes, sendBytes_length]) fun n hn hn' => ?_
  rw [List.getElem_map, List.getElem_range]
  refine Option.some.inj ((List.getElem?_eq_getElem hn).symm.trans ?_)
  rw [sentBytes_getElem? inv hch finds .solo (by simpa using hn'), sendByte_solo_of_echo_off echo]

/-- Settles O40: from an empty queue no byte is the queued one, from a full enough one every byte is. -/
theorem soloEchoOffOutput : Obligations.SoloEchoOffOutput := by
  intro s ch len tag inv hch valid short outside echo
  obtain ⟨found, src, finds, source, completes⟩ := exec_send inv hch valid short tag
  obtain rfl : src = .solo := Except.ok.inj (source.symm.trans (sendSource_of_alone inv finds (.inl outside)))
  have ok := inv.slot_ok hch
  have answered := sendFrame_answered s ch found .solo len.toNat tag
  rw [sentBytes_solo_of_echo_off inv hch finds echo] at answered
  refine ⟨_, completes, fun empty => ?_, fun enough => ?_⟩
  · have silence : ∀ n, queuedAt s.cfg (s.slot ch) (s.slot ch).rTx n = none := fun n =>
      queuedAt_of_not_lt (by rw [(dist_eq_zero ok.wTx ok.rTx).mpr empty]; exact n.not_lt_zero)
    simp only [silence, Option.getD_none, List.map_const', List.length_range] at answered
    exact answered
  · have verbatim : ∀ n ∈ List.range len.toNat, (queuedAt s.cfg (s.slot ch) (s.slot ch).rTx n).getD
        (silLaw s.cfg (s.slot ch).law) = (s.slot ch).txBuff.read (adv s.cfg.buffSize (s.slot ch).rTx n) := fun n hn => by
      rw [queuedAt_of_lt ((List.mem_range.mp hn).trans_le enough)]; rfl
    rw [List.map_congr_left verbatim] at answered
    exact answered

/-! ### What SEND and SEND_TONE do not read (R208) -/

/-- A source seen as SEND reads it: of the peer's slot, what `Channel.sendView` keeps. -/
def Source.sendView : Source → Source
  | .solo => .solo
  | .pair peer => .pair peer.sendView
  | .group cells => .group cells

/-- An outcome with the state it answers seen as SEND reads it. -/
def outcomeView : Host.Outcome State Fault Refusal → Host.Outcome State Fault Refusal
  | .next t => .next t.sendView
  | .fault f => .fault f
  | .refused r => .refused r

@[simp] theorem State.sendView_cfg (s : State) : s.sendView.cfg = s.cfg := rfl

@[simp] theorem State.slot_sendView (s : State) (ch : ChIx) : s.sendView.slot ch = (s.slot ch).sendView := by
  simp only [State.slot, State.sendView, List.getD_eq_getElem?_getD, List.getElem?_map]
  cases s.chan[ch.toNat]? <;> rfl

@[simp] theorem State.find_sendView (s : State) (id : ConfId) :
    s.sendView.find id = (s.find id).map Conf.sendView :=
  List.find?_map

@[simp] theorem State.usable_sendView (s : State) (ch : ChIx) : s.sendView.usable ch = s.usable ch := by
  rw [State.usable, State.slot_sendView]; rfl

/-- The answer of SEND and SEND_TONE commutes with the view: the two read indices are in it (R193, R206). -/
theorem State.sendView_sent (s : State) (ch : ChIx) (a b : Nat) (r : Response) :
    (s.sendView.setSlot ch ((s.slot ch).sendView.sent a b)).respond r =
      ((s.setSlot ch ((s.slot ch).sent a b)).respond r).sendView := by
  simp only [State.sendView, State.setSlot, State.respond, List.map_set]
  rfl

/-- The conference found is the same (R191). -/
theorem sendConf_sendView (s : State) (ch : ChIx) :
    sendConf s.sendView ch = (sendConf s ch).map (Option.map Conf.sendView) := by
  have named : (s.sendView.slot ch).conference = (s.slot ch).conference := by rw [State.slot_sendView]; rfl
  rw [sendConf, sendConf, named]
  cases (s.slot ch).conference with
  | none => rfl
  | some id =>
    simp only [State.find_sendView]
    cases s.find id <;> rfl

/-- The source found is the same (R195, R200). -/
theorem sendSource_sendView (s : State) (ch : ChIx) (found : Option Conf) :
    sendSource s.sendView ch (found.map Conf.sendView) = (sendSource s ch found).map Source.sendView := by
  cases found with
  | none => rfl
  | some k =>
    have members : k.sendView.members = k.members := rfl
    simp only [Option.map_some, sendSource, members, State.slot_sendView]
    split
    · rfl
    split
    · cases k.members.find? fun o => o ≠ ch <;> rfl
    · rfl

/-- The read limit is the same: `W_rx` is read only of a channel in no conference (R191). -/
theorem readLimit_sendView (conf : sendConf s ch = .ok found) :
    readLimit (s.slot ch).sendView (found.map Conf.sendView) = readLimit (s.slot ch) found := by
  cases found with
  | some k => rfl
  | none =>
    have outside : (s.slot ch).conference = none := by
      unfold sendConf at conf
      split at conf
      · assumption
      · split at conf <;> cases conf
    simp [readLimit, Channel.sendView, outside]

/-- An output byte is the same (R195). -/
theorem sendByte_sendView (c : Config) (me : Channel) (src : Source) (tx : Option Byte) (ri : Nat) :
    sendByte c me.sendView src.sendView tx ri = sendByte c me src tx ri := by
  cases src <;> rfl

theorem sendBytes_sendView (c : Config) (me : Channel) (src : Source) (r n i x : Nat) :
    sendBytes c me.sendView src.sendView r n i x = sendBytes c me src r n i x := by
  induction n generalizing i x with
  | zero => rfl
  | succ n ih => exact congrArg₂ _ (sendByte_sendView c me src _ _) (ih _ _)

theorem sendTx_sendView (c : Config) (me : Channel) (n x : Nat) : sendTx c me.sendView n x = sendTx c me n x := by
  induction n generalizing x with
  | zero => rfl
  | succ n ih => exact ih _

/-- SEND after its checks commutes with the view (R191 to R206). -/
theorem sendFrame_sendView (conf : sendConf s ch = .ok found) (src : Source) (len : Nat) (tag : Word) :
    sendFrame s.sendView ch (found.map Conf.sendView) src.sendView len tag =
      (sendFrame s ch found src len tag).sendView := by
  simp only [sendFrame, State.slot_sendView, State.sendView_cfg, readLimit_sendView conf, sendBytes_sendView,
    sendTx_sendView]
  exact State.sendView_sent s ch _ _ _

/-- SEND commutes with the view (R190, R208). -/
theorem execSend_sendView (s : State) (ch : ChIx) (len : BitVec 16) (tag : Word) :
    execSend ch len tag s.sendView = outcomeView (execSend ch len tag s) := by
  simp only [execSend, State.usable_sendView, State.sendView_cfg, sendConf_sendView]
  split
  · split
    · rfl
    cases conf : sendConf s ch with
    | error f => rfl
    | ok found =>
      simp only [Except.map, sendSource_sendView]
      cases sendSource s ch found with
      | error f => rfl
      | ok src => exact congrArg _ (sendFrame_sendView conf src len.toNat tag)
  · rfl

/-- SEND_TONE commutes with the view (R196, R208). -/
theorem execSendTone_sendView (s : State) (ch : ChIx) (tag : Word) (tone : List Byte) :
    execSendTone ch tag tone s.sendView = outcomeView (execSendTone ch tag tone s) := by
  simp only [execSendTone, State.usable_sendView, State.sendView_cfg, sendConf_sendView, State.slot_sendView]
  split
  · split
    · rfl
    cases conf : sendConf s ch with
    | error f => rfl
    | ok found =>
      simp only [Except.map, readLimit_sendView conf]
      exact congrArg Host.Outcome.next (State.sendView_sent s ch _ _ _)
  · rfl

/-- SEND and SEND_TONE commute with the view: neither reads what it hides (R208). -/
theorem exec_sendView {i : Instr} (sends : i.op = 6 ∨ i.op = 7) (s : State) :
    exec i s.sendView = outcomeView (exec i s) := by
  cases i with
  | send ch len tag => exact execSend_sendView s ch len tag
  | sendTone ch tag tone => exact execSendTone_sendView s ch tag tone
  | _ => exact absurd sends (of_decide_eq_false rfl)

/-- An outcome seen as a next state is one. -/
theorem eq_next_of_outcomeView {r : Host.Outcome State Fault Refusal} (h : outcomeView r = .next t) :
    ∃ u, r = .next u ∧ u.sendView = t := by
  cases r <;> cases h
  exact ⟨_, rfl, rfl⟩

/-- Settles O42: the two states have one view, and the command on it answers the view of either answer. -/
theorem sendIgnoresOffloadAndThresholds : Obligations.SendIgnoresOffloadAndThresholds := by
  intro i s s' t sends same h
  have view : outcomeView (exec i s') = .next t.sendView :=
    calc outcomeView (exec i s') = exec i s'.sendView := (exec_sendView sends s').symm
      _ = exec i s.sendView := by rw [same]
      _ = outcomeView (exec i s) := exec_sendView sends s
      _ = .next t.sendView := by rw [h]; rfl
  obtain ⟨t', completes, views⟩ := eq_next_of_outcomeView view
  exact ⟨t', completes, views.symm⟩

end Sys2Proof.Machine
end

section
/-! TRANSMIT (45_transmit.md): what a nonempty frame comes to on a valid slot (R223, R224), where `W_tx` ends, and the bytes
of the queue. -/

namespace Sys2Proof.Machine

variable {s : State} {ch : ChIx} {k : Channel} {S : Nat} {frame : List Byte}

/-- TRANSMIT of a nonempty frame appends what fits in the free places, and answers `Busy` with `TRUNC` when that is not all
of it (R222 to R224). -/
theorem exec_transmit_eq (usable : s.usable ch = true) (nonempty : 0 < frame.length) :
    exec (.transmit ch frame) s = .next ((s.setSlot ch
      ((s.slot ch).queued s.cfg.buffSize (frame.take (txFree s.cfg.buffSize (s.slot ch))))).respond
        (if txFree s.cfg.buffSize (s.slot ch) < frame.length then Response.truncated ch
          else Response.okay opTransmit ch)) := by
  simp only [exec, execTransmit, usable, if_true, if_neg (Nat.pos_iff_ne_zero.mp nonempty)]
  rcases Nat.lt_or_ge (txFree s.cfg.buffSize (s.slot ch)) frame.length with tail | fits
  · rw [Nat.min_eq_right tail.le, if_pos tail, if_pos tail]
  · rw [Nat.min_eq_left fits, if_neg (lt_irrefl _), if_neg fits.not_gt, List.take_length, List.take_of_length_le fits]
    rfl

/-- With every free place taken, `W_tx` is one before `R_tx` (R222). -/
theorem adv_txFree (hr : k.rTx < S) : adv S k.wTx (txFree S k) = adv S k.rTx (-1) := by
  have hS : 0 < S := by omega
  have last : adv S (adv S k.wTx 1) (txFree S k) = k.rTx := adv_dist hr (adv_lt hS _ _)
  calc adv S k.wTx (txFree S k) = adv S k.wTx (1 + txFree S k + -1) := by congr 1; ring
    _ = adv S (adv S (adv S k.wTx 1) (txFree S k)) (-1) := by rw [adv_adv hS, adv_adv hS, Int.add_assoc]
    _ = adv S k.rTx (-1) := by rw [last]

/-- The slot after a frame that fits: `W_tx` has advanced by its length (R223). -/
theorem Channel.queued_of_fits (fits : frame.length ≤ txFree S k) :
    k.queued S (frame.take (txFree S k)) =
      { k with
        txBuff := ringWrite S k.txBuff k.wTx (frame.take (txFree S k))
        wTx := adv S k.wTx frame.length } := by
  rw [Channel.queued, List.length_take, Nat.min_eq_right fits]

/-- The slot after a frame that does not fit: `W_tx` is one before `R_tx` (R224). -/
theorem Channel.queued_of_tail (hr : k.rTx < S) (tail : txFree S k < frame.length) :
    k.queued S (frame.take (txFree S k)) =
      { k with
        txBuff := ringWrite S k.txBuff k.wTx (frame.take (txFree S k))
        wTx := adv S k.rTx (-1) } := by
  rw [Channel.queued, List.length_take, Nat.min_eq_left tail.le, adv_txFree hr]

/-- The first bytes of the frame, as many as there are free places, stand from `W_tx` on; every other index of the queue
reads as before (R223, R224). -/
theorem ringWrite_txFree_frame (hw : k.wTx < S) (hr : k.rTx < S) (wf : k.txBuff.wf S) :
    (∀ (n : Nat) b, frame[n]? = some b → n < txFree S k →
      (ringWrite S k.txBuff k.wTx (frame.take (txFree S k))).read (adv S k.wTx n) = b) ∧
    ∀ j, j < S → min frame.length (txFree S k) ≤ ringDist S j k.wTx →
      (ringWrite S k.txBuff k.wTx (frame.take (txFree S k))).read j = k.txBuff.read j := by
  have short : (frame.take (txFree S k)).length ≤ S := by
    have places := txFree_add hw hr
    rw [List.length_take]; omega
  obtain ⟨stored, kept⟩ := ringWrite_frame hw wf short
  refine ⟨fun n b hb room => stored n b ?_, fun j hj far => kept j hj ?_⟩
  · rw [List.getElem?_take_of_lt room, hb]
  · rwa [List.length_take, Nat.min_comm]

/-- Settles O35: as many bytes are appended as there are free places, and either that is the whole frame, or all free places
are taken. -/
theorem transmitResult : Obligations.TransmitResult := by
  intro s ch frame inv hch valid nonempty S free
  have me := inv.slot_ok hch
  have slot {o : Channel} {r : Response} : ((s.setSlot ch o).respond r).slot ch = o :=
    State.slot_setSlot_same (inv.chan_lt hch)
  have room : (txFree S (s.slot ch) : Int) = free := txFree_cast me.wTx
  obtain ⟨stored, kept⟩ := ringWrite_txFree_frame (S := S) (frame := frame) me.wTx me.rTx me.txWf
  refine ⟨_, _, exec_transmit_eq (State.usable_iff.mpr ⟨hch, valid⟩) nonempty, .of_setSlot _ _ _ _,
    .of_setSlot _ _ _ _, fun whole => ?_, fun cut => ?_, fun n b hb below => stored n b hb (by omega),
    fun j hj far => kept j hj (by omega)⟩
  · have fits : frame.length ≤ txFree S (s.slot ch) := by omega
    rw [if_neg fits.not_gt]
    exact ⟨rfl, slot.trans (Channel.queued_of_fits fits)⟩
  · have tail : txFree S (s.slot ch) < frame.length := by omega
    rw [if_pos tail]
    exact ⟨rfl, slot.trans (Channel.queued_of_tail me.rTx tail)⟩

end Sys2Proof.Machine
end

section
/-! The DTMF decoder (46_dtmf.md): the debounce (R243, R244), the decision (R239 to R242), the filter (R235 to R237), and
the companded payload byte by byte and part by part (R231, R233, R234, R246, R247). -/

namespace Sys2Proof.Machine

variable {c : Config} {cap : Nat} {d : Dtmf} {w : Byte} {g : List Byte} {r r' : DtmfRun}

/-! ### The debounce -/

/-- How many frames before this one decided `w` in a row, as the debounce counts them (R243). -/
def Dtmf.held (d : Dtmf) (w : Byte) : BitVec 2 := if w ≠ d.lastWhat then 0 else d.count

theorem Dtmf.held_of_change (change : d.lastWhat ≠ w) : d.held w = 0 := if_pos change.symm

theorem Dtmf.held_of_same (same : d.lastWhat = w) : d.held w = d.count := if_neg (not_not.mpr same.symm)

theorem Dtmf.held_toNat (d : Dtmf) (w : Byte) :
    (d.held w).toNat = if w ≠ d.lastWhat then 0 else d.count.toNat := apply_ite BitVec.toNat _ _ _

theorem Dtmf.held_eq_two_iff : d.held w = 2 ↔ (if w ≠ d.lastWhat then 0 else d.count.toNat) = 2 := by
  rw [← d.held_toNat, ← BitVec.toNat_inj]
  rfl

/-- At count 2 a decision that is not the last digit becomes it (R243). -/
theorem debounce_accepts (third : d.held w = 2) (new : w ≠ d.lastDigit) :
    debounce cap d w g = ({ d with count := 2, lastDigit := w, lastWhat := w }, emitDigit cap g w) := by
  rw [← third]
  exact if_pos ⟨third, new⟩

/-- Any other decision is only counted (R243). -/
theorem debounce_counts (other : ¬(d.held w = 2 ∧ w ≠ d.lastDigit)) :
    debounce cap d w g = ({ d with count := countUp (d.held w), lastWhat := w }, g) := if_neg other

theorem countUp_toNat (n : BitVec 2) : (countUp n).toNat = min 3 (n.toNat + 1) :=
  Nat.mod_eq_of_lt (by omega)

/-- The debounce writes the last decision whatever it does with it. -/
theorem debounce_lastWhat : (debounce cap d w g).1.lastWhat = w := by
  by_cases third : d.held w = 2 ∧ w ≠ d.lastDigit
  · rw [debounce_accepts third.1 third.2]
  · rw [debounce_counts third]

/-- `n` frames that all decide `w`. -/
def debounceFrames (cap n : Nat) (w : Byte) (q : Dtmf × List Byte) : Dtmf × List Byte :=
  (List.replicate n w).foldl (fun q what => debounce cap q.1 what q.2) q

theorem debounceFrames_add (n m : Nat) (q : Dtmf × List Byte) :
    debounceFrames cap (n + m) w q = debounceFrames cap m w (debounceFrames cap n w q) := by
  rw [debounceFrames, List.replicate_add, List.foldl_append]
  rfl

/-- The first frame with another decision starts the count (R243). -/
theorem debounceFrames_one (change : d.lastWhat ≠ w) :
    debounceFrames cap 1 w (d, g) = ({ d with count := 1, lastWhat := w }, g) := by
  have first : d.held w = 0 := Dtmf.held_of_change change
  exact (debounce_counts fun third => absurd (first.symm.trans third.1) (by decide)).trans (by rw [first]; rfl)

/-- The second frame with one decision counts it (R243). -/
theorem debounceFrames_two (change : d.lastWhat ≠ w) :
    debounceFrames cap 2 w (d, g) = ({ d with count := 2, lastWhat := w }, g) := by
  rw [debounceFrames_add 1 1, debounceFrames_one change]
  have second : Dtmf.held { d with count := 1, lastWhat := w } w = 1 := Dtmf.held_of_same rfl
  exact (debounce_counts fun third => absurd (second.symm.trans third.1) (by decide)).trans (by rw [second]; rfl)

/-- A decision that is the last digit emits nothing, however long it lasts (R244). -/
theorem debounceFrames_of_lastDigit (n : Nat) (same : d.lastDigit = w) :
    (debounceFrames cap n w (d, g)).1.lastDigit = w ∧ (debounceFrames cap n w (d, g)).2 = g := by
  induction n generalizing d with
  | zero => exact ⟨same, rfl⟩
  | succ n ih =>
    have counted : debounceFrames cap 1 w (d, g) = ({ d with count := countUp (d.held w), lastWhat := w }, g) :=
      debounce_counts fun third => third.2 same.symm
    rw [Nat.add_comm, debounceFrames_add, counted]
    exact ih same

/-- A decision that is neither the last one nor the last digit becomes the last digit on the third frame, and is emitted on
that frame only (R244). -/
theorem debounceFrames_of_new (n : Nat) (change : d.lastWhat ≠ w) (new : d.lastDigit ≠ w) :
    (debounceFrames cap (3 + n) w (d, g)).1.lastDigit = w ∧
      (debounceFrames cap (3 + n) w (d, g)).2 = emitDigit cap g w := by
  have third : debounceFrames cap 3 w (d, g) =
      ({ d with count := 2, lastWhat := w, lastDigit := w }, emitDigit cap g w) := by
    rw [debounceFrames_add 2 1, debounceFrames_two change]
    exact debounce_accepts (Dtmf.held_of_same rfl) new.symm
  rw [debounceFrames_add, third]
  exact debounceFrames_of_lastDigit n rfl

/-- Three frames without a tone make no-tone the last digit, and emit nothing (R244). -/
theorem debounceFrames_rearm (tone : d.lastWhat ≠ 0) :
    (debounceFrames cap 3 0 (d, g)).1.lastDigit = 0 ∧ (debounceFrames cap 3 0 (d, g)).2 = g := by
  by_cases armed : d.lastDigit = 0
  · exact debounceFrames_of_lastDigit 3 armed
  · exact debounceFrames_of_new 0 tone armed

/-- Settles O50: the two cases of a debounce, then the frames one by one. -/
theorem debounceThreeFrames : Obligations.DebounceThreeFrames := by
  constructor
  · intro cap d w g n q
    obtain ⟨buffer, size⟩ := debounce_frame cap d w g
    refine ⟨buffer, size, debounce_lastWhat, fun third => ?_, fun other => ?_⟩
    · have accepted : q = _ := debounce_accepts (Dtmf.held_eq_two_iff.mpr third.1) third.2
      rw [accepted]
      exact ⟨rfl, rfl, rfl⟩
    · have counted : q = _ := debounce_counts fun third => other ⟨Dtmf.held_eq_two_iff.mp third.1, third.2⟩
      rw [counted]
      exact ⟨(countUp_toNat _).trans (by rw [Dtmf.held_toNat]), rfl, rfl⟩
  · intro cap d w n room tone change new
    refine ⟨?_, fun d' => debounceFrames_rearm⟩
    change (debounceFrames cap n w (d, [])).2 = _
    match n with
    | 0 => rfl
    | 1 => rw [debounceFrames_one change]; rfl
    | 2 => rw [debounceFrames_two change]; rfl
    | n + 3 =>
      rw [if_pos (by omega), Nat.add_comm, (debounceFrames_of_new n change new).2]
      exact if_pos ⟨tone, room⟩

/-! ### The decision -/

section Decision

variable {thresh : Nat} {p : List Int} {peak tr : Int} {lo hi : Nat}

/-- No power qualifies as the peak (R239). -/
theorem peakPower_eq_none (weak : ∀ v ∈ p, ¬((thresh : Int) ≤ v ∧ 0 ≤ v)) : peakPower thresh p = none := by
  have empty : (p.filter fun v => decide ((thresh : Int) ≤ v ∧ 0 ≤ v)) = [] := by simpa using weak
  rw [peakPower, empty]
  rfl

/-- The peak is the largest power at or above the threshold and not negative (R239). -/
theorem peakPower_eq_some (mem : peak ∈ p) (strong : (thresh : Int) ≤ peak) (nonneg : 0 ≤ peak)
    (largest : ∀ v ∈ p, (thresh : Int) ≤ v → 0 ≤ v → v ≤ peak) : peakPower thresh p = some peak := by
  refine List.max?_eq_some_iff.mpr ⟨List.mem_filter.mpr ⟨mem, decide_eq_true ⟨strong, nonneg⟩⟩, fun v hv => ?_⟩
  obtain ⟨hp, hv⟩ := List.mem_filter.mp hv
  obtain ⟨above, pos⟩ := of_decide_eq_true hv
  exact largest v hp above pos

/-- A power in the forbidden band rejects the frame (R240). -/
theorem decideDigit_of_band (found : peakPower thresh p = some peak) (band : ∃ v ∈ p, peak / 8 ≤ v ∧ v < peak / 4) :
    decideDigit thresh p = 0 := by
  have any : (p.any fun v => decide (peak / 8 ≤ v ∧ v < peak / 4)) = true := by simpa using band
  simp only [decideDigit, found, any, if_true]

/-- With one bin of each group, and no power in the forbidden band, the decision is the matrix entry (R241). -/
theorem decideDigit_of_bins (found : peakPower thresh p = some peak)
    (clear : ∀ v ∈ p, ¬(peak / 8 ≤ v ∧ v < peak / 4)) (low : strongBins p (peak / 4) 0 = [lo])
    (high : strongBins p (peak / 4) 4 = [hi]) : decideDigit thresh p = digitAt lo (hi - 4) := by
  have any : ¬(p.any fun v => decide (peak / 8 ≤ v ∧ v < peak / 4)) = true := by simpa using clear
  simp only [decideDigit, found, if_neg any, low, high]

/-- A frame decides no tone unless exactly one bin of each group is strong (R240). -/
theorem decideDigit_eq_zero (found : peakPower thresh p = some peak)
    (bins : ¬∃ lo hi, strongBins p (peak / 4) 0 = [lo] ∧ strongBins p (peak / 4) 4 = [hi]) : decideDigit thresh p = 0 := by
  simp only [decideDigit, found]
  split
  · rfl
  · split
    · exact absurd ⟨_, _, ‹_›, ‹_›⟩ bins
    · rfl

/-- Exactly one strong bin of each group, said of the powers by index (R240). -/
theorem strongBins_pair_iff (eight : p.length = 8) :
    strongBins p tr 0 = [lo] ∧ strongBins p tr 4 = [hi] ↔
      lo < 4 ∧ 4 ≤ hi ∧ hi < 8 ∧ ∀ k v, p[k]? = some v → (tr ≤ v ↔ k = lo ∨ k = hi) := by
  have power : ∀ k v, p[k]? = some v → k < 8 ∧ p.getD k 0 = v := fun k v hv =>
    ⟨eight ▸ (List.getElem?_eq_some_iff.mp hv).1, by rw [List.getD_eq_getElem?_getD, hv]; rfl⟩
  have exists_power : ∀ k, k < 8 → p[k]? = some (p.getD k 0) := fun k hk => by
    rw [List.getD_eq_getElem?_getD, List.getElem?_eq_getElem (eight.symm ▸ hk)]
    rfl
  simp only [strongBins, filter_range4, decide_eq_true_eq]
  constructor
  · rintro ⟨⟨-, lo4, low⟩, hi4, hi8, high⟩
    refine ⟨lo4, hi4, hi8, fun k v hv => ?_⟩
    obtain ⟨k8, rfl⟩ := power k v hv
    rcases Nat.lt_or_ge k 4 with k4 | k4
    · rw [low k (Nat.zero_le k) k4]; omega
    · rw [high k k4 k8]; omega
  · rintro ⟨lo4, hi4, hi8, each⟩
    refine ⟨⟨Nat.zero_le lo, lo4, fun k _ k4 => ?_⟩, hi4, hi8, fun k k4 k8 => ?_⟩
    · rw [each k _ (exists_power k (by omega))]; omega
    · rw [each k _ (exists_power k k8)]; omega

end Decision

/-- Settles O49: the peak is found first; `strongBins_pair_iff` says when the two groups have one bin each. -/
theorem frameDecision : Obligations.FrameDecision := by
  intro thresh p eight
  refine ⟨fun weak => ?_, fun peak mem strong nonneg largest => ?_⟩
  · simp only [decideDigit, peakPower_eq_none weak]
  · have found := peakPower_eq_some mem strong nonneg largest
    refine ⟨decideDigit_of_band found, fun lo hi lo4 hi4 hi8 clear each => ?_, fun bins => ?_⟩
    · obtain ⟨low, high⟩ := (strongBins_pair_iff eight).mpr ⟨lo4, hi4, hi8, each⟩
      exact decideDigit_of_bins found clear low high
    · refine decideDigit_eq_zero found fun ⟨lo, hi, pair⟩ => bins ⟨lo, hi, ?_⟩
      exact (strongBins_pair_iff eight).mp pair

/-! ### The filter -/

/-- The power with the shift as a floor division (R235, R236). -/
theorem goertzelPower_eq (k s1 s2 : Int) : goertzelPower k s1 s2 = s1 ^ 2 + s2 ^ 2 - (k * s1 / 32768) * s2 := by
  have shift : (k * s1) >>> (15 : Nat) = k * s1 / 32768 := Int.shiftRight_eq_div_pow _ _
  rw [goertzelPower, shift, sq, sq]

/-- Settles O48: the loop ends at the last two values of the recurrence (`goertzelLoop_eq`), which give the power. -/
theorem goertzelFollowsRecurrence : Obligations.GoertzelFollowsRecurrence := by
  intro xs k f f0 f1 rule N
  have loop := goertzelLoop_eq k xs f 0 false (by simpa only [Nat.zero_add] using rule)
  simp only [Nat.zero_add, f0, f1, Bool.false_or] at loop
  simp only [goertzel, loop]
  refine ⟨goertzelPower_eq k _ _, ?_⟩
  rw [decide_eq_true_eq]
  constructor
  · rintro ⟨n, hn, large⟩
    exact ⟨n + 1, Nat.succ_pos n, hn, large⟩
  · rintro ⟨n, pos, hn, large⟩
    obtain ⟨n, rfl⟩ := Nat.exists_eq_succ_of_ne_zero (Nat.pos_iff_ne_zero.mp pos)
    exact ⟨n, hn, large⟩

/-! ### The command -/

/-- The digits of a command that starts with none are in order (R246). -/
theorem digitsOk_nil (c : Config) : DigitsOk c [] := ⟨Nat.zero_le _, by simp⟩

/-- With no bytes nothing changes. -/
theorem dtmfPayload_nil (fmt : Fmt) (r : DtmfRun) : dtmfPayload c fmt [] r = r := by
  cases fmt <;> rfl

/-- Settles O44: the digits and the frame of hardware magnitudes are kept in order by every payload (`dtmfPayload_ok`,
`hfcChunks_ok`). -/
theorem dtmfDecodeCompletes : Obligations.DtmfDecodeCompletes := by
  intro s ch fmt bytes size hch valid decoder
  obtain ⟨⟨count, codes⟩, -⟩ := dtmfPayload_ok fmt bytes ⟨(s.slot ch).dtmf, [], false⟩ (digitsOk_nil s.cfg)
  refine ⟨_, _, _, _, exec_dtmfDecode (State.usable_iff.mpr ⟨hch, valid⟩) decoder fmt bytes rfl, rfl,
    .of_setSlot _ _ _ _, .of_setSlot _ _ _ _, State.slot_setSlot_same (size.symm ▸ hch), count, codes, ?_, ?_⟩
  · rintro rfl
    exact (hfcChunks_ok (bytes.length / 32) bytes _ (digitsOk_nil s.cfg)).2
  · rintro rfl
    rw [dtmfPayload_nil]
    exact ⟨rfl, rfl, rfl⟩

/-! ### One more byte -/

/-- The two companded formats are read byte by byte, each by its law (R231). -/
theorem dtmfPayload_companded {fmt : Fmt} {law : Law} (format : (fmt = .aLaw ∧ law = .a) ∨ (fmt = .uLaw ∧ law = .u))
    (bytes : List Byte) (r : DtmfRun) : dtmfPayload c fmt bytes r = dtmfBytes c law bytes r := by
  rcases format with ⟨rfl, rfl⟩ | ⟨rfl, rfl⟩
  · rfl
  · rfl

/-- A run with one sample stored at the fill level (R233). -/
def DtmfRun.stored (r : DtmfRun) (v : Int) : DtmfRun :=
  { r with d := { r.d with buffer := r.d.buffer.write r.d.size (BitVec.ofInt 16 v), size := r.d.size + 1 } }

/-- A sample that does not fill the frame is only stored (R233). -/
theorem DtmfRun.sample_of_room {v : Int} (room : r.d.size + 1 ≠ c.nPoints) : r.sample c v = r.stored v := if_neg room

/-- A sample that fills the frame has it processed (R234). -/
theorem DtmfRun.sample_of_full {v : Int} (full : r.d.size + 1 = c.nPoints) : r.sample c v = (r.stored v).frame c :=
  if_pos full

/-- A decoded byte stored as a 16-bit sample reads back as it is (R104). -/
theorem toInt_ofInt_decLaw (c : Config) (law : Law) (b : Byte) :
    (BitVec.ofInt 16 (decLaw c law b)).toInt = decLaw c law b := by
  cases law
  · exact congrArg BitVec.toInt BitVec.ofInt_toInt
  · exact congrArg BitVec.toInt BitVec.ofInt_toInt

/-- Settles O45: the payload with the byte is the payload before it and one sample, which is stored, or completes a
frame. -/
theorem dtmfDecodeOneMoreByte : Obligations.DtmfDecodeOneMoreByte := by
  intro s t ch fmt law bytes b r inv hch valid format h answered c d
  have usable : s.usable ch = true := State.usable_iff.mpr ⟨hch, valid⟩
  have ok := inv.slot_ok hch
  have completes := exec_dtmfDecode usable (ok.decoder valid) fmt
  have slot : ∀ o : Channel, (s.setSlot ch o).slot ch = o := fun _ => State.slot_setSlot_same (inv.chan_lt hch)
  obtain ⟨q, run⟩ : ∃ q, dtmfPayload c fmt bytes ⟨(s.slot ch).dtmf, [], false⟩ = q := ⟨_, rfl⟩
  have wf : q.d.buffer.wf c.nPoints :=
    (run ▸ (dtmfPayload_ok fmt bytes _ (digitsOk_nil c)).2 ⟨ok.dtmfWf, ok.size⟩ : q.d.Ok c).1
  have more : dtmfPayload c fmt (bytes ++ [b]) ⟨(s.slot ch).dtmf, [], false⟩ = q.sample c (decLaw c law b) := by
    rw [dtmfPayload_companded format] at run ⊢
    rw [dtmfBytes_append, run]
    rfl
  cases (completes bytes run).symm.trans h
  obtain rfl : Response.digits ch q.digits q.warn = r := List.singleton_inj.mp (List.append_cancel_left answered)
  have decoder : d = q.d := congrArg Channel.dtmf (slot _)
  clear_value d
  subst decoder
  refine ⟨_, q.d.buffer.write q.d.size (BitVec.ofInt 16 (decLaw c law b)), completes _ more, ?_, fun j other => ?_,
    fun room => ?_, fun full => ?_⟩
  · rw [Mem.read_write wf, if_pos rfl, toInt_ofInt_decLaw]
  · rw [Mem.read_write wf, if_neg other]
  · rw [DtmfRun.sample_of_room room]
    exact ⟨slot _, rfl⟩
  · rw [DtmfRun.sample_of_full full]
    exact ⟨slot _, rfl⟩

/-! ### A stream in two parts -/

/-- What the debounce stores does not depend on the digits so far. -/
theorem debounce_fst (cap : Nat) (d : Dtmf) (w : Byte) (g g' : List Byte) :
    (debounce cap d w g).1 = (debounce cap d w g').1 := by
  by_cases third : d.held w = 2 ∧ w ≠ d.lastDigit
  · rw [debounce_accepts third.1 third.2, debounce_accepts third.1 third.2]
  · rw [debounce_counts third, debounce_counts third]

/-- Digits before those of this command stay in front of them while the capacity holds them all (R246). -/
theorem emitDigit_append {before : List Byte} (fits : before.length + (emitDigit cap g w).length ≤ cap) :
    emitDigit cap (before ++ g) w = before ++ emitDigit cap g w := by
  unfold emitDigit at *
  split at fits
  · next emits =>
    rw [List.length_append] at fits
    rw [if_pos ⟨emits.1, by rw [List.length_append]; exact fits⟩, if_pos emits, List.append_assoc]
  · next silent =>
    have full : ¬(w ≠ 0 ∧ (before ++ g).length < cap) := fun emits =>
      silent ⟨emits.1, by have := emits.2; rw [List.length_append] at this; omega⟩
    rw [if_neg full, if_neg silent]

theorem debounce_append {before : List Byte} (fits : before.length + (debounce cap d w g).2.length ≤ cap) :
    (debounce cap d w (before ++ g)).2 = before ++ (debounce cap d w g).2 := by
  by_cases third : d.held w = 2 ∧ w ≠ d.lastDigit
  · rw [debounce_accepts third.1 third.2] at fits ⊢
    rw [debounce_accepts third.1 third.2]
    exact emitDigit_append fits
  · rw [debounce_counts third, debounce_counts third]

theorem length_le_debounce (cap : Nat) (d : Dtmf) (w : Byte) (g : List Byte) :
    g.length ≤ (debounce cap d w g).2.length := by
  rcases debounce_digits cap d w g with same | ⟨-, -, more⟩
  · rw [same]
  · rw [more, List.length_append]; omega

/-- The run `r'` is the run `r` after a part that emitted `before` and warned or not: one decoder state, the warnings
together, the digits in front while the capacity holds them all (R247). -/
structure DtmfRun.Follows (c : Config) (before : List Byte) (warned : Bool) (r r' : DtmfRun) : Prop where
  d : r'.d = r.d
  warn : r'.warn = (warned || r.warn)
  digits : before.length + r.digits.length ≤ c.digitsCap → r'.digits = before ++ r.digits

namespace DtmfRun.Follows

variable {before : List Byte} {warned : Bool}

theorem decided (h : Follows c before warned r r') (p : List Int) :
    Follows c before warned (r.decided c p) (r'.decided c p) := by
  refine ⟨?_, h.warn, fun fits => ?_⟩
  · simp only [DtmfRun.decided, h.d]
    exact debounce_fst _ _ _ _ _
  · have shorter := length_le_debounce c.digitsCap r.d (decideDigit c.dtmfThresh p) r.digits
    have front : r'.digits = before ++ r.digits := h.digits ((Nat.add_le_add_left shorter _).trans fits)
    simp only [DtmfRun.decided, h.d, front]
    exact debounce_append fits

/-- A full frame begins anew, with the warning of its bins (R234, R237). -/
theorem emptied (h : Follows c before warned r r') (bins : Bool) :
    Follows c before warned { r with d := { r.d with size := 0 }, warn := r.warn || bins }
      { r' with d := { r'.d with size := 0 }, warn := r'.warn || bins } :=
  ⟨by rw [h.d], by rw [h.warn, Bool.or_assoc], h.digits⟩

theorem frame (h : Follows c before warned r r') : Follows c before warned (r.frame c) (r'.frame c) := by
  have same : frameSamples c.nPoints r'.d = frameSamples c.nPoints r.d := by rw [h.d]
  simp only [DtmfRun.frame, same]
  exact (h.emptied _).decided _

theorem stored (h : Follows c before warned r r') (v : Int) : Follows c before warned (r.stored v) (r'.stored v) :=
  ⟨by simp only [DtmfRun.stored, h.d], h.warn, h.digits⟩

theorem sample (h : Follows c before warned r r') (v : Int) :
    Follows c before warned (r.sample c v) (r'.sample c v) := by
  by_cases full : r.d.size + 1 = c.nPoints
  · rw [DtmfRun.sample_of_full full, DtmfRun.sample_of_full (h.d ▸ full)]
    exact (h.stored v).frame
  · rw [DtmfRun.sample_of_room full, DtmfRun.sample_of_room (h.d ▸ full)]
    exact h.stored v

theorem bytes (law : Law) (bs : List Byte) (h : Follows c before warned r r') :
    Follows c before warned (dtmfBytes c law bs r) (dtmfBytes c law bs r') := by
  induction bs generalizing r r' with
  | nil => exact h
  | cons b bs ih => exact ih (h.sample _)

end DtmfRun.Follows

/-- Settles O47: the whole stream runs the second part from where the first one ended, and that run follows the run of the
second part alone, sample by sample. -/
theorem dtmfSplitInvisible : Obligations.DtmfSplitInvisible := by
  intro c fmt one two d companded a b whole
  obtain ⟨law, format⟩ : ∃ law, (fmt = .aLaw ∧ law = .a) ∨ (fmt = .uLaw ∧ law = Law.u) := by
    cases fmt with
    | aLaw => exact ⟨.a, .inl ⟨rfl, rfl⟩⟩
    | uLaw => exact ⟨.u, .inr ⟨rfl, rfl⟩⟩
    | hfc => exact absurd rfl companded
  have start : DtmfRun.Follows c a.digits a.warn ⟨a.d, [], false⟩ a :=
    ⟨rfl, (Bool.or_false _).symm, fun _ => (List.append_nil _).symm⟩
  have follows : DtmfRun.Follows c a.digits a.warn b whole := by
    simp only [a, b, whole, dtmfPayload_companded format] at start ⊢
    rw [dtmfBytes_append]
    exact start.bytes law two
  exact ⟨follows.d, follows.warn, follows.digits⟩

end Sys2Proof.Machine
end

section
/-! Exceptions (60_exceptions.md): how a command can end, said once (`exec_ends`): refused with the state as it was, or
completed with a status of R272's table. From it that the block never stops (R300), the table itself, and that
`InvalidArgument` changes nothing (R271, R276). -/

namespace Sys2Proof.Machine

variable {s : State} {i : Instr} {ch : ChIx}

/-! ### The ways a command can end -/

/-- The statuses R272's table gives a command that is not refused: all but `InvalidArgument`. -/
def CompletedStatus (i : Instr) (status : Status) : Prop :=
  status = .ok ∨ (status = .resourceExhausted ∧ i.op = 3) ∨ (status = .busy ∧ (i.op = 4 ∨ i.op = 5))

/-- How a command can end in a state (R271): with `InvalidArgument` and nothing changed, or completed. -/
inductive Ends (i : Instr) (s : State) : Prop
  | refused (h : Refuses i s .invalidArgument)
  | completed (t : State) (r : Response) (run : exec i s = .next t) (answered : Answered s t r)
      (status : CompletedStatus i r.status)

/-- However a command ends, it answers a next state. -/
theorem Ends.next (h : Ends i s) : ∃ t, exec i s = .next t := by
  cases h with
  | refused run => exact ⟨_, run⟩
  | completed t _ run => exact ⟨t, run⟩

/-- What is known of a command's next state and response: the state is the one before plus the response, whose status is
`InvalidArgument`; or the command has completed. -/
theorem Ends.answer {t : State} {r : Response} (h : Ends i s) (run : exec i s = .next t) (answered : Answered s t r) :
    (r.status = .invalidArgument ∧ t = s.respond r) ∨ CompletedStatus i r.status := by
  cases h with
  | refused run' =>
    cases run.symm.trans run'
    obtain rfl := answered.unique rfl
    exact .inl ⟨rfl, rfl⟩
  | completed _ q run' answered' status =>
    cases run.symm.trans run'
    exact .inr (answered.unique answered' ▸ status)

/-! ### Each command -/

/-- CH_INIT of no slot or of a conference member is refused (R160). -/
theorem chInit_ends (inv : s.Inv) (ch : ChIx) (law : Law) : Ends (.chInit ch law) s := by
  obtain ⟨completes, refuses⟩ := chInitResult s ch law inv.size
  by_cases free : ch.toNat < s.cfg.nChan ∧ ((s.slot ch).valid = false ∨ (s.slot ch).conference = none)
  · obtain ⟨t, run, answered, -⟩ := completes free.1 free.2
    exact .completed t _ run answered (.inl rfl)
  · refine .refused (refuses ?_)
    rw [not_and_or, not_or, Nat.not_lt, Bool.not_eq_false] at free
    exact free

/-- RECONFIGURE of a valid slot is never refused, but can find no room (R158). -/
theorem reconfigure_ends (inv : s.Inv) (hch : ch.toNat < s.cfg.nChan) (valid : (s.slot ch).valid = true) :
    Ends (.reconfigure ch) s := by
  obtain ⟨t, st, evs, run, answered, outcome, -⟩ := reconfigureCompletes s ch inv hch valid
  refine .completed t _ run answered ?_
  rcases outcome with ⟨ok, -⟩ | ⟨exhausted, -⟩
  · exact .inl ok
  · exact .inr (.inl ⟨exhausted, rfl⟩)

/-- RECEIVE on a valid slot refuses the empty frame alone (R171); a long one is dropped, and a member's may be (R176). -/
theorem receive_ends (inv : s.Inv) (hch : ch.toNat < s.cfg.nChan) (valid : (s.slot ch).valid = true)
    (frame : List Byte) : Ends (.receive ch frame) s := by
  obtain ⟨refuses, drops⟩ := receiveLengthChecks s ch frame hch valid
  rcases Nat.eq_zero_or_pos frame.length with empty | nonempty
  · exact .refused (refuses empty)
  rcases Nat.lt_or_ge s.cfg.maxLen frame.length with long | short
  · exact .completed _ _ (drops long) rfl (.inr (.inr ⟨rfl, .inl rfl⟩))
  cases named : (s.slot ch).conference with
  | none =>
    have usable := State.usable_iff.mpr ⟨hch, valid⟩
    exact .completed _ _ (exec_receive_of_outside usable nonempty short named) rfl (.inl rfl)
  | some id =>
    obtain ⟨k, hk, rfl, -⟩ := inv.conf_of_named hch named
    have run := exec_receive_of_member inv hch valid hk named nonempty short
    rcases Nat.lt_or_ge (raisedLargest s ch k frame)
      (ringDist s.cfg.buffSize (newMax s ch k frame) (newMin s ch k frame)) with wide | narrow
    · exact .completed _ _ run (receiveMember_dropped inv hch hk wide).1 (.inr (.inr ⟨rfl, .inl rfl⟩))
    · exact .completed _ _ run (receiveMember_accepted inv hch hk narrow).1 (.inl rfl)

/-- TRANSMIT on a valid slot refuses the empty frame alone, and is busy when the queue has no room for the whole frame
(R221, R224). -/
theorem transmit_ends (inv : s.Inv) (hch : ch.toNat < s.cfg.nChan) (valid : (s.slot ch).valid = true)
    (frame : List Byte) : Ends (.transmit ch frame) s := by
  rcases Nat.eq_zero_or_pos frame.length with empty | nonempty
  · exact .refused ((transmitQueueLength s ch frame inv hch valid).1 empty)
  · refine .completed _ _ (exec_transmit_eq (State.usable_iff.mpr ⟨hch, valid⟩) nonempty) rfl ?_
    split
    · exact .inr (.inr ⟨rfl, .inr rfl⟩)
    · exact .inl rfl

/-- SEND on a valid slot refuses half a ring of bytes or more alone (R190). -/
theorem send_ends (inv : s.Inv) (hch : ch.toNat < s.cfg.nChan) (valid : (s.slot ch).valid = true) (len : BitVec 16)
    (tag : Word) : Ends (.send ch len tag) s := by
  rcases Nat.lt_or_ge len.toNat s.cfg.half with short | long
  · obtain ⟨_, _, -, -, run⟩ := exec_send inv hch valid short tag
    exact .completed _ _ run rfl (.inl rfl)
  · exact .refused ((sendRefusesLongRead s ch len tag [] hch valid).1 long)

/-- SEND_TONE on a valid slot refuses half a ring of bytes or more alone (R196). -/
theorem sendTone_ends (inv : s.Inv) (hch : ch.toNat < s.cfg.nChan) (valid : (s.slot ch).valid = true) (tag : Word)
    (tone : List Byte) : Ends (.sendTone ch tag tone) s := by
  rcases Nat.lt_or_ge tone.length s.cfg.half with short | long
  · obtain ⟨_, -, run⟩ := exec_sendTone inv hch valid short tag
    exact .completed _ _ run rfl (.inl rfl)
  · exact .refused ((sendRefusesLongRead s ch 0 tag tone hch valid).2 long)

/-- Every command that names a valid slot ends refused, with nothing changed, or completed. -/
theorem ends_of_valid (inv : s.Inv) (hch : i.ch.toNat < s.cfg.nChan) (valid : (s.slot i.ch).valid = true) : Ends i s := by
  cases i with
  | chInit ch law => exact chInit_ends inv ch law
  | chSet ch st =>
    obtain ⟨t, run, answered, -⟩ := chSetResult s ch st inv.size hch valid
    exact .completed t _ run answered (.inl rfl)
  | reconfigure ch => exact reconfigure_ends inv hch valid
  | receive ch frame => exact receive_ends inv hch valid frame
  | transmit ch frame => exact transmit_ends inv hch valid frame
  | send ch len tag => exact send_ends inv hch valid len tag
  | sendTone ch tag tone => exact sendTone_ends inv hch valid tag tone
  | dtmfInit ch =>
    obtain ⟨t, _, run, answered, -⟩ := dtmfInitResult s ch inv.size hch valid
    exact .completed t _ run answered (.inl rfl)
  | dtmfDecode ch fmt bytes =>
    obtain ⟨t, _, _, _, run, answered, -⟩ :=
      dtmfDecodeCompletes s ch fmt bytes inv.size hch valid ((inv.slot_ok hch).decoder valid)
    exact .completed t _ run answered (.inl rfl)

/-- In a state that meets the invariant every command ends refused, with nothing changed, or completed: on no valid slot
all but CH_INIT are refused (R24, R274). -/
theorem exec_ends (inv : s.Inv) (i : Instr) : Ends i s := by
  cases usable : s.usable i.ch with
  | true => exact ends_of_valid inv (State.usable_iff.mp usable).1 (State.usable_iff.mp usable).2
  | false =>
    cases i with
    | chInit ch law => exact chInit_ends inv ch law
    | _ => exact .refused (refuses_of_not_usable (of_decide_eq_false rfl) usable)

/-! ### The block never stops, and its statuses -/

/-- Settles O52: a step waits, answers an illegal command, or runs a legal one, which ends. -/
theorem stepNeverStops : Obligations.StepNeverStops := by
  intro s inv
  cases read : decode s.input with
  | incomplete => exact ⟨_, step_of_incomplete read⟩
  | illegal why op ch rest => exact ⟨_, step_of_illegal read⟩
  | instr i rest => rw [step_of_decode read]; exact (exec_ends (inv.consumed rest) i).next

/-- Settles O56: a refusal is `InvalidArgument`, and a completed command has one of the other statuses of the table. -/
theorem statusTable : Obligations.StatusTable := by
  intro i s t r inv run answered
  rcases (exec_ends inv i).answer run answered with ⟨invalid, -⟩ | ok | others
  · exact .inr (.inl invalid)
  · exact .inl ok
  · exact .inr (.inr others)

/-- `InvalidArgument` is not a status of a completed command. -/
theorem CompletedStatus.ne_invalidArgument {status : Status} (h : CompletedStatus i status) :
    status ≠ .invalidArgument := by
  rcases h with rfl | ⟨rfl, -⟩ | ⟨rfl, -⟩ <;> decide

/-- Settles O57: only a refused command answers `InvalidArgument`. -/
theorem invalidArgumentChangesNothing : Obligations.InvalidArgumentChangesNothing := by
  intro i s t r inv run answered invalid
  rcases (exec_ends inv i).answer run answered with ⟨-, unchanged⟩ | completes
  · exact unchanged
  · exact absurd invalid completes.ne_invalidArgument

end Sys2Proof.Machine
end
